-- ==== Sys2Proof/Word.lean ====
section
/-! DEFINITION. The word types of the block and the two fixed byte patterns of its protocol. -/

namespace Sys2Proof

/-- A byte: an unsigned integer 0 to 255 (00_scope.md rule R11). -/
abbrev Byte := BitVec 8

/-- An operation word: 16 bits, bit 15 most significant (30_encoding.md rule R77). -/
abbrev Word := BitVec 16

/-- A ring index, `head` or `tail`: 8 bits, arithmetic modulo 256 (10_state.md rules R22, R23). -/
abbrev Index := BitVec 8

/-- A command length: 10 bits (10_state.md rule R30). -/
abbrev CmdLen := BitVec 10

end Sys2Proof
end

