-- ==== Sys2Proof/Config.lean ====
section
/-! DEFINITION. The constants the spec fixes (00_scope.md rule R9) and the types of the arguments it
leaves open (rule R10). The block has no free value: nothing an operation computes is left undefined,
and every open argument is a field of `Machine.Params`. -/

namespace Sys2Proof.Config

/-- `CAPACITY`: bytes a RingBuffer can hold, and the number of its slots (rule R9). -/
abbrev capacity : Nat := 128

/-- `CMD_CAP`: bytes a command buffer can hold (rule R9). -/
abbrev cmdCap : Nat := 512

/-- `SCRATCH_CAP`: bytes the relay's scratch buffer can hold (rule R10). -/
abbrev scratchCap : Nat := 128

/-- `STX`: the start-of-text delimiter (rules R9, R70). -/
abbrev stx : Byte := 0x02#8

/-- `ETX`: the end-of-text delimiter (rules R9, R70). -/
abbrev etx : Byte := 0x03#8

/-- `CFG_FALLBACK`: the table index that selector codes 10 to 15 resolve to (rule R10). -/
abbrev cfgFallback : Nat := 1

/-- A ConfigEntry: `bitInvert` and the 32-bit `baudRate` (10_state.md rule R34). -/
structure Entry where
  bitInvert : Bool
  baudRate : BitVec 32
  deriving DecidableEq, Repr

/-- `RELAY_MODE`: passthrough or framed (43_environment_software.md rule R162). -/
inductive RelayMode where
  | passthrough
  | framed
  deriving DecidableEq, Repr

/-- `ERR_ETX_COUNT`: one or two terminators on an error frame (43_environment_software.md rule R160). -/
inductive EtxCount where
  | one
  | two
  deriving DecidableEq, Repr

end Sys2Proof.Config
end

