-- ==== Sys2Proof/Syntax.lean ====
section
/-! DEFINITION. The ports, directions and rings an operation names, and the eight operations of the
opcode table (30_encoding.md rule R83), one constructor a row. -/

namespace Sys2Proof

/-- The three serial ports (10_state.md rule R21). -/
inductive Port where
  | pc
  | master
  | slave
  deriving DecidableEq, Repr

/-- The two directions of a port; each has a RingBuffer of its own (10_state.md rule R21). -/
inductive Dir where
  | rx
  | tx
  deriving DecidableEq, Repr

/-- One of the six rings `rx[p]`, `tx[p]` (10_state.md rule R20). -/
structure RingId where
  port : Port
  dir : Dir
  deriving DecidableEq, Repr

/-- `rx[p]`. -/
abbrev rxRing (p : Port) : RingId := ⟨p, .rx⟩

/-- `tx[p]`. -/
abbrev txRing (p : Port) : RingId := ⟨p, .tx⟩

/-- The operations, one constructor per row of the opcode table.
`rbRead` takes a natural number, as the abstract operation does (30_encoding.md rule R78);
the operation word carries only 0 to 255, which `Instr.wf` checks. -/
inductive Instr where
  /-- RB.WRITE `r`, `b` (rule R101). -/
  | rbWrite (r : RingId) (b : Byte)
  /-- RB.READ `r`, `maxCount` (rule R103). -/
  | rbRead (r : RingId) (maxCount : Nat)
  /-- RB.COUNT `r` (rule R105). -/
  | rbCount (r : RingId)
  /-- RB.ISFULL `r` (rule R106). -/
  | rbIsfull (r : RingId)
  /-- IRQ.RX `p`, `b` (rule R121). -/
  | irqRx (p : Port) (b : Byte)
  /-- IRQ.TX `p` (rule R122). -/
  | irqTx (p : Port)
  /-- IRQ.TXC `p` (rule R124). -/
  | irqTxc (p : Port)
  /-- FP.FEED `p`, `raw` (rule R135). -/
  | fpFeed (p : Port) (raw : Byte)
  deriving DecidableEq, Repr

end Sys2Proof
end

