-- ==== Sys2Proof/WellFormed.lean ====
section
/-! DEFINITION. Which operations have an operation word (30_encoding.md rules R77, R78).
Ports, rings and bytes are well formed by their types; the one operand that can be too large for its
field is RB.READ's `maxCount`. -/

namespace Sys2Proof

/-- The operation fits an operation word: RB.READ's `maxCount` is 0 to 255 (rule R78). -/
def Instr.wf : Instr → Bool
  | .rbWrite _ _ => true
  | .rbRead _ m => decide (m < 256)
  | .rbCount _ => true
  | .rbIsfull _ => true
  | .irqRx _ _ => true
  | .irqTx _ => true
  | .irqTxc _ => true
  | .fpFeed _ _ => true

end Sys2Proof
end

