-- ==== Sys2Proof/Decode.lean ====
section
/-! DEFINITION. The operation word `OP16`: its fields, the decoder, the encoder, and the decoder as
the opcode table numbers a word's bits (30_encoding.md rules R76 to R85). -/

namespace Sys2Proof

/-! ## The fields of `OP16` (rule R77) -/

/-- Bits 15:12. -/
def opField (w : Word) : BitVec 4 := w.extractLsb' 12 4

/-- Bits 11:10. -/
def portField (w : Word) : BitVec 2 := w.extractLsb' 10 2

/-- Bit 9. -/
def rgField (w : Word) : BitVec 1 := w.extractLsb' 9 1

/-- Bit 8. -/
def zField (w : Word) : BitVec 1 := w.extractLsb' 8 1

/-- Bits 7:0. -/
def immField (w : Word) : Byte := w.extractLsb' 0 8

/-! ## The numeric codes of rule R76 -/

/-- The port a `port` field names; 3 names none (rules R76, R77). -/
def portOfCode (c : BitVec 2) : Option Port :=
  if c = 0#2 then some .pc
  else if c = 1#2 then some .master
  else if c = 2#2 then some .slave
  else none

/-- `PC = 0`, `MASTER = 1`, `SLAVE = 2`. -/
def codeOfPort : Port → BitVec 2
  | .pc => 0#2
  | .master => 1#2
  | .slave => 2#2

/-- The ring of the port that the `rg` bit selects: 0 = RX, 1 = TX (rule R77). -/
def dirOfCode (c : BitVec 1) : Dir := if c = 0#1 then .rx else .tx

/-- `RX = 0`, `TX = 1`. -/
def codeOfDir : Dir → BitVec 1
  | .rx => 0#1
  | .tx => 1#1

/-! ## Decoding -/

/-- Why a word is illegal whatever interface it arrives on (rule R85), one name for each of the
rule's conditions. -/
inductive DecodeError where
  /-- `op` is 0x8 to 0xF. -/
  | reservedOp
  /-- `port` is 3. -/
  | portThree
  /-- `z` is 1. -/
  | zNotZero
  /-- `op` is RB.COUNT, RB.ISFULL, IRQ.TX or IRQ.TXC and `imm8` is not 0. -/
  | immNotZero
  /-- `op` is IRQ.RX or FP.FEED and `rg` is 1. -/
  | rgNotZero
  /-- `op` is IRQ.TX or IRQ.TXC and `rg` is 0. -/
  | rgNotOne
  deriving DecidableEq, Repr

/-- A word whose `imm8` must be 0. -/
def needImmZero (w : Word) (i : Instr) : Except DecodeError Instr :=
  if immField w = 0#8 then .ok i else .error .immNotZero

/-- A word whose `rg` must be 0. -/
def needRgZero (w : Word) (i : Instr) : Except DecodeError Instr :=
  if rgField w = 0#1 then .ok i else .error .rgNotZero

/-- A word whose `rg` must be 1 and whose `imm8` must be 0. -/
def needRgOneImmZero (w : Word) (i : Instr) : Except DecodeError Instr :=
  if rgField w = 1#1 then needImmZero w i else .error .rgNotOne

/-- The row of the opcode map that `op` selects (rule R83), for a word with a legal port and `z = 0`. -/
def decodeOp (w : Word) (p : Port) : Except DecodeError Instr :=
  match (opField w).toNat with
  | 0 => .ok (.rbWrite ⟨p, dirOfCode (rgField w)⟩ (immField w))
  | 1 => .ok (.rbRead ⟨p, dirOfCode (rgField w)⟩ (immField w).toNat)
  | 2 => needImmZero w (.rbCount ⟨p, dirOfCode (rgField w)⟩)
  | 3 => needImmZero w (.rbIsfull ⟨p, dirOfCode (rgField w)⟩)
  | 4 => needRgZero w (.irqRx p (immField w))
  | 5 => needRgOneImmZero w (.irqTx p)
  | 6 => needRgOneImmZero w (.irqTxc p)
  | 7 => needRgZero w (.fpFeed p (immField w))
  | _ => .error .reservedOp

/-- The operation a word stands for, or why it stands for none (rules R83, R85). Total on all
65536 words. -/
def decode (w : Word) : Except DecodeError Instr :=
  if 8 ≤ (opField w).toNat then .error .reservedOp
  else
    match portOfCode (portField w) with
    | none => .error .portThree
    | some p => if zField w = 0#1 then decodeOp w p else .error .zNotZero

/-! ## Encoding -/

/-- The word with the given fields and `z = 0` (rule R77). -/
def opWord (op : BitVec 4) (p : Port) (rg : BitVec 1) (imm : Byte) : Word :=
  op ++ codeOfPort p ++ rg ++ 0#1 ++ imm

/-- The word of a well-formed operation (rule R83). -/
def encode : Instr → Word
  | .rbWrite r b => opWord 0#4 r.port (codeOfDir r.dir) b
  | .rbRead r m => opWord 1#4 r.port (codeOfDir r.dir) (BitVec.ofNat 8 m)
  | .rbCount r => opWord 2#4 r.port (codeOfDir r.dir) 0#8
  | .rbIsfull r => opWord 3#4 r.port (codeOfDir r.dir) 0#8
  | .irqRx p b => opWord 4#4 p 0#1 b
  | .irqTx p => opWord 5#4 p 1#1 0#8
  | .irqTxc p => opWord 6#4 p 1#1 0#8
  | .fpFeed p raw => opWord 7#4 p 0#1 raw

/-! ## The opcode table's rows (rule R83) -/

/-- The mask of the operation's row. -/
def rowMask : Instr → Word
  | .rbWrite _ _ => 0xF100#16
  | .rbRead _ _ => 0xF100#16
  | .rbCount _ => 0xF1FF#16
  | .rbIsfull _ => 0xF1FF#16
  | .irqRx _ _ => 0xF300#16
  | .irqTx _ => 0xF3FF#16
  | .irqTxc _ => 0xF3FF#16
  | .fpFeed _ _ => 0xF300#16

/-- The match value of the operation's row. -/
def rowMatch : Instr → Word
  | .rbWrite _ _ => 0x0000#16
  | .rbRead _ _ => 0x1000#16
  | .rbCount _ => 0x2000#16
  | .rbIsfull _ => 0x3000#16
  | .irqRx _ _ => 0x4000#16
  | .irqTx _ => 0x5200#16
  | .irqTxc _ => 0x6200#16
  | .fpFeed _ _ => 0x7000#16

/-- The word whose bits, numbered as the opcode table numbers them, are `w`: bits at and above
`nbits` are 0. Every row has 16 bits and a word is presented whole, so no byte order enters. -/
def tableWord (nbits w : Nat) : Word := BitVec.ofNat 16 (w % 2 ^ nbits)

/-- The operation the decoder reads from an opcode-table row's word. No row is longer than 16 bits,
so a longer one is none of the block's. -/
def decodeTableWord (nbits w : Nat) : Option Instr :=
  if nbits ≤ 16 then (decode (tableWord nbits w)).toOption else none

end Sys2Proof
end

