-- ==== Sys2Proof/Machine/State.lean ====
section
/-! DEFINITION. The machine's state as plain data, its faults and refusals, and the state right after
reset (10_state.md rules R20 to R42, 70_reset_and_hazards.md rules R205 to R208). -/

namespace Sys2Proof.Machine

/-! ## Containers -/

/-- One value for each of the three ports. -/
structure PerPort (α : Type) where
  pc : α
  master : α
  slave : α
  deriving DecidableEq, Repr

/-- A byte array as the list of the bytes written since reset, addresses strictly rising.
An address that is not listed holds NO VALUE (10_state.md rules R24, R30); see log entry 5. -/
abbrev Memory := List Host.Cell

/-! ## The block -/

/-- A RingBuffer (10_state.md rules R22 to R24). -/
structure Ring where
  /-- The consumer's index. -/
  head : Index
  /-- The producer's index. -/
  tail : Index
  /-- The slot array, addresses 0 to 127. -/
  slots : Memory
  deriving DecidableEq, Repr

/-- The two parser states (10_state.md rule R29); the code is `WaitSTX = 0`, `WaitETX = 1` (rule R76). -/
inductive PState where
  | waitSTX
  | waitETX
  deriving DecidableEq, Repr

/-- A FrameParser (10_state.md rules R29, R30). -/
structure Parser where
  pstate : PState
  /-- The length of the meaningful part of `cbuf`. -/
  clen : CmdLen
  /-- The command buffer, addresses 0 to 511. -/
  cbuf : Memory
  deriving DecidableEq, Repr

/-- The complete state of the block (10_state.md rule R20), with the transmit histories `wire_tx`
that rule R31 keeps beside it. -/
structure Block where
  /-- The receive rings `rx[p]`. -/
  rx : PerPort Ring
  /-- The transmit rings `tx[p]`. -/
  tx : PerPort Ring
  /-- `pstate[p]`, `clen[p]`, `cbuf[p]`. -/
  parsers : PerPort Parser
  /-- `de[MASTER]`, the RS-485 driver enable (rule R32); `PC` has none. -/
  deMaster : Bool
  /-- `de[SLAVE]`. -/
  deSlave : Bool
  /-- The one active ConfigEntry, `none` while it is not yet selected (rules R34, R41). -/
  cfg : Option Config.Entry
  /-- The history `wire_tx[p]` of the bytes sent on each wire (rule R31). -/
  wire : PerPort (List Byte)
  deriving DecidableEq, Repr

/-! ## Agents, interfaces, responses -/

/-- The two roles of a ring (10_state.md rule R28). -/
inductive Role where
  | producer
  | consumer
  deriving DecidableEq, Repr

/-- The four agents of the system (60_exceptions.md rule R196), and the two that a test harness for one
ring brings, a producer and a consumer (00_scope.md rule R14). -/
inductive Agent where
  | main
  | irq (p : Port)
  | harness (x : Role)
  deriving DecidableEq, Repr

/-- The interface a word arrives on, which names the issuing agent (30_encoding.md rule R79). -/
inductive Iface where
  | mainLoop
  | event (p : Port)
  deriving DecidableEq, Repr

/-- What an operation answers its issuer (30_encoding.md rule R87). IRQ.RX, IRQ.TX and IRQ.TXC answer
nothing. -/
inductive Response where
  /-- RB.WRITE: accepted or rejected. -/
  | ok (accepted : Bool)
  /-- RB.READ: the pair `(n, bytes)`. -/
  | read (n : Nat) (bytes : List Byte)
  /-- RB.COUNT. -/
  | count (n : Nat)
  /-- RB.ISFULL. -/
  | isFull (full : Bool)
  /-- FP.FEED: `none`. -/
  | noFrame
  /-- FP.FEED: `frame(bytes)`. -/
  | frame (bytes : List Byte)
  /-- A role violation. -/
  | refused
  /-- An illegal word. -/
  | illegal
  deriving DecidableEq, Repr

/-- The abnormal conditions of 60_exceptions.md rule R180. -/
inductive Condition where
  | writeRejected
  | ringBufferOverflow
  | readSizeMismatch
  | frameBufferOverflow
  | frameAbort
  | byteDropped
  | hang
  | refused
  | illegal
  deriving DecidableEq, Repr

/-- One entry of the history of answers: who was answered, the operation (none for an illegal word,
which stands for no operation), the response, and the condition of rule R180 the operation met. -/
structure Answer where
  agent : Agent
  op : Option Instr
  resp : Response
  cond : Option Condition
  deriving DecidableEq, Repr

/-! ## Operations in progress (10_state.md rule R38) -/

/-- Where an agent stands inside an operation it has begun: the constructor names the NEXT micro-step,
its arguments are the operands and the private locals `h`, `t`, `n`, `bytes` taken so far. The loop
index `i` of micro-step R4 is the length of `bytes`. -/
inductive Micro where
  | w1 (r : RingId) (b : Byte)
  | w2 (r : RingId) (b : Byte) (h : Index)
  | w3 (r : RingId) (b : Byte) (h t : Index)
  | w4 (r : RingId) (b : Byte) (h t : Index)
  | w5 (r : RingId) (b : Byte) (h t : Index)
  | r1 (r : RingId) (m : Nat)
  | r2 (r : RingId) (m : Nat) (t : Index)
  | r3 (r : RingId) (m : Nat) (t h : Index)
  | r4 (r : RingId) (m : Nat) (h : Index) (n : Nat) (bytes : List Byte)
  | r5 (r : RingId) (m : Nat) (h : Index) (n : Nat) (bytes : List Byte)
  | c1 (r : RingId)
  | c2 (r : RingId) (t : Index)
  | f1 (r : RingId)
  | f2 (r : RingId) (t : Index)
  | feed (p : Port) (raw : Byte)
  deriving DecidableEq, Repr

/-- On whose behalf `MAIN` issued the operation in progress: its own loop, which takes the response,
or a word presented from outside. -/
inductive Owner where
  | loop
  | harness
  deriving DecidableEq, Repr

/-- The operation `MAIN` has begun and not ended; it has at most one (20_memory.md rule R56). -/
structure InFlight where
  micro : Micro
  owner : Owner
  deriving DecidableEq, Repr

/-- The operations the two agents of a harness have begun and not ended (00_scope.md rule R14). -/
structure HarnessOps where
  producer : Option Micro
  consumer : Option Micro
  deriving DecidableEq, Repr

/-! ## MAIN's position in MAIN.LOOP (43_environment_software.md rules R155, R168) -/

/-- The two source ports a poll can have (rule R164). -/
inductive Source where
  | master
  | slave
  deriving DecidableEq, Repr

/-- What RELAY.POLL returns, success or failure (rule R164). DESIGN CHOICE: a failure keeps the name of the
condition the poll reported, which the spec's bare `failure` does not (log entry 30). -/
inductive PollResult where
  | success
  | failure (c : Condition)
  deriving DecidableEq, Repr

/-- A TX.BLOCK in progress: its destination, its bytes, and the index `i` of the byte being written
(rule R158). -/
structure TxBlock where
  dest : Port
  bytes : List Byte
  i : Nat
  deriving DecidableEq, Repr

/-- What follows a TX.BLOCK of a poll: the poll ends, or the drain loop L7 goes on at index `i`. -/
inductive AfterTx where
  | endPoll (res : PollResult)
  | feed (i : Nat)
  deriving DecidableEq, Repr

/-- Where `MAIN` stands inside RELAY.POLL: at the operation of L1, L2 or L4, at index `i` of L7, or
inside a TX.BLOCK (of L6, of L7, or of the ERR.SEND of L1 or L5). -/
inductive PollPoint where
  | l1
  | l2
  | l4
  | l7 (i : Nat)
  | tx (blk : TxBlock) (after : AfterTx)
  deriving DecidableEq, Repr

/-- `MAIN`'s private state in MAIN.LOOP. -/
structure MainLoop where
  /-- M2 (`MASTER`) or M3 (`SLAVE`). -/
  src : Source
  point : PollPoint
  /-- The snapshot `c` of L2. -/
  snapshot : Nat
  /-- The scratch buffer `buf`; its length is the `n` of L4. -/
  scratch : List Byte
  /-- The source and result of the last finished poll, which MAIN.LOOP ignores (rule R166). DESIGN CHOICE:
  they are kept (log entry 30). -/
  lastPoll : Option (Source × PollResult)
  deriving DecidableEq, Repr

/-! ## The arguments of the model and the schedule (10_state.md rule R39) -/

/-- The arguments the spec leaves open (00_scope.md rule R10), constant during a run. -/
structure Params where
  /-- `RELAY_MODE`. -/
  relayMode : Config.RelayMode
  /-- `ERR_ETX_COUNT`. -/
  errEtxCount : Config.EtxCount
  /-- `SEL_CODE`: what the rotary switch returns at boot. -/
  selCode : BitVec 4
  /-- The one ring, if any, that a test harness exercises alone, with agents of its own in both roles
  (10_state.md rule R28). -/
  harness : Option RingId
  deriving DecidableEq, Repr

/-- One turn of the schedule: which agent moves next, and with what. -/
inductive Turn where
  /-- A word is presented on an interface and its operation runs whole. -/
  | request (f : Iface) (w : Word)
  /-- A word is presented on the main-loop interface and `MAIN` will take its micro-steps one by one. -/
  | issue (w : Word)
  /-- `MAIN` takes one micro-step. -/
  | main
  /-- The abstract operation with an explicit agent (30_encoding.md rule R79), run whole. -/
  | abstract (a : Agent) (i : Instr)
  /-- An agent of the harness begins an abstract operation and will take its micro-steps one by one. -/
  | begin (x : Role) (i : Instr)
  /-- An agent of the harness takes one micro-step. -/
  | micro (x : Role)
  deriving DecidableEq, Repr

/-! ## The whole state -/

/-- The block, its user `MAIN`, the model's arguments, the schedule still to come, and the history of
the answers given. -/
structure State where
  block : Block
  /-- `MAIN`'s operation in progress (rule R38). -/
  mainOp : Option InFlight
  /-- The harness agents' operations in progress (00_scope.md rule R14). -/
  harnessOps : HarnessOps
  /-- `MAIN`'s position in MAIN.LOOP (rule R168). -/
  loop : MainLoop
  params : Params
  /-- The turns still to come, next first; when there is none left `MAIN` moves (log entry 1). -/
  agenda : List Turn
  /-- Every answer given so far, oldest first (log entry 6). -/
  answers : List Answer
  deriving DecidableEq, Repr

/-- Why the machine stops. Each is raised by a memory access the spec gives no meaning and none is
reachable from reset (10_state.md rule R40); each is SAFE. -/
inductive Fault where
  /-- Raised by micro-step R4 (RB.READ, IRQ.TX): the slot holds no value (rule R24). Safe. -/
  | slotUnwritten (r : RingId) (i : Nat)
  /-- Raised by FP.FEED's emit: the command-buffer byte holds no value (rule R30). Safe. -/
  | cbufUnwritten (p : Port) (i : Nat)
  /-- Raised by FP.FEED's append: the index is outside 0 to 511, so no such byte exists (rule R142).
  Safe. -/
  | cbufOutside (p : Port) (i : Nat)
  /-- Raised by RELAY.POLL at L4: more bytes than the scratch buffer has (43_environment_software.md
  rule R155). Safe. -/
  | scratchOutside (n : Nat)
  deriving DecidableEq, Repr

/-- Why an operation has no meaning. -/
inductive Refusal where
  /-- The operation of that mnemonic has no meaning in the model yet. Raised by no arm of `exec`.
  Safe. -/
  | notModelled (mnemonic : String)
  deriving DecidableEq, Repr

/-! ## Reset -/

/-- The same value at every port. -/
def PerPort.all {α : Type} (x : α) : PerPort α := ⟨x, x, x⟩

/-- An empty ring: indices 0, no slot with a value (rule R41). -/
def Ring.reset : Ring := ⟨0#8, 0#8, []⟩

/-- A parser in `WaitSTX` with `clen = 0` and no byte with a value (rule R41). -/
def Parser.reset : Parser := ⟨.waitSTX, 0#10, []⟩

/-- The block right after reset; `cfg` is not yet selected (rules R41, R206). -/
def Block.reset : Block where
  rx := PerPort.all Ring.reset
  tx := PerPort.all Ring.reset
  parsers := PerPort.all Parser.reset
  deMaster := false
  deSlave := false
  cfg := none
  wire := PerPort.all []

/-- `MAIN` stands at M2, before L1 of its first poll (rules R166, R207). DESIGN CHOICE: the scratch
buffer is empty and the snapshot 0 (log entry 13). -/
def MainLoop.reset : MainLoop := ⟨.master, .l1, 0, [], none⟩

/-- The default arguments (rule R10). DESIGN CHOICE: `SEL_CODE`, which has no default, is 1
(log entry 4). No harness. -/
def Params.default : Params := ⟨.passthrough, .one, 1#4, none⟩

/-- The machine right after reset, for any arguments. -/
def State.resetWith (q : Params) : State where
  block := Block.reset
  mainOp := none
  harnessOps := ⟨none, none⟩
  loop := MainLoop.reset
  params := q
  agenda := []
  answers := []

/-- The machine right after reset, for the default arguments. -/
def State.reset : State := State.resetWith Params.default

end Sys2Proof.Machine
end

