-- ==== Sys2Proof/Machine/Flags.lean ====
section
/-! DEFINITION. The count of a ring and the two predicates computed from it; the block stores no flag
(10_state.md rules R25, R26; 40_ringbuffer.md rule R107). -/

namespace Sys2Proof.Machine

/-- `(t - h) mod 256` (rules R25, R107). -/
def indexDiff (t h : Index) : Nat := (t - h).toNat

/-- Whether the indices say full: `(t - h) mod 256 == 128` (rule R26). -/
def indexFull (t h : Index) : Bool := indexDiff t h == Config.capacity

/-- `cnt(r)` (rule R25). -/
def Ring.cnt (g : Ring) : Nat := indexDiff g.tail g.head

/-- `empty(r)` (rule R26). -/
def Ring.isEmpty (g : Ring) : Bool := g.cnt == 0

/-- `full(r)` (rule R26). -/
def Ring.isFull (g : Ring) : Bool := g.cnt == Config.capacity

end Sys2Proof.Machine
end

