-- ==== Sys2Proof/Machine/Operands.lean ====
section
/-! DEFINITION. What the operands and the interface of an operation stand for: the slot an index names,
the byte fed to a parser, the issuing agent, the roles of the rings, and which words an interface
takes (10_state.md rules R24, R28; 30_encoding.md rules R78, R79; 42_frame_parser.md rule R136). -/

namespace Sys2Proof.Machine

/-- The slot that an index names: `i mod 128` (rule R24). -/
def slotOf (i : Index) : Nat := i.toNat % Config.capacity

/-- The byte the parser sees: the raw byte, complemented when `bitInvert` is configured (rule R136). -/
def feedByte (invert : Bool) (raw : Byte) : Byte := if invert then ~~~raw else raw

/-- The one producer of a ring in the system: `IRQ(p)` of `rx[p]`, `MAIN` of `tx[p]` (rule R28). -/
def systemProducer (r : RingId) : Agent :=
  match r.dir with
  | .rx => .irq r.port
  | .tx => .main

/-- The one consumer of a ring in the system: `MAIN` of `rx[p]`, `IRQ(p)` of `tx[p]` (rule R28). -/
def systemConsumer (r : RingId) : Agent :=
  match r.dir with
  | .rx => .main
  | .tx => .irq r.port

/-- The one producer of a ring when a harness exercises the ring `h`: the harness's own on that ring,
the system's on every other (rule R28, 00_scope.md rule R14). -/
def producer (h : Option RingId) (r : RingId) : Agent :=
  if h = some r then .harness .producer else systemProducer r

/-- The one consumer of a ring when a harness exercises the ring `h`. -/
def consumer (h : Option RingId) (r : RingId) : Agent :=
  if h = some r then .harness .consumer else systemConsumer r

/-- Whether an agent holds the role an operation needs: RB.WRITE the producer's, RB.READ the
consumer's, RB.COUNT and RB.ISFULL either (rule R110), the events the handler of their port's
(rule R171) and the role of the ring operation inside (rules R121, R122, R124), FP.FEED `MAIN`'s
(rule R135). -/
def mayIssue (h : Option RingId) (a : Agent) : Instr → Bool
  | .rbWrite r _ => decide (a = producer h r)
  | .rbRead r _ => decide (a = consumer h r)
  | .rbCount r => decide (a = producer h r) || decide (a = consumer h r)
  | .rbIsfull r => decide (a = producer h r) || decide (a = consumer h r)
  | .irqRx p _ => decide (a = .irq p) && decide (a = producer h (rxRing p))
  | .irqTx p => decide (a = .irq p) && decide (a = consumer h (txRing p))
  | .irqTxc p => decide (a = .irq p) && decide (a = consumer h (txRing p))
  | .fpFeed _ _ => decide (a = .main)

/-- The producer of a ring in a state. -/
def State.producer (s : State) (r : RingId) : Agent := Machine.producer s.params.harness r

/-- The consumer of a ring in a state. -/
def State.consumer (s : State) (r : RingId) : Agent := Machine.consumer s.params.harness r

/-- Whether an agent holds the role an operation needs, in a state. -/
def State.mayIssue (s : State) (a : Agent) (i : Instr) : Bool :=
  Machine.mayIssue s.params.harness a i

/-- The interface whose words an operation's word is legal on (rule R79): the main-loop interface for
RB.* and FP.FEED, the event interface of its own port for IRQ.*. -/
def homeIface : Instr → Iface
  | .rbWrite _ _ => .mainLoop
  | .rbRead _ _ => .mainLoop
  | .rbCount _ => .mainLoop
  | .rbIsfull _ => .mainLoop
  | .irqRx p _ => .event p
  | .irqTx p => .event p
  | .irqTxc p => .event p
  | .fpFeed _ _ => .mainLoop

/-- The agent that issues what arrives on an interface (rule R79). -/
def agentOf : Iface → Agent
  | .mainLoop => .main
  | .event p => .irq p

/-- The agent that issues an operation presented as a word (rule R79). -/
def issuer (i : Instr) : Agent := agentOf (homeIface i)

end Sys2Proof.Machine
end

