-- ==== Sys2Proof/Machine/Ops.lean ====
section
/-! DEFINITION. The named accesses to memory, registers and histories: `MemRead` and `MemWrite`
(00_scope.md rule R12), one accessor for each register of 10_state.md, the logical content of a ring
(rule R27), and the answer an operation gives its issuer, which is also how a condition of
60_exceptions.md is raised: `raise` names the condition and transfers control nowhere (rule R13). -/

namespace Sys2Proof.Machine

/-! ## Byte arrays -/

/-- `MemRead(a, 1)`: the byte last written at `a`, none if none was since reset (rule R12). -/
def Memory.read : Memory → Nat → Option Byte
  | [], _ => none
  | (c, x) :: m, a => if a = c then some x else Memory.read m a

/-- `MemWrite(a, 1, b)`; keeps the list in canonical form. -/
def Memory.write : Memory → Nat → Byte → Memory
  | [], a, b => [(a, b)]
  | (c, x) :: m, a, b =>
    if a < c then (a, b) :: (c, x) :: m
    else if a = c then (a, b) :: m
    else (c, x) :: Memory.write m a b

/-- The canonical form of an array of `size` bytes: addresses strictly rising, all below `size`.
No value stands for "not written", so no entry repeats what an unlisted address reads as. -/
abbrev Memory.wf (size : Nat) (m : Memory) : Prop :=
  m.Pairwise (fun x y => x.1 < y.1) ∧ ∀ c ∈ m, c.1 < size

/-! ## Per-port values -/

/-- The value at a port. -/
def PerPort.get {α : Type} (v : PerPort α) : Port → α
  | .pc => v.pc
  | .master => v.master
  | .slave => v.slave

/-- Replace the value at a port. -/
def PerPort.set {α : Type} (v : PerPort α) (p : Port) (x : α) : PerPort α :=
  match p with
  | .pc => { v with pc := x }
  | .master => { v with master := x }
  | .slave => { v with slave := x }

/-! ## Rings (10_state.md rules R22 to R27) -/

/-- Ring `r`. -/
def Block.ring (k : Block) (r : RingId) : Ring :=
  match r.dir with
  | .rx => k.rx.get r.port
  | .tx => k.tx.get r.port

/-- Replace ring `r`. -/
def Block.setRing (k : Block) (r : RingId) (g : Ring) : Block :=
  match r.dir with
  | .rx => { k with rx := k.rx.set r.port g }
  | .tx => { k with tx := k.tx.set r.port g }

/-- `head[r]`. -/
def Block.head (k : Block) (r : RingId) : Index := (k.ring r).head

/-- `tail[r]`. -/
def Block.tail (k : Block) (r : RingId) : Index := (k.ring r).tail

/-- `head[r] <- v`. -/
def Block.setHead (k : Block) (r : RingId) (v : Index) : Block :=
  k.setRing r { k.ring r with head := v }

/-- `tail[r] <- v`. -/
def Block.setTail (k : Block) (r : RingId) (v : Index) : Block :=
  k.setRing r { k.ring r with tail := v }

/-- The byte in the slot of ring `r` that index `i` names. -/
def Block.readSlot (k : Block) (r : RingId) (i : Index) : Option Byte :=
  Memory.read (k.ring r).slots (slotOf i)

/-- `MemWrite(slots[r] + (i mod 128), 1, b)`. -/
def Block.writeSlot (k : Block) (r : RingId) (i : Index) (b : Byte) : Block :=
  k.setRing r { k.ring r with slots := Memory.write (k.ring r).slots (slotOf i) b }

/-- `cnt(r)` (rule R25). -/
def Block.cnt (k : Block) (r : RingId) : Nat := (k.ring r).cnt

/-- The byte of a ring at distance `i` from its head. -/
def Ring.item (g : Ring) (i : Nat) : Option Byte :=
  Memory.read g.slots (slotOf (g.head + BitVec.ofNat 8 i))

/-- `content(r)`: the queued bytes, oldest first (rule R27). -/
def Ring.content (g : Ring) : List Byte := (List.range g.cnt).filterMap g.item

/-- `content(r)` of a ring of the block. -/
def Block.content (k : Block) (r : RingId) : List Byte := (k.ring r).content

/-! ## Parsers, driver enables, configuration, wires -/

/-- The parser of port `p`. -/
def Block.parser (k : Block) (p : Port) : Parser := k.parsers.get p

/-- Replace the parser of port `p`. -/
def Block.setParser (k : Block) (p : Port) (q : Parser) : Block :=
  { k with parsers := k.parsers.set p q }

/-- `de[p]`; the `PC` port has none (rule R32). -/
def Block.de (k : Block) : Port → Option Bool
  | .pc => none
  | .master => some k.deMaster
  | .slave => some k.deSlave

/-- `if p in (MASTER, SLAVE) then de[p] <- v` (rules R32, R122, R124). -/
def Block.setDe (k : Block) (p : Port) (v : Bool) : Block :=
  match p with
  | .pc => k
  | .master => { k with deMaster := v }
  | .slave => { k with deSlave := v }

/-- `wire_tx[p]` (rule R31). -/
def Block.wireOf (k : Block) (p : Port) : List Byte := k.wire.get p

/-- `wire_tx[p] ++= b` (rule R13). -/
def Block.pushWire (k : Block) (p : Port) (b : Byte) : Block :=
  { k with wire := k.wire.set p (k.wire.get p ++ [b]) }

/-! ## Operations in progress -/

/-- The operation in progress of a harness agent. -/
def HarnessOps.get (v : HarnessOps) : Role → Option Micro
  | .producer => v.producer
  | .consumer => v.consumer

/-- Replace the operation in progress of a harness agent. -/
def HarnessOps.set (v : HarnessOps) (x : Role) (m : Option Micro) : HarnessOps :=
  match x with
  | .producer => { v with producer := m }
  | .consumer => { v with consumer := m }

/-- The micro-step an agent takes next, if it has an operation in progress; a handler never has, since
its operation is atomic (20_memory.md rule R57). -/
def State.opOf (s : State) : Agent → Option Micro
  | .main => s.mainOp.map InFlight.micro
  | .irq _ => none
  | .harness x => s.harnessOps.get x

/-- Replace the operation in progress of a harness agent. -/
def State.setHarnessOp (s : State) (x : Role) (m : Option Micro) : State :=
  { s with harnessOps := s.harnessOps.set x m }

/-! ## Answers -/

/-- Answer an agent and name the condition met, if any. Nothing of the block changes. -/
def State.answer (s : State) (a : Agent) (op : Option Instr) (resp : Response)
    (c : Option Condition) : State :=
  { s with answers := s.answers ++ [⟨a, op, resp, c⟩] }

/-- Replace the block. -/
def State.withBlock (s : State) (k : Block) : State := { s with block := k }

/-- A role violation: no state changes and the response is `REFUSED` (40_ringbuffer.md rule R110). -/
def State.refuse (s : State) (a : Agent) (i : Instr) : State :=
  s.answer a (some i) .refused (some .refused)

/-- An illegal word: no state changes and the response is `ILLEGAL` (30_encoding.md rule R85). -/
def State.answerIllegal (s : State) (f : Iface) : State :=
  s.answer (agentOf f) none .illegal (some .illegal)

/-- The run is marked as having had a request refused (30_encoding.md rule R85, 00_scope.md rule R16). -/
def State.marked (s : State) : Bool :=
  s.answers.any fun e => decide (e.resp = .refused) || decide (e.resp = .illegal)

end Sys2Proof.Machine
end

