-- ==== Sys2Proof/Machine/Boot.lean ====
section
/-! DEFINITION. CFG.SELECT and the boot sequence (43_environment_software.md rule R156,
70_reset_and_hazards.md rule R207), and the active configuration the block reads. -/

namespace Sys2Proof.Machine

/-- The configuration table, index 0 to 9 (10_state.md rule R35). -/
def cfgTable : List Config.Entry :=
  [⟨true, 9600#32⟩, ⟨false, 9600#32⟩, ⟨true, 11400#32⟩, ⟨false, 11400#32⟩, ⟨true, 19200#32⟩,
   ⟨false, 19200#32⟩, ⟨true, 38400#32⟩, ⟨false, 38400#32⟩, ⟨true, 115200#32⟩, ⟨false, 115200#32⟩]

/-- The entry that codes 10 to 15 resolve to: table index 1 (rule R156). -/
def cfgFallbackEntry : Config.Entry := ⟨false, 9600#32⟩

/-- CFG.SELECT `code` (rule R156): entry `code` for 0 to 9, entry 1 for 10 to 15. -/
def cfgSelect (code : BitVec 4) : Config.Entry :=
  if code.toNat ≤ 9 then cfgTable.getD code.toNat cfgFallbackEntry
  else cfgTable.getD Config.cfgFallback cfgFallbackEntry

/-- Boot (rule R207 steps 2 to 5): the rotary switch is read and CFG.SELECT's result becomes `cfg`.
The bring-up of clocks, pins and links is outside the spec. -/
def bootStep (s : State) : State :=
  { s with block := { s.block with cfg := some (cfgSelect s.params.selCode) } }

/-- The configuration FP.FEED reads: `cfg`. Before it is selected, when no step runs an operation, the
entry boot will select stands for it (DESIGN CHOICE, log entry 10). -/
def State.activeCfg (s : State) : Config.Entry := s.block.cfg.getD (cfgSelect s.params.selCode)

end Sys2Proof.Machine
end

