-- ==== Sys2Proof/Machine/FrameParser.lean ====
section
/-! DEFINITION. FP.FEED and the five transitions of the STX/ETX parser (42_frame_parser.md). -/

namespace Sys2Proof.Machine

/-! ## The buffer primitives (rule R142) -/

/-- Clear: `clen <- 0`; the bytes are not touched. -/
def Parser.clear (q : Parser) : Parser := { q with clen := 0#10 }

/-- Append `x`: write it at `cbuf + clen`, then increment `clen`. -/
def Parser.append (p : Port) (x : Byte) (q : Parser) : Except Fault Parser :=
  if q.clen.toNat < Config.cmdCap then
    .ok { q with cbuf := Memory.write q.cbuf q.clen.toNat x, clen := q.clen + 1#10 }
  else .error (.cbufOutside p q.clen.toNat)

/-- The bytes at `i`, `i + 1`, … of a command buffer, `count` of them, in rising order. -/
def readCbuf (p : Port) (m : Memory) : Nat → Nat → Except Fault (List Byte)
  | _, 0 => .ok []
  | i, count + 1 =>
    match Memory.read m i with
    | none => .error (.cbufUnwritten p i)
    | some b =>
      match readCbuf p m (i + 1) count with
      | .error f => .error f
      | .ok bs => .ok (b :: bs)

/-- Emit: the bytes at 0 to `clen - 1`. -/
def Parser.emit (p : Port) (q : Parser) : Except Fault (List Byte) :=
  readCbuf p q.cbuf 0 q.clen.toNat

/-- `cmd(p)`: the meaningful content of the command buffer (10_state.md rule R30). -/
def Parser.cmd (q : Parser) : List Byte :=
  (List.range q.clen.toNat).filterMap (Memory.read q.cbuf)

/-! ## The transitions, on the byte after inversion -/

/-- Clear and append STX, go to or stay in `WaitETX` (rules R137, R139). -/
def feedStart (p : Port) (q : Parser) : Except Fault (Parser × Option (List Byte)) :=
  match q.clear.append p Config.stx with
  | .error f => .error f
  | .ok q' => .ok ({ q' with pstate := .waitETX }, none)

/-- Append ETX, emit, clear, go to `WaitSTX` (rule R140). -/
def feedEnd (p : Port) (q : Parser) : Except Fault (Parser × Option (List Byte)) :=
  match q.append p Config.etx with
  | .error f => .error f
  | .ok q' =>
    match q'.emit p with
    | .error f => .error f
    | .ok bs => .ok ({ q'.clear with pstate := .waitSTX }, some bs)

/-- Append a byte; at 512 bytes emit and clear, staying in `WaitETX` (rule R141). -/
def feedOther (p : Port) (b : Byte) (q : Parser) : Except Fault (Parser × Option (List Byte)) :=
  match q.append p b with
  | .error f => .error f
  | .ok q' =>
    if q'.clen.toNat = Config.cmdCap then
      match q'.emit p with
      | .error f => .error f
      | .ok bs => .ok (q'.clear, some bs)
    else .ok (q', none)

/-- The transition function on `(state, byte after inversion)`: P2 to P6 (rule R135). -/
def feedParser (p : Port) (b : Byte) (q : Parser) : Except Fault (Parser × Option (List Byte)) :=
  match q.pstate with
  | .waitSTX => if b = Config.stx then feedStart p q else .ok (q, none)
  | .waitETX =>
    if b = Config.stx then feedStart p q
    else if b = Config.etx then feedEnd p q
    else feedOther p b q

/-- The condition a feed meets (60_exceptions.md rules R185, R186). -/
def feedCondition (b : Byte) (q : Parser) : Option Condition :=
  match q.pstate with
  | .waitSTX => if b = Config.stx then none else some .byteDropped
  | .waitETX =>
    if b = Config.stx then some .frameAbort
    else if b = Config.etx then none
    else if q.clen.toNat + 1 = Config.cmdCap then some .frameBufferOverflow
    else none

/-- The response that hands over what was emitted. -/
def frameResponse : Option (List Byte) → Response
  | none => .noFrame
  | some bs => .frame bs

/-- FP.FEED `p` of the byte `b` after inversion, on the block. -/
def feedBlock (p : Port) (b : Byte) (k : Block) : Except Fault (Block × Option (List Byte)) :=
  match feedParser p b (k.parser p) with
  | .error f => .error f
  | .ok (q, e) => .ok (k.setParser p q, e)

/-- The byte FP.FEED feeds: P1 (rule R136). -/
def State.fedByte (s : State) (raw : Byte) : Byte := feedByte s.activeCfg.bitInvert raw

/-- FP.FEED `p`, `raw` by agent `a`; refused unless `a` is `MAIN` (rules R135, R195). -/
def fpFeedAs (a : Agent) (p : Port) (raw : Byte) (s : State) : Host.Outcome State Fault Refusal :=
  if s.mayIssue a (.fpFeed p raw) then
    match feedBlock p (s.fedByte raw) s.block with
    | .error f => .fault f
    | .ok (k, e) =>
      .next ((s.withBlock k).answer a (some (.fpFeed p raw)) (frameResponse e)
        (feedCondition (s.fedByte raw) (s.block.parser p)))
  else .next (s.refuse a (.fpFeed p raw))

/-- FP.FEED, issued by MAIN (rule R135). -/
def execFpFeed (p : Port) (raw : Byte) (s : State) : Host.Outcome State Fault Refusal :=
  fpFeedAs .main p raw s

end Sys2Proof.Machine
end

