-- ==== Sys2Proof/Machine/RingBuffer.lean ====
section
/-! DEFINITION. RB.WRITE, RB.READ, RB.COUNT, RB.ISFULL (40_ringbuffer.md). Each is first a function of
the block, the pseudocode with nothing interleaved; then the abstract operation by an explicit agent,
which checks the role; then the meaning of the operation word, which `MAIN` issues. -/

namespace Sys2Proof.Machine

/-! ## The pseudocode on the block -/

/-- Micro-steps W1 to W5 (rule R101): the new block and the response. -/
def rbWrite (r : RingId) (b : Byte) (k : Block) : Block × Bool :=
  if indexFull (k.tail r) (k.head r) then (k, false)
  else ((k.writeSlot r (k.tail r) b).setTail r (k.tail r + 1#8), true)

/-- Micro-step R4 (rule R103): `count` slots from distance `i` after index `h` on, in rising order. -/
def readSlots (k : Block) (r : RingId) (h : Index) : Nat → Nat → Except Fault (List Byte)
  | _, 0 => .ok []
  | i, count + 1 =>
    match k.readSlot r (h + BitVec.ofNat 8 i) with
    | none => .error (.slotUnwritten r (slotOf (h + BitVec.ofNat 8 i)))
    | some b =>
      match readSlots k r h (i + 1) count with
      | .error f => .error f
      | .ok bs => .ok (b :: bs)

/-- Micro-step R3: how many bytes a read takes. -/
def readCount (m : Nat) (t h : Index) : Nat := min m (indexDiff t h)

/-- Micro-steps R1 to R5 (rule R103): the new block and the bytes returned. -/
def rbRead (r : RingId) (m : Nat) (k : Block) : Except Fault (Block × List Byte) :=
  let n := readCount m (k.tail r) (k.head r)
  match readSlots k r (k.head r) 0 n with
  | .error f => .error f
  | .ok bs => .ok (k.setHead r (k.head r + BitVec.ofNat 8 n), bs)

/-- Micro-steps C1, C2 (rule R105). -/
def rbCount (r : RingId) (k : Block) : Nat := indexDiff (k.tail r) (k.head r)

/-- Micro-steps F1, F2 (rule R106). -/
def rbIsfull (r : RingId) (k : Block) : Bool := indexFull (k.tail r) (k.head r)

/-- The condition an RB.WRITE meets: `WriteRejected` when its response is false (rule R181). -/
def writeCondition (accepted : Bool) : Option Condition :=
  if accepted then none else some .writeRejected

/-! ## The abstract operations, by an explicit agent -/

/-- RB.WRITE by agent `a`; refused unless `a` is the producer of `r` (rules R101, R110). -/
def rbWriteAs (a : Agent) (r : RingId) (b : Byte) (s : State) : Host.Outcome State Fault Refusal :=
  if s.mayIssue a (.rbWrite r b) then
    let (k, ok) := rbWrite r b s.block
    .next ((s.withBlock k).answer a (some (.rbWrite r b)) (.ok ok) (writeCondition ok))
  else .next (s.refuse a (.rbWrite r b))

/-- RB.READ by agent `a`; refused unless `a` is the consumer of `r` (rules R103, R110). -/
def rbReadAs (a : Agent) (r : RingId) (m : Nat) (s : State) : Host.Outcome State Fault Refusal :=
  if s.mayIssue a (.rbRead r m) then
    match rbRead r m s.block with
    | .error f => .fault f
    | .ok (k, bs) =>
      .next ((s.withBlock k).answer a (some (.rbRead r m)) (.read bs.length bs) none)
  else .next (s.refuse a (.rbRead r m))

/-- RB.COUNT by agent `a`; refused unless `a` holds a role on `r` (rules R105, R110). -/
def rbCountAs (a : Agent) (r : RingId) (s : State) : Host.Outcome State Fault Refusal :=
  if s.mayIssue a (.rbCount r) then
    .next (s.answer a (some (.rbCount r)) (.count (rbCount r s.block)) none)
  else .next (s.refuse a (.rbCount r))

/-- RB.ISFULL by agent `a`; refused unless `a` holds a role on `r` (rules R106, R110). -/
def rbIsfullAs (a : Agent) (r : RingId) (s : State) : Host.Outcome State Fault Refusal :=
  if s.mayIssue a (.rbIsfull r) then
    .next (s.answer a (some (.rbIsfull r)) (.isFull (rbIsfull r s.block)) none)
  else .next (s.refuse a (.rbIsfull r))

/-! ## The meanings of the operation words, issued by MAIN (rule R79) -/

/-- RB.WRITE. -/
def execRbWrite (r : RingId) (b : Byte) (s : State) : Host.Outcome State Fault Refusal :=
  rbWriteAs .main r b s

/-- RB.READ. -/
def execRbRead (r : RingId) (m : Nat) (s : State) : Host.Outcome State Fault Refusal :=
  rbReadAs .main r m s

/-- RB.COUNT. -/
def execRbCount (r : RingId) (s : State) : Host.Outcome State Fault Refusal :=
  rbCountAs .main r s

/-- RB.ISFULL. -/
def execRbIsfull (r : RingId) (s : State) : Host.Outcome State Fault Refusal :=
  rbIsfullAs .main r s

end Sys2Proof.Machine
end

