-- ==== Sys2Proof/Machine/InterruptGate.lean ====
section
/-! DEFINITION. IRQ.RX, IRQ.TX, IRQ.TXC (41_interrupt_gate.md). A handler is one atomic step; taking an
event saves and changes no state but its operation's own (60_exceptions.md rules R192, R193). The ring
operation inside a handler is answered to the handler; the handler answers nothing. -/

namespace Sys2Proof.Machine

/-- IRQ.RX `p`, `b` by agent `a` (rule R121): RB.WRITE of the raw byte to `rx[p]`, its response
discarded. -/
def irqRxAs (a : Agent) (p : Port) (b : Byte) (s : State) : Host.Outcome State Fault Refusal :=
  if s.mayIssue a (.irqRx p b) then rbWriteAs a (rxRing p) b s
  else .next (s.refuse a (.irqRx p b))

/-- Micro-steps T2 to T4 (rule R122): when a byte was read, enable the driver, then send the byte. -/
def sendByte (p : Port) (bs : List Byte) (k : Block) : Block :=
  match bs with
  | [] => k
  | b :: _ => (k.setDe p true).pushWire p b

/-- IRQ.TX `p` by agent `a` (rule R122): RB.READ of at most one byte of `tx[p]`, then T2 to T4. -/
def irqTxAs (a : Agent) (p : Port) (s : State) : Host.Outcome State Fault Refusal :=
  if s.mayIssue a (.irqTx p) then
    match rbRead (txRing p) 1 s.block with
    | .error f => .fault f
    | .ok (k, bs) =>
      .next ((s.withBlock (sendByte p bs k)).answer a (some (.rbRead (txRing p) 1))
        (.read bs.length bs) none)
  else .next (s.refuse a (.irqTx p))

/-- Micro-step Z2 (rule R124): release the driver when the count is 0. -/
def releaseDriver (p : Port) (c : Nat) (k : Block) : Block :=
  if c = 0 then k.setDe p false else k

/-- IRQ.TXC `p` by agent `a` (rule R124): RB.COUNT of `tx[p]`, then Z2. -/
def irqTxcAs (a : Agent) (p : Port) (s : State) : Host.Outcome State Fault Refusal :=
  if s.mayIssue a (.irqTxc p) then
    let c := rbCount (txRing p) s.block
    .next ((s.withBlock (releaseDriver p c s.block)).answer a (some (.rbCount (txRing p)))
      (.count c) none)
  else .next (s.refuse a (.irqTxc p))

/-! ## The meanings of the operation words, issued by the port's handler (rule R79) -/

/-- IRQ.RX. -/
def execIrqRx (p : Port) (b : Byte) (s : State) : Host.Outcome State Fault Refusal :=
  irqRxAs (.irq p) p b s

/-- IRQ.TX. -/
def execIrqTx (p : Port) (s : State) : Host.Outcome State Fault Refusal :=
  irqTxAs (.irq p) p s

/-- IRQ.TXC. -/
def execIrqTxc (p : Port) (s : State) : Host.Outcome State Fault Refusal :=
  irqTxcAs (.irq p) p s

end Sys2Proof.Machine
end

