-- ==== Sys2Proof/Machine/Dispatch.lean ====
section
/-! DEFINITION. One arm per constructor of Instr: its meaning. -/

namespace Sys2Proof.Machine

def exec (i : Instr) (s : State) : Host.Outcome State Fault Refusal :=
  match i with
  | .rbWrite r b => Sys2Proof.Machine.execRbWrite r b s
  | .rbRead r m => Sys2Proof.Machine.execRbRead r m s
  | .rbCount r => Sys2Proof.Machine.execRbCount r s
  | .rbIsfull r => Sys2Proof.Machine.execRbIsfull r s
  | .irqRx p b => Sys2Proof.Machine.execIrqRx p b s
  | .irqTx p => Sys2Proof.Machine.execIrqTx p s
  | .irqTxc p => Sys2Proof.Machine.execIrqTxc p s
  | .fpFeed p raw => Sys2Proof.Machine.execFpFeed p raw s

end Sys2Proof.Machine
end

