-- ==== Sys2Proof/Machine/MicroSteps.lean ====
section
/-! DEFINITION. The micro-steps of operations, one indivisible access or local computation each
(40_ringbuffer.md rules R101, R103, R105, R106; 20_memory.md rules R55 to R58). Between two of them
any number of whole IRQ operations may take place. The response is returned with the last access, and
FP.FEED, whose state only MAIN touches, is one micro-step (42_frame_parser.md rule R135). -/

namespace Sys2Proof.Machine

/-- What a micro-step leads to: the next micro-step, the end of the operation with its response and
condition, or a fault. -/
inductive MicroResult where
  | more (m : Micro) (k : Block)
  | done (resp : Response) (c : Option Condition) (k : Block)
  | fault (f : Fault)
  deriving DecidableEq, Repr

/-- The operation a micro-step belongs to. -/
def microInstr : Micro → Instr
  | .w1 r b => .rbWrite r b
  | .w2 r b _ => .rbWrite r b
  | .w3 r b _ _ => .rbWrite r b
  | .w4 r b _ _ => .rbWrite r b
  | .w5 r b _ _ => .rbWrite r b
  | .r1 r m => .rbRead r m
  | .r2 r m _ => .rbRead r m
  | .r3 r m _ _ => .rbRead r m
  | .r4 r m _ _ _ => .rbRead r m
  | .r5 r m _ _ _ => .rbRead r m
  | .c1 r => .rbCount r
  | .c2 r _ => .rbCount r
  | .f1 r => .rbIsfull r
  | .f2 r _ => .rbIsfull r
  | .feed p raw => .fpFeed p raw

/-- The first micro-step of an operation taken micro-step by micro-step; an IRQ operation is atomic. -/
def firstMicro : Instr → Option Micro
  | .rbWrite r b => some (.w1 r b)
  | .rbRead r m => some (.r1 r m)
  | .rbCount r => some (.c1 r)
  | .rbIsfull r => some (.f1 r)
  | .irqRx _ _ => none
  | .irqTx _ => none
  | .irqTxc _ => none
  | .fpFeed p raw => some (.feed p raw)

/-- The micro-step of the read loop that comes next: R4 while a byte is left to read, then R5. -/
def afterRead (r : RingId) (m : Nat) (h : Index) (n : Nat) (bytes : List Byte) : Micro :=
  if bytes.length < n then .r4 r m h n bytes else .r5 r m h n bytes

/-- Micro-step R4 at index `bytes.length`. -/
def readOne (r : RingId) (m : Nat) (h : Index) (n : Nat) (bytes : List Byte) (k : Block) :
    MicroResult :=
  match k.readSlot r (h + BitVec.ofNat 8 bytes.length) with
  | none => .fault (.slotUnwritten r (slotOf (h + BitVec.ofNat 8 bytes.length)))
  | some b => .more (afterRead r m h n (bytes ++ [b])) k

/-- FP.FEED as one micro-step, on the byte after inversion. -/
def feedMicro (p : Port) (b : Byte) (k : Block) : MicroResult :=
  match feedBlock p b k with
  | .error f => .fault f
  | .ok (k', e) => .done (frameResponse e) (feedCondition b (k.parser p)) k'

/-- One micro-step of an operation in progress, with the polarity `invert` of the active configuration. -/
def microStep (invert : Bool) (m : Micro) (k : Block) : MicroResult :=
  match m with
  | .w1 r b => .more (.w2 r b (k.head r)) k
  | .w2 r b h => .more (.w3 r b h (k.tail r)) k
  | .w3 r b h t =>
    if indexFull t h then .done (.ok false) (writeCondition false) k else .more (.w4 r b h t) k
  | .w4 r b h t => .more (.w5 r b h t) (k.writeSlot r t b)
  | .w5 r _ _ t => .done (.ok true) (writeCondition true) (k.setTail r (t + 1#8))
  | .r1 r m => .more (.r2 r m (k.tail r)) k
  | .r2 r m t => .more (.r3 r m t (k.head r)) k
  | .r3 r m t h => .more (afterRead r m h (readCount m t h) []) k
  | .r4 r m h n bytes => readOne r m h n bytes k
  | .r5 r _ h n bytes => .done (.read n bytes) none (k.setHead r (h + BitVec.ofNat 8 n))
  | .c1 r => .more (.c2 r (k.tail r)) k
  | .c2 r t => .done (.count (indexDiff t (k.head r))) none k
  | .f1 r => .more (.f2 r (k.tail r)) k
  | .f2 r t => .done (.isFull (indexFull t (k.head r))) none k
  | .feed p raw => feedMicro p (feedByte invert raw) k

end Sys2Proof.Machine
end

