-- ==== Sys2Proof/Machine/MainLoop.lean ====
section
/-! DEFINITION. The agent MAIN as the surrounding software gives it: TX.BLOCK, ERR.SEND, RELAY.POLL and
MAIN.LOOP (43_environment_software.md). MAIN's position says which operation it issues next; the
response of that operation moves the position on. Positions at which no operation is issued are left
by a local step. -/

namespace Sys2Proof.Machine

/-! ## ERR.SEND (rule R160) -/

/-- The bytes of `RingBuffer Full Error` (30_encoding.md rule R74). -/
def fullErrorText : List Byte :=
  [0x52#8, 0x69#8, 0x6E#8, 0x67#8, 0x42#8, 0x75#8, 0x66#8, 0x66#8, 0x65#8, 0x72#8, 0x20#8,
   0x46#8, 0x75#8, 0x6C#8, 0x6C#8, 0x20#8, 0x45#8, 0x72#8, 0x72#8, 0x6F#8, 0x72#8]

/-- The bytes of `Read Size Error` (30_encoding.md rule R74). -/
def readSizeErrorText : List Byte :=
  [0x52#8, 0x65#8, 0x61#8, 0x64#8, 0x20#8, 0x53#8, 0x69#8, 0x7A#8, 0x65#8, 0x20#8, 0x45#8,
   0x72#8, 0x72#8, 0x6F#8, 0x72#8]

/-- ETX repeated `ERR_ETX_COUNT` times. -/
def etxBytes : Config.EtxCount → List Byte
  | .one => [Config.etx]
  | .two => [Config.etx, Config.etx]

/-- E1: the error frame of a message. -/
def errorFrame (n : Config.EtxCount) (text : List Byte) : List Byte :=
  Config.stx :: text ++ etxBytes n

/-- E2: TX.BLOCK of the error frame to `PC`, after which the poll returns failure. -/
def errSend (q : Params) (text : List Byte) (c : Condition) : PollPoint :=
  .tx ⟨.pc, errorFrame q.errEtxCount text, 0⟩ (.endPoll (.failure c))

/-! ## RELAY.POLL and MAIN.LOOP (rules R164, R166) -/

/-- The port a poll drains. -/
def sourcePort : Source → Port
  | .master => .master
  | .slave => .slave

/-- Strict round-robin: M2, M3, M2, … -/
def nextSource : Source → Source
  | .master => .slave
  | .slave => .master

/-- The ring a poll drains. -/
def MainLoop.srcRing (l : MainLoop) : RingId := rxRing (sourcePort l.src)

/-- The poll returns and the next one begins at its L1; the result is ignored. -/
def MainLoop.endPoll (l : MainLoop) (res : PollResult) : MainLoop :=
  { l with src := nextSource l.src, point := .l1, lastPoll := some (l.src, res) }

/-- The operation MAIN issues at its position, if its position is at one. -/
def MainLoop.nextOp (l : MainLoop) : Option Instr :=
  match l.point with
  | .l1 => some (.rbIsfull l.srcRing)
  | .l2 => some (.rbCount l.srcRing)
  | .l4 => some (.rbRead l.srcRing l.snapshot)
  | .l7 i => l.scratch[i]?.map fun b => .fpFeed (sourcePort l.src) b
  | .tx blk _ => blk.bytes[blk.i]?.map fun b => .rbWrite (txRing blk.dest) b

/-- The local step at a position that issues no operation: L7 with every byte fed goes to L8, and
TX.BLOCK with every byte accepted returns. -/
def MainLoop.control (l : MainLoop) : MainLoop :=
  match l.point with
  | .l7 _ => l.endPoll .success
  | .tx _ (.endPoll res) => l.endPoll res
  | .tx _ (.feed i) => { l with point := .l7 i }
  | .l1 => l
  | .l2 => l
  | .l4 => l

/-- L5 to L7: what MAIN does with the bytes read, `n` of them. -/
def MainLoop.afterRead (l : MainLoop) (q : Params) (n : Nat) (bytes : List Byte) : MainLoop :=
  if n = l.snapshot then
    match q.relayMode with
    | .passthrough =>
      { l with scratch := bytes, point := .tx ⟨.pc, bytes, 0⟩ (.endPoll .success) }
    | .framed => { l with scratch := bytes, point := .l7 0 }
  else
    { l with scratch := bytes, point := errSend q readSizeErrorText .readSizeMismatch }

/-- How a response moves MAIN's position (rules R158, R164). The last line is for a response no
operation issued at the position can have; none ever arrives. -/
def MainLoop.advance (l : MainLoop) (q : Params) (resp : Response) : MainLoop :=
  match l.point, resp with
  | .l1, .isFull true => { l with point := errSend q fullErrorText .ringBufferOverflow }
  | .l1, .isFull false => { l with point := .l2 }
  | .l2, .count c =>
    if c = 0 then { l with snapshot := c }.endPoll .success
    else { l with snapshot := c, point := .l4 }
  | .l4, .read n bytes => l.afterRead q n bytes
  | .l7 i, .noFrame => { l with point := .l7 (i + 1) }
  | .l7 i, .frame f => { l with point := .tx ⟨.pc, f, 0⟩ (.feed (i + 1)) }
  | .tx blk k, .ok true => { l with point := .tx { blk with i := blk.i + 1 } k }
  | .tx _ _, .ok false => l
  | _, _ => l

end Sys2Proof.Machine
end

