-- ==== Sys2Proof/Machine/Schedule.lean ====
section
/-! DEFINITION. Whose turn it is and what the turn does: presenting a word on an interface
(30_encoding.md rules R79, R85), taking an interrupt event (60_exceptions.md rules R192, R193), a
micro-step of MAIN or of a harness agent (00_scope.md rule R14, 20_memory.md rules R56, R57), and how a
word is placed for the next step. -/

namespace Sys2Proof.Machine

/-! ## Presenting a word -/

/-- What a word presented on an interface asks for: its operation, if it decodes to one that is legal
on that interface (rules R79, R85). -/
def accepted (f : Iface) (w : Word) : Option Instr :=
  match decode w with
  | .error _ => none
  | .ok i => if homeIface i = f then some i else none

/-- The agent of an interface presents a word and its operation runs whole. -/
def serve (f : Iface) (w : Word) (s : State) : Host.Outcome State Fault Refusal :=
  match accepted f w with
  | none => .next (s.answerIllegal f)
  | some i => exec i s

/-- The abstract operation with an explicit agent (rule R79), run whole. -/
def performAs (a : Agent) (i : Instr) (s : State) : Host.Outcome State Fault Refusal :=
  match i with
  | .rbWrite r b => rbWriteAs a r b s
  | .rbRead r m => rbReadAs a r m s
  | .rbCount r => rbCountAs a r s
  | .rbIsfull r => rbIsfullAs a r s
  | .irqRx p b => irqRxAs a p b s
  | .irqTx p => irqTxAs a p s
  | .irqTxc p => irqTxcAs a p s
  | .fpFeed p raw => fpFeedAs a p raw s

/-! ## MAIN's turns -/

/-- The response goes to whoever issued MAIN's operation: the loop takes it and moves on. -/
def State.deliver (s : State) (o : Owner) (resp : Response) : State :=
  match o with
  | .loop => { s with loop := s.loop.advance s.params resp }
  | .harness => s

/-- MAIN issues an operation and will take its micro-steps; without the role it is refused. -/
def issueOp (o : Owner) (i : Instr) (s : State) : State :=
  if s.mayIssue .main i then
    match firstMicro i with
    | some m => { s with mainOp := some ⟨m, o⟩ }
    | none => (s.refuse .main i).deliver o .refused
  else (s.refuse .main i).deliver o .refused

/-- A word is presented on the main-loop interface, to be taken micro-step by micro-step. -/
def issueWord (w : Word) (s : State) : State :=
  match accepted .mainLoop w with
  | none => s.answerIllegal .mainLoop
  | some i => issueOp .harness i s

/-- MAIN's operation ends: it is answered and nothing is in progress. -/
def finishOp (op : InFlight) (resp : Response) (c : Option Condition) (k : Block) (s : State) :
    State :=
  (({ s with block := k, mainOp := none } : State).answer .main (some (microInstr op.micro)) resp c).deliver
    op.owner resp

/-- How many bytes more than the scratch buffer holds the loop would have to take from a response, if
any: the bytes of RB.READ go to that buffer (43_environment_software.md rules R155, R164 L4). -/
def scratchOverrun (o : Owner) (resp : Response) : Option Nat :=
  match o, resp with
  | .loop, .read _ bytes =>
    if bytes.length ≤ Config.scratchCap then none else some (bytes.length - Config.scratchCap)
  | _, _ => none

/-- The last micro-step: the operation ends and is answered, its bytes going to the scratch buffer when
the loop issued it; there is no byte past the buffer's end. -/
def endOp (op : InFlight) (resp : Response) (c : Option Condition) (k : Block) (s : State) :
    Host.Outcome State Fault Refusal :=
  match scratchOverrun op.owner resp with
  | none => .next (finishOp op resp c k s)
  | some n => .fault (.scratchOutside n)

/-- The next micro-step of the operation in progress. -/
def continueOp (op : InFlight) (s : State) : Host.Outcome State Fault Refusal :=
  match microStep s.activeCfg.bitInvert op.micro s.block with
  | .more m k => .next { s with block := k, mainOp := some { op with micro := m } }
  | .done resp c k => endOp op resp c k s
  | .fault f => .fault f

/-- MAIN.LOOP with no operation in progress: issue the operation of its position, or take its local
step. -/
def loopTurn (s : State) : State :=
  match s.loop.nextOp with
  | some i => issueOp .loop i s
  | none => { s with loop := s.loop.control }

/-- MAIN's turn. -/
def mainTurn (s : State) : Host.Outcome State Fault Refusal :=
  match s.mainOp with
  | some op => continueOp op s
  | none => .next (loopTurn s)

/-! ## The turns of a harness's agents (00_scope.md rule R14) -/

/-- A harness agent begins an operation and will take its micro-steps; without the role it is
refused. -/
def beginOp (x : Role) (i : Instr) (s : State) : State :=
  if s.mayIssue (.harness x) i then
    match firstMicro i with
    | some m => s.setHarnessOp x (some m)
    | none => s.refuse (.harness x) i
  else s.refuse (.harness x) i

/-- The next micro-step of a harness agent's operation. -/
def continueHarness (x : Role) (m : Micro) (s : State) : Host.Outcome State Fault Refusal :=
  match microStep s.activeCfg.bitInvert m s.block with
  | .more m' k => .next ((s.withBlock k).setHarnessOp x (some m'))
  | .done resp c k =>
    .next (((s.withBlock k).setHarnessOp x none).answer (.harness x) (some (microInstr m)) resp c)
  | .fault f => .fault f

/-- A harness agent's turn; with no operation in progress there is nothing to do. -/
def harnessTurn (x : Role) (s : State) : Host.Outcome State Fault Refusal :=
  match s.harnessOps.get x with
  | none => .next s
  | some m => continueHarness x m s

/-! ## The schedule -/

/-- The agent that must have no operation in progress for the turn to be taken: an agent has at most
one at a time (20_memory.md rule R56). -/
def Turn.needsIdle : Turn → Option Agent
  | .request f _ => some (agentOf f)
  | .issue _ => some .main
  | .main => none
  | .abstract a _ => some a
  | .begin x _ => some (.harness x)
  | .micro _ => none

/-- An agent takes its next micro-step; MAIN with none in progress goes on with its loop. -/
def agentTurn (a : Agent) (s : State) : Host.Outcome State Fault Refusal :=
  match a with
  | .main => mainTurn s
  | .irq _ => .next s
  | .harness x => harnessTurn x s

/-- The agent a turn waits for: the one it needs idle, while that one has an operation in progress. -/
def State.waitsFor (s : State) (t : Turn) : Option Agent :=
  t.needsIdle.filter fun a => (s.opOf a).isSome

/-- One turn, already taken off the agenda. -/
def takeTurn (t : Turn) (s : State) : Host.Outcome State Fault Refusal :=
  match t with
  | .request f w => serve f w s
  | .issue w => .next (issueWord w s)
  | .main => mainTurn s
  | .abstract a i => performAs a i s
  | .begin x i => .next (beginOp x i s)
  | .micro x => harnessTurn x s

/-- The next turn of the schedule. A turn that needs an agent idle waits while that agent finishes the
operation it has in progress; when no turn is left MAIN moves. -/
def nextTurn (s : State) : Host.Outcome State Fault Refusal :=
  match s.agenda with
  | [] => mainTurn s
  | t :: rest =>
    match s.waitsFor t with
    | some a => agentTurn a s
    | none => takeTurn t { s with agenda := rest }

/-- One step of the machine: boot first (70_reset_and_hazards.md rule R207), then the schedule. -/
def machineStep (s : State) : Host.Outcome State Fault Refusal :=
  match s.block.cfg with
  | none => .next (bootStep s)
  | some _ => nextTurn s

/-! ## Placing a word for the next step -/

/-- The interface a word is placed on: its operation's own, the main loop's for an illegal word. -/
def wordIface (w : Word) : Iface :=
  match decode w with
  | .error _ => .mainLoop
  | .ok i => homeIface i

/-- The machine past boot. -/
def booted (s : State) : State :=
  match s.block.cfg with
  | none => bootStep s
  | some _ => s

/-- No operation of MAIN in progress, where an interface needs that. -/
def State.idleFor (s : State) (f : Iface) : State :=
  match f with
  | .mainLoop => { s with mainOp := none }
  | .event _ => s

/-- The state whose next step presents `w` on its own interface. -/
def placeWord (s : State) (w : Word) : State :=
  { (booted s).idleFor (wordIface w) with
    agenda := .request (wordIface w) w :: s.agenda }

end Sys2Proof.Machine
end

