-- ==== Sys2Proof/Machine/Step.lean ====
section
/-! DEFINITION. One step of the machine, and the placing of the next operation word. The block fetches
no instructions (10_state.md rule R33): the next turn of the agenda plays that part. -/

namespace Sys2Proof.Machine

/-- One step: the boot step, or the next turn of the schedule. -/
def step (s : State) : Host.Outcome State Fault Refusal := machineStep s

/-- `s` with the opcode-table word `w` presented next: booted, no operation of MAIN in the way, and
the word first on the agenda (log entry 12). -/
def State.withFetchWord (s : State) (nbits w : Nat) : State := placeWord s (tableWord nbits w)

end Sys2Proof.Machine
end

