-- ==== Sys2Proof/Safety.lean ====
section
/-! DEFINITION. What claims speak of: the invariants of 10_state.md rule R40, where an agent may stand
inside an operation it has begun, the histories read off the answers, schedules in which only MAIN.LOOP and
interrupt events act, and a MAIN that is held. -/

namespace Sys2Proof.Machine

/-! ## The invariants of rule R40 -/

/-- Rule R40 (a), (e) for one ring, and the canonical form of its slot array. -/
def Ring.Inv (g : Ring) : Prop :=
  g.cnt ≤ Config.capacity ∧ (∀ i < g.cnt, (g.item i).isSome) ∧ Memory.wf Config.capacity g.slots

/-- Rule R40 (b), (c) for one parser, every byte below `clen` written, and the canonical form of its
command buffer. -/
def Parser.Inv (q : Parser) : Prop :=
  (q.pstate = .waitSTX → q.clen = 0#10) ∧ q.clen.toNat < Config.cmdCap ∧
  (∀ i < q.clen.toNat, (Memory.read q.cbuf i).isSome) ∧ Memory.wf Config.cmdCap q.cbuf

/-- Rule R40 (g): `cfg` is an entry of the table; before CFG.SELECT it is not yet selected. -/
def cfgLegal (c : Option Config.Entry) : Prop := ∀ e, c = some e → e ∈ cfgTable

/-- Rule R40 for the block. -/
def Block.Inv (k : Block) : Prop :=
  (∀ r, (k.ring r).Inv) ∧ (∀ p, (k.parser p).Inv) ∧ cfgLegal k.cfg

/-! ## An agent inside an operation -/

/-- What is known of the private locals of an operation that agent `a` has in progress: its own index
of the ring cannot move, the other role's index can only have advanced since it was read. -/
def MicroFacts (h : Option RingId) (a : Agent) (k : Block) : Micro → Prop
  | .w1 _ _ => True
  | .w2 r _ i => indexDiff (k.tail r) i ≤ Config.capacity ∧ k.cnt r ≤ indexDiff (k.tail r) i
  | .w3 r _ i t => t = k.tail r ∧ indexDiff t i ≤ Config.capacity ∧ k.cnt r ≤ indexDiff t i
  | .w4 r _ i t => t = k.tail r ∧ indexDiff t i < Config.capacity ∧ k.cnt r ≤ indexDiff t i
  | .w5 r b i t => t = k.tail r ∧ indexDiff t i < Config.capacity ∧ k.cnt r ≤ indexDiff t i ∧
      k.readSlot r t = some b
  | .r1 _ _ => True
  | .r2 r _ t => indexDiff t (k.head r) ≤ k.cnt r
  | .r3 r _ t i => i = k.head r ∧ indexDiff t i ≤ k.cnt r
  | .r4 r _ i n bytes => i = k.head r ∧ n ≤ k.cnt r ∧ bytes.length < n ∧
      bytes = (k.content r).take bytes.length
  | .r5 r _ i n bytes => i = k.head r ∧ n ≤ k.cnt r ∧ bytes.length = n ∧
      bytes = (k.content r).take n
  | .c1 _ => True
  | .c2 r t => (a = consumer h r → indexDiff t (k.head r) ≤ k.cnt r) ∧
      (a = producer h r → t = k.tail r)
  | .f1 _ => True
  | .f2 r t => (a = consumer h r → indexDiff t (k.head r) ≤ k.cnt r) ∧
      (a = producer h r → t = k.tail r)
  | .feed _ _ => True

/-- What holds of an operation that agent `a` has in progress: it holds the role the operation needs,
and the facts about its locals. -/
def MicroInv (h : Option RingId) (a : Agent) (k : Block) (m : Micro) : Prop :=
  mayIssue h a (microInstr m) = true ∧ MicroFacts h a k m

/-- What holds of every operation in progress. -/
def opsInv (s : State) : Prop :=
  ∀ a m, s.opOf a = some m → MicroInv s.params.harness a s.block m

/-- The snapshot of a poll is a count, and the scratch buffer holds no more bytes than it has
(43_environment_software.md rule R155, 00_scope.md rule R10). -/
def MainLoop.Inv (l : MainLoop) : Prop :=
  l.snapshot ≤ Config.capacity ∧ l.scratch.length ≤ Config.scratchCap

/-- The invariant of the whole machine. -/
def State.Inv (s : State) : Prop := s.block.Inv ∧ opsInv s ∧ s.loop.Inv

/-! ## Runs -/

/-- `n` steps, stopping at the first fault or refusal. -/
def runSteps : Nat → State → Host.Outcome State Fault Refusal
  | 0, s => .next s
  | n + 1, s =>
    match step s with
    | .next t => runSteps n t
    | .fault f => .fault f
    | .refused r => .refused r

/-- Some number of steps leads from `s` to `t`. -/
def Reaches (s t : State) : Prop := ∃ n, runSteps n s = .next t

/-- The operations of a list, each run whole, one after the other. -/
def execAll : List Instr → State → Host.Outcome State Fault Refusal
  | [], s => .next s
  | i :: is, s =>
    match exec i s with
    | .next t => execAll is t
    | .fault f => .fault f
    | .refused r => .refused r

/-- What the agents that use the block hold, the arguments and the schedule are the same in both
states. -/
def sameUser (s t : State) : Prop :=
  t.mainOp = s.mainOp ∧ t.harnessOps = s.harnessOps ∧ t.loop = s.loop ∧ t.params = s.params ∧
    t.agenda = s.agenda

/-- The agent whose turn a turn is. -/
def Turn.agent : Turn → Agent
  | .request f _ => agentOf f
  | .issue _ => .main
  | .main => .main
  | .abstract a _ => a
  | .begin x _ => .harness x
  | .micro x => .harness x

/-- The agent that moves in the next step; none in the boot step. -/
def State.mover (s : State) : Option Agent :=
  match s.block.cfg, s.agenda with
  | none, _ => none
  | some _, [] => some .main
  | some _, t :: _ => some ((s.waitsFor t).getD t.agent)

/-! ## Histories (40_ringbuffer.md rule R111, 41_interrupt_gate.md rule R123) -/

/-- The byte an answer reports as accepted by an RB.WRITE on `r`. -/
def acceptedByte (r : RingId) (e : Answer) : List Byte :=
  match e.op, e.resp with
  | some (.rbWrite r' b), .ok true => if r' = r then [b] else []
  | _, _ => []

/-- The bytes an answer reports as returned by an RB.READ on `r`. -/
def retiredBytes (r : RingId) (e : Answer) : List Byte :=
  match e.op, e.resp with
  | some (.rbRead r' _), .read _ bs => if r' = r then bs else []
  | _, _ => []

/-- The bytes of all successful RB.WRITEs on `r`, in the producer's order. -/
def accepts (r : RingId) (log : List Answer) : List Byte := log.flatMap (acceptedByte r)

/-- The bytes of all RB.READ responses on `r`, in the consumer's order. -/
def retires (r : RingId) (log : List Answer) : List Byte := log.flatMap (retiredBytes r)

/-- The frame an answer reports as emitted by the parser of `p`. -/
def emittedFrame (p : Port) (e : Answer) : List (List Byte) :=
  match e.op, e.resp with
  | some (.fpFeed p' _), .frame f => if p' = p then [f] else []
  | _, _ => []

/-- The frames the parser of `p` has emitted, in order. -/
def framesOf (p : Port) (log : List Answer) : List (List Byte) := log.flatMap (emittedFrame p)

/-- First in, first out, nothing lost and nothing doubled: what was accepted is what was returned
followed by what is queued. -/
def FifoInv (s : State) : Prop :=
  ∀ r, accepts r s.answers = retires r s.answers ++ s.block.content r

/-- What was sent on each wire is what was returned from its transmit ring. -/
def WireInv (s : State) : Prop := ∀ p, s.block.wireOf p = retires (txRing p) s.answers

/-! ## Schedules in which MAIN runs only MAIN.LOOP -/

/-- A turn that is an interrupt event's word or MAIN's own move. -/
def Turn.isSystem : Turn → Bool
  | .request (.event _) _ => true
  | .request .mainLoop _ => false
  | .issue _ => false
  | .main => true
  | .abstract _ _ => false
  | .begin _ _ => false
  | .micro _ => false

/-- Only interrupt events and MAIN's own moves are still to come. -/
def State.systemOnly (s : State) : Prop := ∀ t ∈ s.agenda, t.isSystem = true

/-- A turn that presents a word or is MAIN's own move, so that each agent issues only what its
interface takes. -/
def Turn.byWord : Turn → Bool
  | .request _ _ => true
  | .issue _ => true
  | .main => true
  | .abstract _ _ => false
  | .begin _ _ => false
  | .micro _ => false

/-- No abstract operation is still to come, nor a micro-step of one. -/
def State.wordsOnly (s : State) : Prop := ∀ t ∈ s.agenda, t.byWord = true

/-- MAIN's operation in progress, if any, is the one its loop issued at its position. -/
def ownOp (s : State) : Prop :=
  ∀ op, s.mainOp = some op → op.owner = .loop ∧ s.loop.nextOp = some (microInstr op.micro)

/-- MAIN's read in progress has seen, or will return, all the bytes it asked for. -/
def readServed (k : Block) : Micro → Prop
  | .w1 _ _ => True
  | .w2 _ _ _ => True
  | .w3 _ _ _ _ => True
  | .w4 _ _ _ _ => True
  | .w5 _ _ _ _ => True
  | .r1 _ _ => True
  | .r2 r m t => m ≤ indexDiff t (k.head r)
  | .r3 _ m t h => m ≤ indexDiff t h
  | .r4 _ m _ n _ => n = m
  | .r5 _ m _ n _ => n = m
  | .c1 _ => True
  | .c2 _ _ => True
  | .f1 _ => True
  | .f2 _ _ => True
  | .feed _ _ => True

/-- MAIN reports no size mismatch: neither now nor as the result of the last poll (kept so by the model's
choice, log entry 30). -/
def noMismatch (l : MainLoop) : Prop :=
  (∀ blk, l.point ≠ .tx blk (.endPoll (.failure .readSizeMismatch))) ∧
  ∀ src, l.lastPoll ≠ some (src, .failure .readSizeMismatch)

/-- MAIN.LOOP never meets `ReadSizeMismatch` (60_exceptions.md rule R184): the snapshot of L2 is still
queued at L4, and the read of L4 returns all of it. -/
def RelayInv (s : State) : Prop :=
  s.Inv ∧ s.systemOnly ∧ ownOp s ∧
  (s.loop.point = .l4 → s.loop.snapshot ≤ s.block.cnt s.loop.srcRing) ∧
  (∀ op, s.mainOp = some op → readServed s.block op.micro) ∧ noMismatch s.loop

/-- A source ring is full and MAIN is not past L1 of a poll of it (43_environment_software.md rule
R169): its poll is at L1, or is sending the error frame L1 sends. -/
def FullInv (src : Source) (s : State) : Prop :=
  s.systemOnly ∧ ownOp s ∧ s.block.cnt (rxRing (sourcePort src)) = Config.capacity ∧
  (s.loop.src = src → s.loop.point = .l1 ∨
    ∃ blk, s.loop.point = .tx blk (.endPoll (.failure .ringBufferOverflow))) ∧
  (∀ op t, s.mainOp = some op → op.micro = .f2 (rxRing (sourcePort src)) t →
    indexFull t (s.block.head (rxRing (sourcePort src))) = true)

/-- Nothing has ever been queued or sent for an RS-485 port (41_interrupt_gate.md rule R125): its
transmit ring is empty, its driver is off, its wire history empty. -/
def txQuiet (k : Block) (p : Port) : Prop :=
  k.tail (txRing p) = k.head (txRing p) ∧ k.de p = some false ∧ k.wireOf p = []

/-- MAIN transmits to `PC` only. -/
def sendsToPc (l : MainLoop) : Prop := ∀ blk a, l.point = .tx blk a → blk.dest = .pc

/-- Neither RS-485 port is ever driven (41_interrupt_gate.md rule R125). -/
def QuietInv (s : State) : Prop :=
  s.systemOnly ∧ ownOp s ∧ sendsToPc s.loop ∧ txQuiet s.block .master ∧ txQuiet s.block .slave

/-! ## A held MAIN (43_environment_software.md rule R159) -/

/-- MAIN has a byte to write in a TX.BLOCK whose destination ring is full. -/
def Held (s : State) : Prop :=
  ∃ blk a, s.loop.point = .tx blk a ∧ blk.i < blk.bytes.length ∧
    s.block.cnt (txRing blk.dest) = Config.capacity

/-- `Hang` (60_exceptions.md rule R187): MAIN is held and no event is still to come. -/
def Hangs (s : State) : Prop := Held s ∧ s.mainOp = none ∧ s.agenda = []

/-- MAIN is inside the write it is held at, before W4: the indices it has read say full. -/
def heldMicro (k : Block) (r : RingId) (b : Byte) : Micro → Prop
  | .w1 r' b' => r' = r ∧ b' = b
  | .w2 r' b' h => r' = r ∧ b' = b ∧ h = k.head r
  | .w3 r' b' h t => r' = r ∧ b' = b ∧ h = k.head r ∧ t = k.tail r
  | .w4 _ _ _ _ => False
  | .w5 _ _ _ _ => False
  | .r1 _ _ => False
  | .r2 _ _ _ => False
  | .r3 _ _ _ _ => False
  | .r4 _ _ _ _ _ => False
  | .r5 _ _ _ _ _ => False
  | .c1 _ => False
  | .c2 _ _ => False
  | .f1 _ => False
  | .f2 _ _ => False
  | .feed _ _ => False

/-- MAIN waits at B2 with no event to come: idle before its write, or inside it before W4. -/
def HangInv (s : State) : Prop :=
  s.agenda = [] ∧ ∃ blk a b, s.loop.point = .tx blk a ∧ blk.bytes[blk.i]? = some b ∧
    s.block.cnt (txRing blk.dest) = Config.capacity ∧
    (s.mainOp = none ∨
      ∃ m, s.mainOp = some ⟨m, .loop⟩ ∧ heldMicro s.block (txRing blk.dest) b m)

/-! ## Frames (42_frame_parser.md rule R143) -/

/-- Payload bytes: neither STX nor ETX. -/
def plain (xs : List Byte) : Prop := ∀ x ∈ xs, x ≠ Config.stx ∧ x ≠ Config.etx

/-- The four shapes of an emitted frame. -/
def FrameShape (f : List Byte) : Prop :=
  (∃ pl, f = Config.stx :: pl ++ [Config.etx] ∧ plain pl ∧ pl.length ≤ 510) ∨
  (∃ pl, f = Config.stx :: pl ∧ plain pl ∧ pl.length = 511) ∨
  (plain f ∧ f.length = 512) ∨
  (∃ pl, f = pl ++ [Config.etx] ∧ plain pl ∧ pl.length ≤ 511)

/-- A parser fed with every byte of a list, after inversion, and the frames it emits. -/
def feedAll (p : Port) (invert : Bool) :
    List Byte → Parser → Except Fault (Parser × List (List Byte))
  | [], q => .ok (q, [])
  | raw :: rest, q =>
    match feedParser p (feedByte invert raw) q with
    | .error f => .error f
    | .ok (q', e) =>
      match feedAll p invert rest q' with
      | .error f => .error f
      | .ok (q'', fs) => .ok (q'', e.toList ++ fs)

/-- What a command buffer holds: in `WaitSTX` nothing, in `WaitETX` a payload, after an STX or, after
a flush, without one. -/
def cmdShape (q : Parser) : Prop :=
  match q.pstate with
  | .waitSTX => q.cmd = []
  | .waitETX => (∃ pl, q.cmd = Config.stx :: pl ∧ plain pl) ∨ plain q.cmd

end Sys2Proof.Machine
end

