-- ==== Sys2Proof/Certificates/Slice0/Obligations.lean ====
section
/-! DEFINITION. The statements for the provers, each from the numbered rules of spec/. -/

open Sys2Proof Sys2Proof.Machine

/-! An answer `⟨agent, operation, response, condition⟩` is how the model keeps a response (30_encoding.md
rule R87) and the condition the operation met (60_exceptions.md rule R180); that both are kept in one
history is the model's choice (log entry 6), and so is that the ring operation inside a handler is
answered to the handler (log entry 25). -/

/-! ## Reset and boot -/

/-- 10_state.md rule R41: after reset every ring has both indices 0 and no slot with a value, every
parser is in WaitSTX with `clen` 0 and no byte with a value, every wire history is empty, no driver is
enabled, `cfg` is not yet selected. For every choice of the model's arguments. -/
def Obligations.ResetLeavesTheSpecsValues : Prop :=
  ∀ q : Params,
    let k := (State.resetWith q).block
    (∀ r, k.head r = 0#8 ∧ k.tail r = 0#8 ∧ k.cnt r = 0 ∧ k.content r = [] ∧
      ∀ a, Memory.read (k.ring r).slots a = none) ∧
    (∀ p, (k.parser p).pstate = .waitSTX ∧ (k.parser p).clen = 0#10 ∧
      (∀ a, Memory.read (k.parser p).cbuf a = none) ∧ k.wireOf p = []) ∧
    k.de .master = some false ∧ k.de .slave = some false ∧ k.cfg = none

/-- 70_reset_and_hazards.md rule R207 steps 3 and 4: while `cfg` is not selected the step selects it
from `SEL_CODE` and changes nothing else. That boot is one step is the model's choice (log entry 3). -/
def Obligations.BootStepSelectsConfig : Prop :=
  ∀ s : State, s.block.cfg = none →
    step s = .next { s with block := { s.block with cfg := some (cfgSelect s.params.selCode) } }

/-- 43_environment_software.md rule R156, with the table of 10_state.md rule R35: the ten entries of the
table for codes 0 to 9. That codes 10 to 15 give entry 1 is the spec's own decision D18. -/
def Obligations.ConfigSelectFollowsTable : Prop :=
  cfgSelect 0#4 = ⟨true, 9600#32⟩ ∧ cfgSelect 1#4 = ⟨false, 9600#32⟩ ∧
  cfgSelect 2#4 = ⟨true, 11400#32⟩ ∧ cfgSelect 3#4 = ⟨false, 11400#32⟩ ∧
  cfgSelect 4#4 = ⟨true, 19200#32⟩ ∧ cfgSelect 5#4 = ⟨false, 19200#32⟩ ∧
  cfgSelect 6#4 = ⟨true, 38400#32⟩ ∧ cfgSelect 7#4 = ⟨false, 38400#32⟩ ∧
  cfgSelect 8#4 = ⟨true, 115200#32⟩ ∧ cfgSelect 9#4 = ⟨false, 115200#32⟩ ∧
  ∀ code : BitVec 4, 10 ≤ code.toNat → cfgSelect code = ⟨false, 9600#32⟩

/-- 10_state.md rule R34 and 70_reset_and_hazards.md rule R208: once selected, `cfg` is constant; the
arguments always are. -/
def Obligations.ConfigIsConstantAfterBoot : Prop :=
  ∀ s t : State, step s = .next t →
    t.params = s.params ∧ (∀ e, s.block.cfg = some e → t.block.cfg = some e)

/-! ## Encoding -/

/-- 30_encoding.md rule R84: its eight worked encodings. -/
def Obligations.PublishedWordsDecode : Prop :=
  decode 0x0241#16 = .ok (.rbWrite (txRing .pc) 0x41#8) ∧
  decode 0x1403#16 = .ok (.rbRead (rxRing .master) 3) ∧
  decode 0x2400#16 = .ok (.rbCount (rxRing .master)) ∧
  decode 0x3800#16 = .ok (.rbIsfull (rxRing .slave)) ∧
  decode 0x4402#16 = .ok (.irqRx .master 0x02#8) ∧
  decode 0x5200#16 = .ok (.irqTx .pc) ∧
  decode 0x6A00#16 = .ok (.irqTxc .slave) ∧
  decode 0x7403#16 = .ok (.fpFeed .master 0x03#8)

/-- 30_encoding.md rule R85, the part about the word alone: the decoder rejects a word exactly when one
of the rule's conditions holds of its fields, read here by division. -/
def Obligations.DecodeRejectsExactlyIllegalWords : Prop :=
  ∀ w : Word,
    let op := w.toNat / 4096
    let port := w.toNat / 1024 % 4
    let rg := w.toNat / 512 % 2
    let z := w.toNat / 256 % 2
    let imm8 := w.toNat % 256
    (∃ e, decode w = .error e) ↔
      (8 ≤ op ∨ port = 3 ∨ z = 1 ∨
        ((op = 2 ∨ op = 3 ∨ op = 5 ∨ op = 6) ∧ imm8 ≠ 0) ∨
        ((op = 4 ∨ op = 7) ∧ rg = 1) ∨ ((op = 5 ∨ op = 6) ∧ rg = 0))

/-- 30_encoding.md rules R77 and R83: decoding the word of a well-formed operation gives it back, for
every operation and every value of every operand. -/
def Obligations.DecodeOfEncodeIsIdentity : Prop :=
  ∀ i : Instr, i.wf = true → decode (encode i) = .ok i

/-- 30_encoding.md rules R77 and R83: a word that decodes is the one word of a well-formed operation. -/
def Obligations.EncodeOfDecodeIsIdentity : Prop :=
  ∀ (w : Word) (i : Instr), decode w = .ok i → i.wf = true ∧ encode i = w

/-! ## The step -/

/-- 30_encoding.md rules R79, R83 and R85, 40_ringbuffer.md rule R110, 20_memory.md rule R56,
00_scope.md rule R14: what a step does with the turn it takes off the agenda of a booted machine. A word
that decodes to an operation of its interface, with MAIN idle if it is MAIN's, is that operation run whole.
An abstract operation of an idle agent is that operation by that agent. A word issued to an idle MAIN
begins the operation, at its first micro-step, or is answered `REFUSED` or `ILLEGAL`; an operation begun by
an idle harness agent likewise. The turns that take an agent on are one micro-step of its operation; MAIN
with none goes on with its loop, also when no turn is left, and a harness agent with none does nothing. That
the schedule is an agenda whose first turn is taken (log entry 1), that a word presented so runs whole in
one step, MAIN's too (log entry 2), and how the harness's agents act (log entry 28), are the model's
choices. -/
def Obligations.StepRunsDecodedOperation : Prop :=
  ∀ (s : State) (e : Config.Entry) (rest : List Turn), s.block.cfg = some e →
    let u : State := { s with agenda := rest }
    let answered := fun (a : Agent) (i : Option Instr) (resp : Response) (c : Condition) =>
      (Host.Outcome.next { u with answers := s.answers ++ [⟨a, i, resp, some c⟩] } :
        Host.Outcome State Fault Refusal)
    (∀ f w i, s.agenda = .request f w :: rest → decode w = .ok i → homeIface i = f →
      (f = .mainLoop → s.mainOp = none) → step s = exec i u) ∧
    (∀ a i, s.agenda = .abstract a i :: rest → s.opOf a = none → step s = performAs a i u) ∧
    (∀ w i, s.agenda = .issue w :: rest → s.mainOp = none → decode w = .ok i →
      homeIface i = .mainLoop →
      (s.mayIssue .main i = true → ∃ m, firstMicro i = some m ∧
        step s = .next { u with mainOp := some ⟨m, .harness⟩ }) ∧
      (s.mayIssue .main i = false → step s = answered .main (some i) .refused .refused)) ∧
    (∀ w, s.agenda = .issue w :: rest → s.mainOp = none →
      ((∃ err, decode w = .error err) ∨ ∃ i, decode w = .ok i ∧ homeIface i ≠ .mainLoop) →
      step s = answered .main none .illegal .illegal) ∧
    (∀ x i, s.agenda = .begin x i :: rest → s.harnessOps.get x = none →
      (s.mayIssue (.harness x) i = true → ∃ m, firstMicro i = some m ∧
        step s = .next { u with harnessOps := s.harnessOps.set x (some m) }) ∧
      (s.mayIssue (.harness x) i = false →
        step s = answered (.harness x) (some i) .refused .refused)) ∧
    (s.agenda = .main :: rest ∨ s.agenda = [] ∧ rest = [] →
      (∀ op, s.mainOp = some op → step s = continueOp op u) ∧
      (s.mainOp = none → step s = .next (loopTurn u))) ∧
    (∀ x, s.agenda = .micro x :: rest →
      (∀ m, s.harnessOps.get x = some m → step s = continueHarness x m u) ∧
      (s.harnessOps.get x = none → step s = .next u))

/-- 30_encoding.md rules R79 and R85: a word that is no operation, or one its interface does not take, is
answered `ILLEGAL` and changes nothing else. That such an answer is an ordinary next state (log entry 7),
and that an event word on another port's event interface is one its interface does not take (log entry 8),
are deduced. -/
def Obligations.IllegalWordOnlyAnswered : Prop :=
  ∀ (s : State) (c : Config.Entry) (f : Iface) (w : Word) (rest : List Turn),
    s.block.cfg = some c → s.agenda = .request f w :: rest →
    (f = .mainLoop → s.mainOp = none) →
    ((∃ e, decode w = .error e) ∨ ∃ i, decode w = .ok i ∧ homeIface i ≠ f) →
    step s = .next { s with
      agenda := rest
      answers := s.answers ++ [⟨agentOf f, none, .illegal, some .illegal⟩] }

/-- 30_encoding.md rule R79: which interface takes which operation, and who issues what arrives there.
That an event word for another port is not taken is deduced (log entry 8). -/
def Obligations.InterfaceNamesTheIssuer : Prop :=
  (∀ r b, homeIface (.rbWrite r b) = .mainLoop) ∧ (∀ r m, homeIface (.rbRead r m) = .mainLoop) ∧
  (∀ r, homeIface (.rbCount r) = .mainLoop) ∧ (∀ r, homeIface (.rbIsfull r) = .mainLoop) ∧
  (∀ p b, homeIface (.irqRx p b) = .event p) ∧ (∀ p, homeIface (.irqTx p) = .event p) ∧
  (∀ p, homeIface (.irqTxc p) = .event p) ∧ (∀ p b, homeIface (.fpFeed p b) = .mainLoop) ∧
  agentOf .mainLoop = .main ∧ (∀ p, agentOf (.event p) = .irq p) ∧
  ∀ i s, exec i s = performAs (agentOf (homeIface i)) i s

/-- The word placed by `withFetchWord` is the one the next step runs, on its own interface, after boot
and with MAIN idle if it is MAIN's. The placing is the model's own (log entry 12). -/
def Obligations.PlacedWordRunsNext : Prop :=
  ∀ (s : State) (w : Word) (i : Instr), decode w = .ok i →
    step (s.withFetchWord 16 w.toNat) =
      exec i { (booted s).idleFor (homeIface i) with agenda := s.agenda }

/-- 20_memory.md rule R56 says that an agent has at most one operation in progress. What the model does
with a turn that would begin a second one is deduced (log entry 9, on the schedule of log entry 1): the
turn is not taken and stays first, and the agent, MAIN or a harness's, takes its next micro-step in its
place. -/
def Obligations.SecondOperationWaits : Prop :=
  ∀ (s : State) (e : Config.Entry) (t : Turn) (rest : List Turn),
    s.block.cfg = some e → s.agenda = t :: rest →
    (∀ op, s.mainOp = some op → t.needsIdle = some .main →
      step s = continueOp op s ∧ ∀ u, step s = .next u → u.agenda = s.agenda) ∧
    (∀ x m, s.harnessOps.get x = some m → t.needsIdle = some (.harness x) →
      step s = continueHarness x m s ∧ ∀ u, step s = .next u → u.agenda = s.agenda)

/-! ## Ring-buffer operations -/

/-- 40_ringbuffer.md rule R101: RB.WRITE by the producer of a ring that is not full writes the byte into
the slot of `tail`, advances `tail` modulo 256, answers true, and changes nothing else. Its word is MAIN's
(30_encoding.md rule R79), the producer of the transmit rings. -/
def Obligations.RbWriteAcceptsWhenNotFull : Prop :=
  ∀ (r : RingId) (b : Byte) (s : State), s.block.cnt r ≠ 128 →
    let t : State := { s with
      block := s.block.setRing r {
        head := s.block.head r
        tail := s.block.tail r + 1#8
        slots := Memory.write (s.block.ring r).slots ((s.block.tail r).toNat % 128) b }
      answers := s.answers ++ [⟨s.producer r, some (.rbWrite r b), .ok true, none⟩] }
    performAs (s.producer r) (.rbWrite r b) s = .next t ∧
    (s.producer r = .main → exec (.rbWrite r b) s = .next t)

/-- 40_ringbuffer.md rules R101 (a) and R102: RB.WRITE by the producer of a full ring answers false and
changes nothing. -/
def Obligations.RbWriteRejectsWhenFull : Prop :=
  ∀ (r : RingId) (b : Byte) (s : State), s.block.cnt r = 128 →
    let t : State := { s with
      answers := s.answers ++
        [⟨s.producer r, some (.rbWrite r b), .ok false, some .writeRejected⟩] }
    performAs (s.producer r) (.rbWrite r b) s = .next t ∧
    (s.producer r = .main → exec (.rbWrite r b) s = .next t)

/-- 40_ringbuffer.md rules R103 and R104: RB.READ by the consumer of a ring returns the smaller of
`maxCount` and the count, the bytes of the slots from `head` on in order across the wrap, and advances
`head` by that number modulo 256; nothing else changes. Its word is MAIN's, the consumer of the receive
rings. The premise is rule R40 (e). -/
def Obligations.RbReadReturnsOldestBytes : Prop :=
  ∀ (r : RingId) (m : Nat) (s : State),
    (∀ i < s.block.cnt r,
      (s.block.readSlot r (s.block.head r + BitVec.ofNat 8 i)).isSome) →
    let n := min m (s.block.cnt r)
    ∃ bytes : List Byte, bytes.length = n ∧
      (∀ i < n, bytes[i]? = Memory.read (s.block.ring r).slots
        (((s.block.head r).toNat + i) % 128)) ∧
      let t : State := { s with
        block := s.block.setRing r
          { s.block.ring r with head := s.block.head r + BitVec.ofNat 8 n }
        answers := s.answers ++ [⟨s.consumer r, some (.rbRead r m), .read n bytes, none⟩] }
      performAs (s.consumer r) (.rbRead r m) s = .next t ∧
      (s.consumer r = .main → exec (.rbRead r m) s = .next t)

/-- 10_state.md rule R24: RB.READ by the consumer of a ring stops with a fault exactly when a slot it
would read holds no value. -/
def Obligations.RbReadFaultsOnUnwrittenSlot : Prop :=
  ∀ (r : RingId) (m : Nat) (s : State),
    let unwritten := ∃ i < min m (s.block.cnt r),
      s.block.readSlot r (s.block.head r + BitVec.ofNat 8 i) = none
    (unwritten ↔ ∃ j, performAs (s.consumer r) (.rbRead r m) s = .fault (.slotUnwritten r j)) ∧
    (s.consumer r = .main →
      (unwritten ↔ ∃ j, exec (.rbRead r m) s = .fault (.slotUnwritten r j)))

/-- 40_ringbuffer.md rules R105 and R106: to either role of the ring RB.COUNT answers
`(tail - head) mod 256` and RB.ISFULL whether that is 128, changing nothing. -/
def Obligations.CountAndIsFullAnswer : Prop :=
  ∀ (r : RingId) (s : State) (a : Agent), a = s.producer r ∨ a = s.consumer r →
    let t : State := { s with
      answers := s.answers ++ [⟨a, some (.rbCount r),
        .count ((s.block.tail r - s.block.head r).toNat), none⟩] }
    let u : State := { s with
      answers := s.answers ++ [⟨a, some (.rbIsfull r),
        .isFull (decide ((s.block.tail r - s.block.head r).toNat = 128)), none⟩] }
    performAs a (.rbCount r) s = .next t ∧ performAs a (.rbIsfull r) s = .next u ∧
    (a = .main → exec (.rbCount r) s = .next t ∧ exec (.rbIsfull r) s = .next u)

/-- 10_state.md rule R28, the role table, with a test harness's own two agents on the ring it exercises
alone; 40_ringbuffer.md rule R110: an operation by an agent without the role it needs is answered
`REFUSED` and changes nothing. The events belong to the handler of their port (43_environment_software.md
rule R171), FP.FEED to MAIN (42_frame_parser.md rule R135, 60_exceptions.md rule R195). On the main-loop
interface every RB.WRITE to a receive ring and every RB.READ of a transmit ring is refused. That an event
whose ring is the harness's is refused whole is the model's choice (log entry 28). -/
def Obligations.RoleViolationsAreRefused : Prop :=
  ∀ s : State,
    let refusal := fun (a : Agent) (i : Instr) =>
      (Host.Outcome.next { s with
        answers := s.answers ++ [⟨a, some i, .refused, some .refused⟩] } :
        Host.Outcome State Fault Refusal)
    (∀ p, s.params.harness ≠ some (rxRing p) →
      s.producer (rxRing p) = .irq p ∧ s.consumer (rxRing p) = .main) ∧
    (∀ p, s.params.harness ≠ some (txRing p) →
      s.producer (txRing p) = .main ∧ s.consumer (txRing p) = .irq p) ∧
    (∀ r, s.params.harness = some r →
      s.producer r = .harness .producer ∧ s.consumer r = .harness .consumer) ∧
    (∀ a (r : RingId) b, a ≠ s.producer r →
      performAs a (.rbWrite r b) s = refusal a (.rbWrite r b)) ∧
    (∀ a (r : RingId) m, a ≠ s.consumer r →
      performAs a (.rbRead r m) s = refusal a (.rbRead r m)) ∧
    (∀ a (r : RingId), a ≠ s.producer r → a ≠ s.consumer r →
      performAs a (.rbCount r) s = refusal a (.rbCount r) ∧
      performAs a (.rbIsfull r) s = refusal a (.rbIsfull r)) ∧
    (∀ a p b, a ≠ .irq p ∨ a ≠ s.producer (rxRing p) →
      performAs a (.irqRx p b) s = refusal a (.irqRx p b)) ∧
    (∀ a p, a ≠ .irq p ∨ a ≠ s.consumer (txRing p) →
      performAs a (.irqTx p) s = refusal a (.irqTx p) ∧
      performAs a (.irqTxc p) s = refusal a (.irqTxc p)) ∧
    (∀ a p raw, a ≠ .main → performAs a (.fpFeed p raw) s = refusal a (.fpFeed p raw)) ∧
    (∀ p b, exec (.rbWrite (rxRing p) b) s = refusal .main (.rbWrite (rxRing p) b)) ∧
    (∀ p m, exec (.rbRead (txRing p) m) s = refusal .main (.rbRead (txRing p) m))

/-- 40_ringbuffer.md rule R108: with nothing interleaved the four operations, by an agent that holds the
role they need, are these functions of `content(r)`. -/
def Obligations.RingOperationsOnContent : Prop :=
  ∀ (s : State) (r : RingId) (a : Agent), s.block.Inv →
    let runs := fun (i : Instr) (t : State) =>
      performAs a i s = .next t ∧ (a = .main → exec i s = .next t)
    (a = s.producer r →
      (∀ b, (s.block.content r).length < 128 → ∃ t, runs (.rbWrite r b) t ∧
        t.block.content r = s.block.content r ++ [b] ∧
        t.answers = s.answers ++ [⟨a, some (.rbWrite r b), .ok true, none⟩]) ∧
      (∀ b, (s.block.content r).length = 128 → ∃ t, runs (.rbWrite r b) t ∧
        t.block.content r = s.block.content r ∧
        t.answers = s.answers ++ [⟨a, some (.rbWrite r b), .ok false, some .writeRejected⟩])) ∧
    (a = s.consumer r →
      ∀ m, ∃ t, runs (.rbRead r m) t ∧
        t.block.content r = (s.block.content r).drop m ∧
        t.answers = s.answers ++ [⟨a, some (.rbRead r m),
          .read (min m (s.block.content r).length) ((s.block.content r).take m), none⟩]) ∧
    (a = s.producer r ∨ a = s.consumer r →
      (∃ t, runs (.rbCount r) t ∧ t.block.content r = s.block.content r ∧
        t.answers = s.answers ++ [⟨a, some (.rbCount r),
          .count (s.block.content r).length, none⟩]) ∧
      (∃ t, runs (.rbIsfull r) t ∧ t.block.content r = s.block.content r ∧
        t.answers = s.answers ++ [⟨a, some (.rbIsfull r),
          .isFull (decide ((s.block.content r).length = 128)), none⟩]))

/-- The frame of the storing ring operations, RB.WRITE and IRQ.RX, as words and as abstract operations of
any agent: only the slot that `tail` names and `tail` itself of the one ring may change. 10_state.md rules
R21 and R42. -/
def Obligations.StoringOperationsFrame : Prop :=
  ∀ (r : RingId) (b : Byte) (a : Agent) (s t : State),
    (exec (.rbWrite r b) s = .next t ∨ performAs a (.rbWrite r b) s = .next t ∨
      r.dir = .rx ∧
        (exec (.irqRx r.port b) s = .next t ∨ performAs a (.irqRx r.port b) s = .next t)) →
    (∀ r', r' ≠ r → t.block.ring r' = s.block.ring r') ∧
    t.block.head r = s.block.head r ∧
    (∀ a, a ≠ slotOf (s.block.tail r) →
      Memory.read (t.block.ring r).slots a = Memory.read (s.block.ring r).slots a) ∧
    (∀ p, t.block.parser p = s.block.parser p ∧ t.block.de p = s.block.de p ∧
      t.block.wireOf p = s.block.wireOf p) ∧
    t.block.cfg = s.block.cfg ∧ sameUser s t

/-- The frame of the reading ring operations, RB.READ and IRQ.TX, as words and as abstract operations of
any agent: no memory changes; only `head` of the one ring may, and for IRQ.TX the driver enable and wire
of its port. 10_state.md rules R21 and R42. -/
def Obligations.ReadingOperationsFrame : Prop :=
  (∀ (r : RingId) (m : Nat) (a : Agent) (s t : State),
    (exec (.rbRead r m) s = .next t ∨ performAs a (.rbRead r m) s = .next t) →
    (∀ r', r' ≠ r → t.block.ring r' = s.block.ring r') ∧
    t.block.tail r = s.block.tail r ∧ (t.block.ring r).slots = (s.block.ring r).slots ∧
    (∀ p, t.block.parser p = s.block.parser p ∧ t.block.de p = s.block.de p ∧
      t.block.wireOf p = s.block.wireOf p) ∧
    t.block.cfg = s.block.cfg ∧ sameUser s t) ∧
  (∀ (p : Port) (a : Agent) (s t : State),
    (exec (.irqTx p) s = .next t ∨ performAs a (.irqTx p) s = .next t) →
    (∀ r', r' ≠ txRing p → t.block.ring r' = s.block.ring r') ∧
    t.block.tail (txRing p) = s.block.tail (txRing p) ∧
    (t.block.ring (txRing p)).slots = (s.block.ring (txRing p)).slots ∧
    (∀ q, t.block.parser q = s.block.parser q) ∧
    (∀ q, q ≠ p → t.block.de q = s.block.de q ∧ t.block.wireOf q = s.block.wireOf q) ∧
    t.block.cfg = s.block.cfg ∧ sameUser s t)

/-- The frame of the operations that only look, as words and as abstract operations of any agent: RB.COUNT
and RB.ISFULL change nothing of the block, IRQ.TXC nothing but the driver enable of its port. 10_state.md
rule R42. -/
def Obligations.LookingOperationsFrame : Prop :=
  (∀ (r : RingId) (a : Agent) (s t : State),
    (exec (.rbCount r) s = .next t ∨ exec (.rbIsfull r) s = .next t ∨
      performAs a (.rbCount r) s = .next t ∨ performAs a (.rbIsfull r) s = .next t) →
    t.block = s.block ∧ sameUser s t) ∧
  (∀ (p : Port) (a : Agent) (s t : State),
    (exec (.irqTxc p) s = .next t ∨ performAs a (.irqTxc p) s = .next t) →
    (∀ r, t.block.ring r = s.block.ring r) ∧
    (∀ q, t.block.parser q = s.block.parser q ∧ t.block.wireOf q = s.block.wireOf q) ∧
    (∀ q, q ≠ p → t.block.de q = s.block.de q) ∧ t.block.cfg = s.block.cfg ∧ sameUser s t)

/-- 10_state.md rules R22, R23, R24 and R28, 60_exceptions.md rule R195. An operation run whole moves
`head[r]` only for the consumer of `r`, and `tail[r]` or a slot only for the producer. The same of every
step, MAIN's and a harness's micro-steps included: the agent that moves in it is the consumer, or the
producer; a driver or a wire changes only by the handler of its port, a parser only by MAIN. So a step of
MAIN leaves `head` of every transmit ring, `tail` and slots of every receive ring, every driver and every
wire as they were. The premise is the machine's invariant. -/
def Obligations.SingleWriterDiscipline : Prop :=
  (∀ (a : Agent) (i : Instr) (s t : State) (r : RingId), performAs a i s = .next t →
    (t.block.head r ≠ s.block.head r → a = s.consumer r) ∧
    (t.block.tail r ≠ s.block.tail r → a = s.producer r) ∧
    ((t.block.ring r).slots ≠ (s.block.ring r).slots → a = s.producer r)) ∧
  (∀ s t : State, s.Inv → step s = .next t →
    (∀ r, (t.block.head r ≠ s.block.head r → s.mover = some (s.consumer r)) ∧
      (t.block.tail r ≠ s.block.tail r → s.mover = some (s.producer r)) ∧
      ((t.block.ring r).slots ≠ (s.block.ring r).slots → s.mover = some (s.producer r))) ∧
    (∀ p, (t.block.de p ≠ s.block.de p → s.mover = some (.irq p)) ∧
      (t.block.wireOf p ≠ s.block.wireOf p → s.mover = some (.irq p)) ∧
      (t.block.parser p ≠ s.block.parser p → s.mover = some .main)) ∧
    (s.mover = some .main →
      ∀ p, t.block.head (txRing p) = s.block.head (txRing p) ∧
        t.block.tail (rxRing p) = s.block.tail (rxRing p) ∧
        (t.block.ring (rxRing p)).slots = (s.block.ring (rxRing p)).slots ∧
        t.block.de p = s.block.de p ∧ t.block.wireOf p = s.block.wireOf p))

/-! ## The interrupt gate

The premise that the handler holds its port's role is rule R28; it fails only on a ring that a test harness
exercises alone, where RoleViolationsAreRefused says what happens. -/

/-- 41_interrupt_gate.md rule R121: IRQ.RX on a receive ring that is not full stores the raw byte in
the slot of `tail` and advances `tail`; nothing else of the block changes. That the one answer given
is the inner RB.WRITE's, to the handler, is the model's choice (log entry 25). -/
def Obligations.IrqRxStoresByte : Prop :=
  ∀ (p : Port) (b : Byte) (s : State), s.producer (rxRing p) = .irq p →
    s.block.cnt (rxRing p) ≠ 128 →
    exec (.irqRx p b) s = .next { s with
      block := s.block.setRing (rxRing p) {
        head := s.block.head (rxRing p)
        tail := s.block.tail (rxRing p) + 1#8
        slots := Memory.write (s.block.ring (rxRing p)).slots
          ((s.block.tail (rxRing p)).toNat % 128) b }
      answers := s.answers ++ [⟨.irq p, some (.rbWrite (rxRing p) b), .ok true, none⟩] }

/-- 41_interrupt_gate.md rule R121 (a): IRQ.RX on a full ring changes nothing of the block. -/
def Obligations.IrqRxDropsByteWhenFull : Prop :=
  ∀ (p : Port) (b : Byte) (s : State), s.producer (rxRing p) = .irq p →
    s.block.cnt (rxRing p) = 128 →
    ∃ t, exec (.irqRx p b) s = .next t ∧ t.block = s.block ∧ sameUser s t

/-- 41_interrupt_gate.md rule R122: IRQ.TX on a ring whose oldest slot holds `b` advances `head` by
one, enables the driver of an RS-485 port, and appends `b` to the wire. That the inner RB.READ is
answered to the handler is the model's choice (log entry 25). -/
def Obligations.IrqTxSendsOldestByte : Prop :=
  ∀ (p : Port) (b : Byte) (s : State), s.consumer (txRing p) = .irq p →
    s.block.cnt (txRing p) ≠ 0 →
    s.block.readSlot (txRing p) (s.block.head (txRing p)) = some b →
    ∃ t, exec (.irqTx p) s = .next t ∧
      t.block.head (txRing p) = s.block.head (txRing p) + 1#8 ∧
      (p ≠ .pc → t.block.de p = some true) ∧ t.block.de .pc = none ∧
      t.block.wireOf p = s.block.wireOf p ++ [b] ∧
      t.answers = s.answers ++ [⟨.irq p, some (.rbRead (txRing p) 1), .read 1 [b], none⟩]

/-- 41_interrupt_gate.md rule R122 (a): IRQ.TX on an empty ring changes nothing of the block. -/
def Obligations.IrqTxOnEmptyRingDoesNothing : Prop :=
  ∀ (p : Port) (s : State), s.consumer (txRing p) = .irq p → s.block.cnt (txRing p) = 0 →
    ∃ t, exec (.irqTx p) s = .next t ∧ t.block = s.block ∧ sameUser s t

/-- 41_interrupt_gate.md rule R124: IRQ.TXC releases the driver of an RS-485 port whose transmit ring
is empty, and otherwise changes nothing of the block. That the inner RB.COUNT is answered to the
handler is the model's choice (log entry 25). -/
def Obligations.IrqTxcReleasesDriver : Prop :=
  ∀ (p : Port) (s : State), s.consumer (txRing p) = .irq p → ∃ t, exec (.irqTxc p) s = .next t ∧
    (s.block.cnt (txRing p) = 0 → p ≠ .pc → t.block.de p = some false) ∧
    ((s.block.cnt (txRing p) ≠ 0 ∨ p = .pc) → t.block = s.block) ∧
    t.answers = s.answers ++
      [⟨.irq p, some (.rbCount (txRing p)), .count (s.block.cnt (txRing p)), none⟩]

/-- 20_memory.md rule R64: operations of the handlers of two different ports commute: either order
gives the same block and gives each handler the same answers. -/
def Obligations.HandlersOfDifferentPortsCommute : Prop :=
  ∀ (p q : Port) (i j : Instr) (s t u : State), p ≠ q → homeIface i = .event p →
    homeIface j = .event q → exec i s = .next t → exec j t = .next u →
    ∃ t' u', exec j s = .next t' ∧ exec i t' = .next u' ∧ u'.block = u.block ∧ sameUser u u' ∧
      ∀ a, u'.answers.filter (fun e => decide (e.agent = a)) =
        u.answers.filter fun e => decide (e.agent = a)

/-- 60_exceptions.md rules R192 and R193: taking an event leaves MAIN's locals and position, the
configuration, every parser and the other ports alone; of its own port MAIN may find `tail` and slots
of the receive ring or `head` of the transmit ring changed and no other part of a ring. -/
def Obligations.EventsLeaveMainAndOtherPortsAlone : Prop :=
  ∀ (s t : State) (e : Config.Entry) (p : Port) (w : Word) (rest : List Turn),
    s.block.cfg = some e → s.agenda = .request (.event p) w :: rest → step s = .next t →
    t.mainOp = s.mainOp ∧ t.harnessOps = s.harnessOps ∧ t.loop = s.loop ∧ t.params = s.params ∧
    t.agenda = rest ∧
    t.block.cfg = s.block.cfg ∧ (∀ q, t.block.parser q = s.block.parser q) ∧
    (∀ r : RingId, r.port ≠ p → t.block.ring r = s.block.ring r) ∧
    (∀ q, q ≠ p → t.block.de q = s.block.de q ∧ t.block.wireOf q = s.block.wireOf q) ∧
    t.block.head (rxRing p) = s.block.head (rxRing p) ∧
    t.block.tail (txRing p) = s.block.tail (txRing p) ∧
    (t.block.ring (txRing p)).slots = (s.block.ring (txRing p)).slots

/-! ## The frame parser -/

/-- 42_frame_parser.md rule R137: in WaitSTX the byte STX, after inversion, starts a frame. -/
def Obligations.FeedStxStartsFrame : Prop :=
  ∀ (p : Port) (raw : Byte) (s : State), (s.block.parser p).pstate = .waitSTX →
    s.fedByte raw = 0x02#8 →
    ∃ t, exec (.fpFeed p raw) s = .next t ∧ (t.block.parser p).cmd = [0x02#8] ∧
      (t.block.parser p).clen = 1#10 ∧ (t.block.parser p).pstate = .waitETX ∧
      t.answers = s.answers ++ [⟨.main, some (.fpFeed p raw), .noFrame, none⟩]

/-- 42_frame_parser.md rule R138: in WaitSTX any other byte, ETX included, is dropped silently. -/
def Obligations.FeedOutsideFrameDropsByte : Prop :=
  ∀ (p : Port) (raw : Byte) (s : State), (s.block.parser p).pstate = .waitSTX →
    s.fedByte raw ≠ 0x02#8 →
    exec (.fpFeed p raw) s = .next { s with
      answers := s.answers ++ [⟨.main, some (.fpFeed p raw), .noFrame, some .byteDropped⟩] }

/-- 42_frame_parser.md rule R139: in WaitETX the byte STX discards the frame under way and starts
another. -/
def Obligations.FeedStxRestartsFrame : Prop :=
  ∀ (p : Port) (raw : Byte) (s : State), (s.block.parser p).pstate = .waitETX →
    s.fedByte raw = 0x02#8 →
    ∃ t, exec (.fpFeed p raw) s = .next t ∧ (t.block.parser p).cmd = [0x02#8] ∧
      (t.block.parser p).clen = 1#10 ∧ (t.block.parser p).pstate = .waitETX ∧
      t.answers = s.answers ++ [⟨.main, some (.fpFeed p raw), .noFrame, some .frameAbort⟩]

/-- 42_frame_parser.md rule R140: in WaitETX the byte ETX emits the accumulated buffer with the ETX
appended, 1 to 512 bytes, and returns to WaitSTX with length 0. The premise is rule R40 (c) and (e) for
the command buffer. -/
def Obligations.FeedEtxEmitsFrame : Prop :=
  ∀ (p : Port) (raw : Byte) (s : State), (s.block.parser p).Inv →
    (s.block.parser p).pstate = .waitETX → s.fedByte raw = 0x03#8 →
    ∃ t, exec (.fpFeed p raw) s = .next t ∧
      (t.block.parser p).clen = 0#10 ∧ (t.block.parser p).pstate = .waitSTX ∧
      (s.block.parser p).cmd.length = (s.block.parser p).clen.toNat ∧
      (s.block.parser p).cmd.length + 1 ≤ 512 ∧
      t.answers = s.answers ++ [⟨.main, some (.fpFeed p raw),
        .frame ((s.block.parser p).cmd ++ [0x03#8]), none⟩]

/-- 42_frame_parser.md rule R141: in WaitETX another byte is appended; below 512 bytes there is no
response, at 512 the buffer is emitted and its length is 0 again; the state stays WaitETX. -/
def Obligations.FeedOtherByteAppendsOrFlushes : Prop :=
  ∀ (p : Port) (raw : Byte) (s : State), (s.block.parser p).Inv →
    (s.block.parser p).pstate = .waitETX → s.fedByte raw ≠ 0x02#8 → s.fedByte raw ≠ 0x03#8 →
    ∃ t, exec (.fpFeed p raw) s = .next t ∧ (t.block.parser p).pstate = .waitETX ∧
      ((s.block.parser p).clen.toNat < 511 →
        (t.block.parser p).cmd = (s.block.parser p).cmd ++ [s.fedByte raw] ∧
        (t.block.parser p).clen.toNat = (s.block.parser p).clen.toNat + 1 ∧
        t.answers = s.answers ++ [⟨.main, some (.fpFeed p raw), .noFrame, none⟩]) ∧
      ((s.block.parser p).clen.toNat = 511 →
        (t.block.parser p).clen = 0#10 ∧
        ((s.block.parser p).cmd ++ [s.fedByte raw]).length = 512 ∧
        t.answers = s.answers ++ [⟨.main, some (.fpFeed p raw),
          .frame ((s.block.parser p).cmd ++ [s.fedByte raw]), some .frameBufferOverflow⟩])

/-- 42_frame_parser.md rule R136: with `bitInvert` set, FP.FEED of a raw byte does to the parser, and
answers, what FP.FEED of its complement does without it. -/
def Obligations.InversionComplementsBeforeParsing : Prop :=
  ∀ (p : Port) (raw : Byte) (rate rate' : BitVec 32) (s t : State),
    s.block.cfg = some ⟨true, rate⟩ → exec (.fpFeed p raw) s = .next t →
    ∃ u, exec (.fpFeed p (raw ^^^ 0xFF#8))
        { s with block := { s.block with cfg := some ⟨false, rate'⟩ } } = .next u ∧
      u.block.parsers = t.block.parsers ∧
      u.answers.map (fun e => (e.agent, e.resp, e.cond)) =
        t.answers.map fun e => (e.agent, e.resp, e.cond)

/-- The frame of FP.FEED: rings, driver enables, wires, configuration and the other parsers are
unchanged, and so is every command-buffer byte but the one stored at `clen`, which is 0 after the clear
that an STX brings; a byte dropped in WaitSTX stores nothing. 10_state.md rule R42. -/
def Obligations.FeedFrame : Prop :=
  ∀ (p : Port) (raw : Byte) (s t : State), exec (.fpFeed p raw) s = .next t →
    (∀ r, t.block.ring r = s.block.ring r) ∧
    (∀ q, t.block.de q = s.block.de q ∧ t.block.wireOf q = s.block.wireOf q) ∧
    (∀ q, q ≠ p → t.block.parser q = s.block.parser q) ∧ t.block.cfg = s.block.cfg ∧
    sameUser s t ∧
    (∀ a, (s.fedByte raw = 0x02#8 → a ≠ (s.block.parser p).clear.clen.toNat) →
      (s.fedByte raw ≠ 0x02#8 → a ≠ (s.block.parser p).clen.toNat) →
      Memory.read (t.block.parser p).cbuf a = Memory.read (s.block.parser p).cbuf a) ∧
    ((s.block.parser p).pstate = .waitSTX → s.fedByte raw ≠ 0x02#8 →
      (t.block.parser p).cbuf = (s.block.parser p).cbuf)

/-- 42_frame_parser.md rule R143: from a command buffer of the shape the transitions leave, every
emitted frame has one of the four shapes, and the buffer keeps its shape. -/
def Obligations.EmittedFramesHaveFourShapes : Prop :=
  ∀ (p : Port) (b : Byte) (q q' : Parser) (e : Option (List Byte)), q.Inv → cmdShape q →
    feedParser p b q = .ok (q', e) → q'.Inv ∧ cmdShape q' ∧ ∀ f, e = some f → FrameShape f

/-- 42_frame_parser.md rule R145 (4), read as 90_conflicts.md C3 says: 513 bytes that are neither STX
nor ETX fed after an STX emit exactly one frame, of 512 bytes, and leave the parser in WaitETX with
the last two bytes. -/
def Obligations.LongPayloadFlushesOnce : Prop :=
  ∀ (p : Port) (rate : BitVec 32) (xs : List Byte) (s : State),
    s.block.cfg = some ⟨false, rate⟩ → (s.block.parser p).Inv →
    (s.block.parser p).pstate = .waitSTX → plain xs → xs.length = 513 →
    ∃ t, execAll ((0x02#8 :: xs).map (Instr.fpFeed p)) s = .next t ∧
      framesOf p t.answers = framesOf p s.answers ++ [0x02#8 :: xs.take 511] ∧
      (0x02#8 :: xs.take 511).length = 512 ∧
      (t.block.parser p).pstate = .waitETX ∧ (t.block.parser p).cmd = xs.drop 511

/-! ## Invariants of every step -/

/-- 10_state.md rules R40 and R41: the invariants `State.Inv`, `FifoInv`, `WireInv`, `RelayInv` and
`QuietInv` hold right after reset, for every choice of the arguments, and every parser meets its own and has
a command buffer of the shape `cmdShape` that EmittedFramesHaveFourShapes keeps. That the snapshot is 0, the
scratch buffer empty and no poll has a result there is the model's choice (log entry 13); `MainLoop.Inv`
in `State.Inv`, and `noMismatch` in `RelayInv`, rest on it. -/
def Obligations.ResetMeetsInvariant : Prop :=
  ∀ q : Params, (State.resetWith q).Inv ∧ FifoInv (State.resetWith q) ∧
    WireInv (State.resetWith q) ∧ RelayInv (State.resetWith q) ∧ QuietInv (State.resetWith q) ∧
    ∀ p, ((State.resetWith q).block.parser p).Inv ∧ cmdShape ((State.resetWith q).block.parser p)

/-- 10_state.md rules R25 and R40, under every interleaving: counts stay 0 to 128, `clen` 0 to 511 and
0 in WaitSTX, every queued slot and every byte below `clen` holds a value, `cfg` is a table entry,
every byte array keeps its canonical form. -/
def Obligations.StepKeepsInvariant : Prop :=
  ∀ s t : State, s.Inv → step s = .next t → t.Inv

/-- 10_state.md rules R24 and R30, 42_frame_parser.md rule R142: no operation ever reads a byte without
a value or reaches outside a buffer, so a machine that meets the invariant always has a next state. -/
def Obligations.StepNeverStops : Prop :=
  ∀ s : State, s.Inv → ∃ t, step s = .next t

/-- 40_ringbuffer.md rules R111 and R113, under every interleaving: the bytes accepted by each ring, in
order, are the bytes returned from it, in order, followed by the bytes queued in it. -/
def Obligations.RingsAreFirstInFirstOut : Prop :=
  ∀ s t : State, s.Inv → FifoInv s → step s = .next t → FifoInv t

/-- 41_interrupt_gate.md rule R123: in a run of operation words, what was sent on the wire of a port
followed by what is queued in its transmit ring is what was ever accepted into that ring. -/
def Obligations.WireCarriesAcceptedBytes : Prop :=
  ∀ s t : State, s.Inv → s.wordsOnly → FifoInv s → WireInv s → step s = .next t →
    t.wordsOnly ∧ WireInv t ∧
    ∀ p, t.block.wireOf p ++ t.block.content (txRing p) = accepts (txRing p) t.answers

/-- 10_state.md rule R40 (f): a wire history only grows at its end. -/
def Obligations.WireHistoryOnlyGrows : Prop :=
  ∀ (s t : State) (p : Port), step s = .next t → s.block.wireOf p <+: t.block.wireOf p

/-- 60_exceptions.md rule R184: while MAIN runs only its loop, `ReadSizeMismatch` never occurs. That a
failed poll keeps the name of its condition, by which this is said, is the model's choice (log entry 30). -/
def Obligations.ReadSizeMismatchNeverOccurs : Prop :=
  ∀ s t : State, RelayInv s → step s = .next t → RelayInv t

/-- 43_environment_software.md rule R169: a source ring that is full at L1 stays full, whatever
arrives, and no poll of it gets past L1. `FullInv` tells the error frame of L1 by the condition kept with it
(log entry 30). -/
def Obligations.FullSourceRingStaysFull : Prop :=
  ∀ (src : Source) (s t : State), FullInv src s → step s = .next t →
    FullInv src t ∧ t.block.ring (rxRing (sourcePort src)) = s.block.ring (rxRing (sourcePort src))

/-- 41_interrupt_gate.md rule R125: while MAIN runs only its loop, the RS-485 ports are never
transmitted on and never driven. -/
def Obligations.Rs485PortsAreNeverDriven : Prop :=
  ∀ s t : State, QuietInv s → step s = .next t → QuietInv t

/-! ## Interleaving -/

/-- 40_ringbuffer.md rules R101, R103, R105, R106, R108: an operation of MAIN taken micro-step by
micro-step with nothing in between ends as the operation run whole does, in the same state or the same
fault. -/
def Obligations.MicroStepsMeetTheWholeOperation : Prop :=
  ∀ (s : State) (e : Config.Entry) (i : Instr) (m : Micro),
    s.block.cfg = some e → s.agenda = [] → s.mainOp = none → s.mayIssue .main i = true →
    firstMicro i = some m →
    (∀ t, exec i s = .next t → Reaches { s with mainOp := some ⟨m, .harness⟩ } t) ∧
    (∀ f, exec i s = .fault f →
      ∃ n, runSteps n { s with mainOp := some ⟨m, .harness⟩ } = .fault f)

/-- 40_ringbuffer.md rule R101 (c): a write that read `head` before the consumer advanced it reports
full although a slot has just been freed. The schedule is an agenda (log entry 1). -/
def Obligations.StaleHeadRejectsWrite : Prop :=
  ∀ (s : State) (e : Config.Entry) (p : Port) (b x : Byte),
    s.block.cfg = some e → s.mainOp = none → s.producer (txRing p) = .main →
    s.block.cnt (txRing p) = 128 →
    s.block.readSlot (txRing p) (s.block.head (txRing p)) = some x →
    s.agenda = [.issue (encode (.rbWrite (txRing p) b)), .main,
      .request (.event p) (encode (.irqTx p)), .main, .main] →
    ∃ t, runSteps 5 s = .next t ∧ t.mainOp = none ∧ t.block.cnt (txRing p) = 127 ∧
      t.answers = s.answers ++
        [⟨.irq p, some (.rbRead (txRing p) 1), .read 1 [x], none⟩,
         ⟨.main, some (.rbWrite (txRing p) b), .ok false, some .writeRejected⟩]

/-- 40_ringbuffer.md rule R109: a batch read is not one atomic step: two bytes that arrive after its
R1 are judged against the old `head`, the first accepted and the second rejected, and the read still
returns the 127 bytes that were queued at R1. -/
def Obligations.BatchReadIsNotAtomic : Prop :=
  ∀ (s : State) (e : Config.Entry) (p : Port) (x y : Byte),
    s.block.cfg = some e → s.Inv → s.block.cnt (rxRing p) = 127 →
    s.mainOp = some ⟨.r2 (rxRing p) 200 (s.block.tail (rxRing p)), .harness⟩ →
    s.agenda = [.request (.event p) (encode (.irqRx p x)),
      .request (.event p) (encode (.irqRx p y))] →
    ∃ t, Reaches s t ∧ t.mainOp = none ∧ t.block.content (rxRing p) = [x] ∧
      t.answers = s.answers ++
        [⟨.irq p, some (.rbWrite (rxRing p) x), .ok true, none⟩,
         ⟨.irq p, some (.rbWrite (rxRing p) y), .ok false, some .writeRejected⟩,
         ⟨.main, some (.rbRead (rxRing p) 200),
           .read 127 (s.block.content (rxRing p)), none⟩]

/-! ## MAIN's software -/

/-- 30_encoding.md rule R74 and 43_environment_software.md rule R160: the bytes of the two error frames,
with one terminator and with two. The source names the two messages; that their bytes are the ASCII codes
is the spec's own general knowledge (93_implementation_defined.md GK1, log entry 18, PRESUMED). -/
def Obligations.ErrorFrameBytes : Prop :=
  errorFrame .one fullErrorText =
    [0x02#8, 0x52#8, 0x69#8, 0x6E#8, 0x67#8, 0x42#8, 0x75#8, 0x66#8, 0x66#8, 0x65#8, 0x72#8, 0x20#8,
     0x46#8, 0x75#8, 0x6C#8, 0x6C#8, 0x20#8, 0x45#8, 0x72#8, 0x72#8, 0x6F#8, 0x72#8, 0x03#8] ∧
  errorFrame .one readSizeErrorText =
    [0x02#8, 0x52#8, 0x65#8, 0x61#8, 0x64#8, 0x20#8, 0x53#8, 0x69#8, 0x7A#8, 0x65#8, 0x20#8, 0x45#8,
     0x72#8, 0x72#8, 0x6F#8, 0x72#8, 0x03#8] ∧
  (∀ text, errorFrame .two text = errorFrame .one text ++ [0x03#8])

/-- 43_environment_software.md rule R158: with room for all its bytes and nothing else happening,
TX.BLOCK puts them into the destination ring in order and is done; no other ring changes. -/
def Obligations.TxBlockFillsRingInOrder : Prop :=
  ∀ (s : State) (e : Config.Entry) (blk : TxBlock) (a : AfterTx),
    s.block.cfg = some e → s.Inv → s.mainOp = none → s.agenda = [] → s.loop.point = .tx blk a →
    s.producer (txRing blk.dest) = .main → blk.i = 0 → s.block.cnt (txRing blk.dest) + blk.bytes.length ≤ 128 →
    ∃ t, Reaches s t ∧ t.mainOp = none ∧
      t.loop = { s.loop with point := .tx { blk with i := blk.bytes.length } a } ∧
      t.block.content (txRing blk.dest) = s.block.content (txRing blk.dest) ++ blk.bytes ∧
      ∀ r, r ≠ txRing blk.dest → t.block.ring r = s.block.ring r

/-- 43_environment_software.md rule R159 and 60_exceptions.md rule R187: a MAIN held in a TX.BLOCK with
no event to come never gets on. Being held so is kept by every step, which there always is one, and no
step changes the block or MAIN's position; so after any number of steps both are the same, and the machine
has not stopped. -/
def Obligations.HeldMainHangsForEver : Prop :=
  (∀ (s : State) (e : Config.Entry), s.block.cfg = some e → HangInv s →
    ∃ t, step s = .next t ∧ HangInv t ∧ t.block = s.block ∧ t.loop = s.loop) ∧
  (∀ s : State, Hangs s → HangInv s) ∧
  (∀ (s : State) (e : Config.Entry), s.block.cfg = some e → Hangs s →
    ∀ n, ∃ t, runSteps n s = .next t ∧ t.block = s.block ∧ t.loop = s.loop)

/-- 43_environment_software.md rules R164 (L1) and R165, 60_exceptions.md rule R182: a poll of a full
source ring leaves the ring as it is, sends one `RingBuffer Full Error` frame to the PC ring, and
fails. That the failure keeps the name `RingBufferOverflow`, and the last poll its source and result, is
the model's choice (log entry 30). -/
def Obligations.PollOfFullRingReportsOnce : Prop :=
  ∀ (s : State) (e : Config.Entry),
    s.block.cfg = some e → s.Inv → s.mainOp = none → s.agenda = [] → s.loop.point = .l1 →
    s.consumer s.loop.srcRing = .main → s.producer (txRing .pc) = .main →
    s.block.cnt s.loop.srcRing = 128 → s.block.cnt (txRing .pc) + 24 ≤ 128 →
    ∃ t, Reaches s t ∧ t.mainOp = none ∧ t.loop.point = .l1 ∧
      t.loop.src = nextSource s.loop.src ∧
      t.loop.lastPoll = some (s.loop.src, .failure .ringBufferOverflow) ∧
      t.block.ring s.loop.srcRing = s.block.ring s.loop.srcRing ∧
      t.block.content (txRing .pc) =
        s.block.content (txRing .pc) ++ errorFrame s.params.errEtxCount fullErrorText

/-- 43_environment_software.md rule R164 in passthrough mode: a poll of a source ring that is not full,
with room in the PC ring, moves all its bytes unchanged and in order to the PC ring and succeeds. That the
last poll's source and result are kept is the model's choice (log entry 30). -/
def Obligations.PassthroughPollRelaysAllBytes : Prop :=
  ∀ (s : State) (e : Config.Entry),
    s.block.cfg = some e → s.Inv → s.mainOp = none → s.agenda = [] → s.loop.point = .l1 →
    s.consumer s.loop.srcRing = .main → s.producer (txRing .pc) = .main →
    s.params.relayMode = .passthrough → s.block.cnt s.loop.srcRing ≠ 128 →
    s.block.cnt (txRing .pc) + s.block.cnt s.loop.srcRing ≤ 128 →
    ∃ t, Reaches s t ∧ t.mainOp = none ∧ t.loop.point = .l1 ∧
      t.loop.src = nextSource s.loop.src ∧ t.loop.lastPoll = some (s.loop.src, .success) ∧
      t.block.content s.loop.srcRing = [] ∧
      t.block.content (txRing .pc) =
        s.block.content (txRing .pc) ++ s.block.content s.loop.srcRing ∧
      ∀ p, t.block.parser p = s.block.parser p

/-- 43_environment_software.md rule R164 in framed mode: the poll feeds every byte to the source port's
parser and sends each emitted frame, in order, to the PC ring, given room for them. That the last poll's
source and result are kept is the model's choice (log entry 30). -/
def Obligations.FramedPollRelaysFrames : Prop :=
  ∀ (s : State) (e : Config.Entry) (q : Parser) (fs : List (List Byte)),
    s.block.cfg = some e → s.Inv → s.mainOp = none → s.agenda = [] → s.loop.point = .l1 →
    s.consumer s.loop.srcRing = .main → s.producer (txRing .pc) = .main →
    s.params.relayMode = .framed → s.block.cnt s.loop.srcRing ≠ 128 →
    feedAll (sourcePort s.loop.src) e.bitInvert (s.block.content s.loop.srcRing)
      (s.block.parser (sourcePort s.loop.src)) = .ok (q, fs) →
    s.block.cnt (txRing .pc) + fs.flatten.length ≤ 128 →
    ∃ t, Reaches s t ∧ t.mainOp = none ∧ t.loop.point = .l1 ∧
      t.loop.src = nextSource s.loop.src ∧ t.loop.lastPoll = some (s.loop.src, .success) ∧
      t.block.content s.loop.srcRing = [] ∧
      t.block.parser (sourcePort s.loop.src) = q ∧
      t.block.content (txRing .pc) = s.block.content (txRing .pc) ++ fs.flatten

/-- 43_environment_software.md rule R166: the polled source changes only when a poll returns, and then
the next poll begins at its L1. That the last poll's source and result are kept is the model's choice
(log entry 30). -/
def Obligations.PollsAlternate : Prop :=
  ∀ s t : State, step s = .next t → t.loop.src ≠ s.loop.src →
    t.loop.src = nextSource s.loop.src ∧ t.loop.point = .l1 ∧
    ∃ res, t.loop.lastPoll = some (s.loop.src, res)

/-! ## A test harness -/

/-- 00_scope.md rule R14 with 40_ringbuffer.md rules R101 to R110: an operation of a harness's agent taken
micro-step by micro-step with nothing in between ends as the operation run whole does, in the same state
or the same fault; one whose role the agent does not hold is refused as it begins. That the agents are one
producer and one consumer of the ring `Params.harness` is the model's choice (log entry 28). -/
def Obligations.HarnessMicroStepsMeetTheWholeOperation : Prop :=
  ∀ (s : State) (e : Config.Entry) (x : Role) (i : Instr),
    s.block.cfg = some e → s.agenda = [] → s.harnessOps.get x = none →
    let schedule := fun n => { s with agenda := .begin x i :: List.replicate n (.micro x) }
    (s.mayIssue (.harness x) i = true →
      (∀ t, performAs (.harness x) i s = .next t → ∃ n, runSteps (n + 1) (schedule n) = .next t) ∧
      (∀ f, performAs (.harness x) i s = .fault f →
        ∃ n, runSteps (n + 1) (schedule n) = .fault f)) ∧
    (s.mayIssue (.harness x) i = false →
      step (schedule 0) = .next { s with
        answers := s.answers ++ [⟨.harness x, some i, .refused, some .refused⟩] })
end

