-- ==== Sys2Proof/Laws/Encoding.lean ====
section
/-! SUPPORT. The fields of the operation word as numbers, the fields of a word put together from fields,
and the two code tables as inverses of each other (30_encoding.md rules R76, R77). -/

namespace Sys2Proof

/-! ## The fields of a word, by division -/

theorem opField_toNat (w : Word) : (opField w).toNat = w.toNat / 4096 := by
  simp [opField, BitVec.extractLsb'_toNat, Nat.shiftRight_eq_div_pow]; omega

theorem portField_toNat (w : Word) : (portField w).toNat = w.toNat / 1024 % 4 := by
  simp [portField, BitVec.extractLsb'_toNat, Nat.shiftRight_eq_div_pow]

theorem rgField_toNat (w : Word) : (rgField w).toNat = w.toNat / 512 % 2 := by
  simp [rgField, BitVec.extractLsb'_toNat, Nat.shiftRight_eq_div_pow]

theorem zField_toNat (w : Word) : (zField w).toNat = w.toNat / 256 % 2 := by
  simp [zField, BitVec.extractLsb'_toNat, Nat.shiftRight_eq_div_pow]

theorem immField_toNat (w : Word) : (immField w).toNat = w.toNat % 256 := by
  simp [immField, BitVec.extractLsb'_toNat]

/-- A word is its five fields. -/
theorem word_ext {w v : Word} (ho : opField w = opField v) (hp : portField w = portField v)
    (hr : rgField w = rgField v) (hz : zField w = zField v) (hi : immField w = immField v) :
    w = v := by
  apply BitVec.eq_of_toNat_eq
  have h1 := congrArg BitVec.toNat ho
  have h2 := congrArg BitVec.toNat hp
  have h3 := congrArg BitVec.toNat hr
  have h4 := congrArg BitVec.toNat hz
  have h5 := congrArg BitVec.toNat hi
  simp only [opField_toNat, portField_toNat, rgField_toNat, zField_toNat, immField_toNat] at *
  have := w.isLt
  have := v.isLt
  omega

/-! ## A word put together from its fields -/

theorem opWord_toNat (op : BitVec 4) (p : Port) (rg : BitVec 1) (imm : Byte) :
    (opWord op p rg imm).toNat =
      op.toNat * 4096 + (codeOfPort p).toNat * 1024 + rg.toNat * 512 + imm.toNat := by
  have h8 : imm.toNat < 2 ^ 8 := imm.isLt
  have h1 : rg.toNat < 2 ^ 1 := rg.isLt
  have h2 : (codeOfPort p).toNat < 2 ^ 2 := (codeOfPort p).isLt
  simp only [opWord, BitVec.toNat_append]
  rw [← Nat.shiftLeft_add_eq_or_of_lt h8,
    ← Nat.shiftLeft_add_eq_or_of_lt (by decide : (0#1).toNat < 2 ^ 1),
    ← Nat.shiftLeft_add_eq_or_of_lt h1, ← Nat.shiftLeft_add_eq_or_of_lt h2]
  simp only [Nat.shiftLeft_eq]
  simp
  omega

@[simp] theorem opField_opWord (op : BitVec 4) (p : Port) (rg : BitVec 1) (imm : Byte) :
    opField (opWord op p rg imm) = op := by
  apply BitVec.eq_of_toNat_eq
  rw [opField_toNat, opWord_toNat]
  have := rg.isLt; have := imm.isLt; have := (codeOfPort p).isLt
  omega

@[simp] theorem portField_opWord (op : BitVec 4) (p : Port) (rg : BitVec 1) (imm : Byte) :
    portField (opWord op p rg imm) = codeOfPort p := by
  apply BitVec.eq_of_toNat_eq
  rw [portField_toNat, opWord_toNat]
  have := rg.isLt; have := imm.isLt; have := (codeOfPort p).isLt
  omega

@[simp] theorem rgField_opWord (op : BitVec 4) (p : Port) (rg : BitVec 1) (imm : Byte) :
    rgField (opWord op p rg imm) = rg := by
  apply BitVec.eq_of_toNat_eq
  rw [rgField_toNat, opWord_toNat]
  have := rg.isLt; have := imm.isLt
  omega

@[simp] theorem zField_opWord (op : BitVec 4) (p : Port) (rg : BitVec 1) (imm : Byte) :
    zField (opWord op p rg imm) = 0#1 := by
  apply BitVec.eq_of_toNat_eq
  rw [zField_toNat, opWord_toNat]
  have := imm.isLt
  simp
  omega

@[simp] theorem immField_opWord (op : BitVec 4) (p : Port) (rg : BitVec 1) (imm : Byte) :
    immField (opWord op p rg imm) = imm := by
  apply BitVec.eq_of_toNat_eq
  rw [immField_toNat, opWord_toNat]
  have := imm.isLt
  omega

/-! ## The code tables -/

@[simp] theorem portOfCode_codeOfPort (p : Port) : portOfCode (codeOfPort p) = some p := by
  cases p <;> rfl

@[simp] theorem dirOfCode_codeOfDir (d : Dir) : dirOfCode (codeOfDir d) = d := by cases d <;> rfl

@[simp] theorem codeOfDir_dirOfCode (c : BitVec 1) : codeOfDir (dirOfCode c) = c := by
  revert c; decide

theorem codeOfPort_of_portOfCode {c : BitVec 2} {p : Port} (h : portOfCode c = some p) :
    codeOfPort p = c := by
  revert c p
  decide +revert

end Sys2Proof
end

