-- ==== Sys2Proof/Laws/Memory.lean ====
section
/-! SUPPORT. The laws of the byte arrays: a read after a write to the same address gives the value
written, a write leaves every other address alone, and every write keeps the canonical form. -/

namespace Sys2Proof.Machine

@[simp] theorem Memory.read_nil (a : Nat) : Memory.read [] a = none := rfl

@[simp] theorem Memory.read_write_same (m : Memory) (a : Nat) (b : Byte) :
    Memory.read (Memory.write m a b) a = some b := by
  induction m with
  | nil => simp [Memory.write, Memory.read]
  | cons c m ih =>
    obtain ⟨c, x⟩ := c
    simp only [Memory.write]
    split
    · simp [Memory.read]
    · split <;> simp_all [Memory.read]

theorem Memory.read_write_ne (m : Memory) {a a' : Nat} (b : Byte) (h : a' ≠ a) :
    Memory.read (Memory.write m a b) a' = Memory.read m a' := by
  induction m with
  | nil => simp [Memory.write, Memory.read, h]
  | cons c m ih =>
    obtain ⟨c, x⟩ := c
    simp only [Memory.write]
    split
    · simp [Memory.read, h]
    · split
      · simp_all [Memory.read]
      · simp [Memory.read, ih]

theorem Memory.read_write (m : Memory) (a a' : Nat) (b : Byte) :
    Memory.read (Memory.write m a b) a' = if a' = a then some b else Memory.read m a' := by
  by_cases h : a' = a
  · subst h; simp
  · simp [h, Memory.read_write_ne m b h]

theorem Memory.mem_write {m : Memory} {a : Nat} {b : Byte} {c : Host.Cell}
    (h : c ∈ Memory.write m a b) : c = (a, b) ∨ c ∈ m := by
  induction m with
  | nil => simpa [Memory.write] using h
  | cons d m ih =>
    obtain ⟨d, x⟩ := d
    simp only [Memory.write] at h
    split at h
    · simpa using h
    · split at h
      · simp only [List.mem_cons] at h ⊢; tauto
      · simp only [List.mem_cons] at h ⊢
        rcases h with h | h
        · tauto
        · have := ih h; tauto

theorem Memory.wf_nil (size : Nat) : Memory.wf size [] := by simp [Memory.wf]

/-- A write keeps the canonical form. -/
theorem Memory.wf_write {size : Nat} {m : Memory} {a : Nat} (b : Byte) (h : Memory.wf size m)
    (ha : a < size) : Memory.wf size (Memory.write m a b) := by
  refine ⟨?_, fun c hc => ?_⟩
  · replace h := h.1
    induction m with
    | nil => simp [Memory.write]
    | cons d m ih =>
      obtain ⟨d, x⟩ := d
      rw [List.pairwise_cons] at h
      obtain ⟨hd, hm⟩ := h
      simp only [Memory.write]
      split
      · next hlt =>
        refine List.pairwise_cons.2 ⟨fun c hc => ?_, List.pairwise_cons.2 ⟨hd, hm⟩⟩
        rcases List.mem_cons.1 hc with rfl | hc
        · exact hlt
        · exact lt_trans hlt (hd c hc)
      · split
        · next heq => subst heq; exact List.pairwise_cons.2 ⟨hd, hm⟩
        · next hnlt hne =>
          refine List.pairwise_cons.2 ⟨fun c hc => ?_, ih hm⟩
          rcases Memory.mem_write hc with rfl | hc
          · exact lt_of_le_of_ne (not_lt.1 hnlt) (Ne.symm hne)
          · exact hd c hc
  · rcases Memory.mem_write hc with rfl | hc
    · exact ha
    · exact h.2 c hc

end Sys2Proof.Machine
end

