-- ==== Sys2Proof/Laws/State.lean ====
section
/-! SUPPORT. One lemma per field per update of the state, and the read-after-write laws of the named
accessors (10_state.md rule R21: rings, parsers and ports are independent of one another). -/

namespace Sys2Proof.Machine

/-! ## Per-port values -/

@[simp] theorem PerPort.get_set_same {α : Type} (v : PerPort α) (p : Port) (x : α) :
    (v.set p x).get p = x := by cases p <;> rfl

theorem PerPort.get_set_ne {α : Type} (v : PerPort α) {p q : Port} (x : α) (h : q ≠ p) :
    (v.set p x).get q = v.get q := by
  cases p <;> cases q <;> first | rfl | exact absurd rfl h

theorem PerPort.get_set {α : Type} (v : PerPort α) (p q : Port) (x : α) :
    (v.set p x).get q = if q = p then x else v.get q := by
  by_cases h : q = p
  · subst h; simp
  · simp [h, PerPort.get_set_ne v x h]

@[simp] theorem PerPort.set_get {α : Type} (v : PerPort α) (p : Port) : v.set p (v.get p) = v := by
  cases p <;> rfl

@[simp] theorem PerPort.set_set {α : Type} (v : PerPort α) (p : Port) (x y : α) :
    (v.set p x).set p y = v.set p y := by cases p <;> rfl

theorem PerPort.set_comm {α : Type} (v : PerPort α) {p q : Port} (x y : α) (h : p ≠ q) :
    (v.set p x).set q y = (v.set q y).set p x := by
  cases p <;> cases q <;> first | rfl | exact absurd rfl h

@[simp] theorem PerPort.get_all {α : Type} (x : α) (p : Port) : (PerPort.all x).get p = x := by
  cases p <;> rfl

/-! ## Replacing a ring -/

@[simp] theorem Block.ring_setRing_same (k : Block) (r : RingId) (g : Ring) :
    (k.setRing r g).ring r = g := by
  obtain ⟨p, d⟩ := r
  cases d <;> simp [Block.ring, Block.setRing]

theorem Block.ring_setRing_ne (k : Block) {r r' : RingId} (g : Ring) (h : r' ≠ r) :
    (k.setRing r g).ring r' = k.ring r' := by
  obtain ⟨p, d⟩ := r
  obtain ⟨p', d'⟩ := r'
  cases d <;> cases d' <;>
    simp_all [Block.ring, Block.setRing, PerPort.get_set_ne]

@[simp] theorem Block.setRing_ring (k : Block) (r : RingId) : k.setRing r (k.ring r) = k := by
  obtain ⟨p, d⟩ := r
  cases d <;> simp [Block.ring, Block.setRing]

@[simp] theorem Block.setRing_setRing (k : Block) (r : RingId) (g g' : Ring) :
    (k.setRing r g).setRing r g' = k.setRing r g' := by
  obtain ⟨p, d⟩ := r
  cases d <;> simp [Block.setRing]

@[simp] theorem Block.setRing_parsers (k : Block) (r : RingId) (g : Ring) :
    (k.setRing r g).parsers = k.parsers := by
  obtain ⟨p, d⟩ := r; cases d <;> rfl

@[simp] theorem Block.setRing_deMaster (k : Block) (r : RingId) (g : Ring) :
    (k.setRing r g).deMaster = k.deMaster := by
  obtain ⟨p, d⟩ := r; cases d <;> rfl

@[simp] theorem Block.setRing_deSlave (k : Block) (r : RingId) (g : Ring) :
    (k.setRing r g).deSlave = k.deSlave := by
  obtain ⟨p, d⟩ := r; cases d <;> rfl

@[simp] theorem Block.setRing_cfg (k : Block) (r : RingId) (g : Ring) :
    (k.setRing r g).cfg = k.cfg := by
  obtain ⟨p, d⟩ := r; cases d <;> rfl

@[simp] theorem Block.setRing_wire (k : Block) (r : RingId) (g : Ring) :
    (k.setRing r g).wire = k.wire := by
  obtain ⟨p, d⟩ := r; cases d <;> rfl

@[simp] theorem Block.setRing_parser (k : Block) (r : RingId) (g : Ring) (p : Port) :
    (k.setRing r g).parser p = k.parser p := by simp [Block.parser]

@[simp] theorem Block.setRing_de (k : Block) (r : RingId) (g : Ring) (p : Port) :
    (k.setRing r g).de p = k.de p := by cases p <;> simp [Block.de]

@[simp] theorem Block.setRing_wireOf (k : Block) (r : RingId) (g : Ring) (p : Port) :
    (k.setRing r g).wireOf p = k.wireOf p := by simp [Block.wireOf]

/-! ## The ring registers and slots -/

@[simp] theorem Block.ring_setHead (k : Block) (r : RingId) (v : Index) :
    (k.setHead r v).ring r = { k.ring r with head := v } := by simp [Block.setHead]

@[simp] theorem Block.ring_setTail (k : Block) (r : RingId) (v : Index) :
    (k.setTail r v).ring r = { k.ring r with tail := v } := by simp [Block.setTail]

@[simp] theorem Block.ring_writeSlot (k : Block) (r : RingId) (i : Index) (b : Byte) :
    (k.writeSlot r i b).ring r =
      { k.ring r with slots := Memory.write (k.ring r).slots (slotOf i) b } := by
  simp [Block.writeSlot]

theorem Block.ring_setHead_ne (k : Block) {r r' : RingId} (v : Index) (h : r' ≠ r) :
    (k.setHead r v).ring r' = k.ring r' := Block.ring_setRing_ne k _ h

theorem Block.ring_setTail_ne (k : Block) {r r' : RingId} (v : Index) (h : r' ≠ r) :
    (k.setTail r v).ring r' = k.ring r' := Block.ring_setRing_ne k _ h

theorem Block.ring_writeSlot_ne (k : Block) {r r' : RingId} (i : Index) (b : Byte) (h : r' ≠ r) :
    (k.writeSlot r i b).ring r' = k.ring r' := Block.ring_setRing_ne k _ h

@[simp] theorem Block.head_setHead (k : Block) (r : RingId) (v : Index) :
    (k.setHead r v).head r = v := by simp [Block.head]

@[simp] theorem Block.tail_setHead (k : Block) (r : RingId) (v : Index) :
    (k.setHead r v).tail r = k.tail r := by simp [Block.tail]

@[simp] theorem Block.tail_setTail (k : Block) (r : RingId) (v : Index) :
    (k.setTail r v).tail r = v := by simp [Block.tail]

@[simp] theorem Block.head_setTail (k : Block) (r : RingId) (v : Index) :
    (k.setTail r v).head r = k.head r := by simp [Block.head]

@[simp] theorem Block.head_writeSlot (k : Block) (r : RingId) (i : Index) (b : Byte) :
    (k.writeSlot r i b).head r = k.head r := by simp [Block.head]

@[simp] theorem Block.tail_writeSlot (k : Block) (r : RingId) (i : Index) (b : Byte) :
    (k.writeSlot r i b).tail r = k.tail r := by simp [Block.tail]

/-! ## Parsers, driver enables, wires, configuration -/

@[simp] theorem Block.parser_setParser_same (k : Block) (p : Port) (q : Parser) :
    (k.setParser p q).parser p = q := by simp [Block.parser, Block.setParser]

theorem Block.parser_setParser_ne (k : Block) {p p' : Port} (q : Parser) (h : p' ≠ p) :
    (k.setParser p q).parser p' = k.parser p' := PerPort.get_set_ne _ _ h

@[simp] theorem Block.setParser_rx (k : Block) (p : Port) (q : Parser) :
    (k.setParser p q).rx = k.rx := rfl

@[simp] theorem Block.setParser_tx (k : Block) (p : Port) (q : Parser) :
    (k.setParser p q).tx = k.tx := rfl

@[simp] theorem Block.setParser_cfg (k : Block) (p : Port) (q : Parser) :
    (k.setParser p q).cfg = k.cfg := rfl

@[simp] theorem Block.setParser_wire (k : Block) (p : Port) (q : Parser) :
    (k.setParser p q).wire = k.wire := rfl

@[simp] theorem Block.setParser_ring (k : Block) (p : Port) (q : Parser) (r : RingId) :
    (k.setParser p q).ring r = k.ring r := rfl

@[simp] theorem Block.setParser_de (k : Block) (p p' : Port) (q : Parser) :
    (k.setParser p q).de p' = k.de p' := by cases p' <;> rfl

@[simp] theorem Block.setParser_wireOf (k : Block) (p p' : Port) (q : Parser) :
    (k.setParser p q).wireOf p' = k.wireOf p' := rfl

@[simp] theorem Block.setDe_rx (k : Block) (p : Port) (v : Bool) : (k.setDe p v).rx = k.rx := by
  cases p <;> rfl

@[simp] theorem Block.setDe_tx (k : Block) (p : Port) (v : Bool) : (k.setDe p v).tx = k.tx := by
  cases p <;> rfl

@[simp] theorem Block.setDe_parsers (k : Block) (p : Port) (v : Bool) :
    (k.setDe p v).parsers = k.parsers := by cases p <;> rfl

@[simp] theorem Block.setDe_cfg (k : Block) (p : Port) (v : Bool) :
    (k.setDe p v).cfg = k.cfg := by cases p <;> rfl

@[simp] theorem Block.setDe_wire (k : Block) (p : Port) (v : Bool) :
    (k.setDe p v).wire = k.wire := by cases p <;> rfl

@[simp] theorem Block.setDe_ring (k : Block) (p : Port) (v : Bool) (r : RingId) :
    (k.setDe p v).ring r = k.ring r := by simp [Block.ring]

@[simp] theorem Block.setDe_parser (k : Block) (p p' : Port) (v : Bool) :
    (k.setDe p v).parser p' = k.parser p' := by simp [Block.parser]

@[simp] theorem Block.setDe_wireOf (k : Block) (p p' : Port) (v : Bool) :
    (k.setDe p v).wireOf p' = k.wireOf p' := by simp [Block.wireOf]

theorem Block.de_setDe_same (k : Block) (p : Port) (v : Bool) (h : p ≠ .pc) :
    (k.setDe p v).de p = some v := by cases p <;> first | rfl | exact absurd rfl h

theorem Block.de_setDe_ne (k : Block) {p p' : Port} (v : Bool) (h : p' ≠ p) :
    (k.setDe p v).de p' = k.de p' := by
  cases p <;> cases p' <;> first | rfl | exact absurd rfl h

@[simp] theorem Block.pushWire_ring (k : Block) (p : Port) (b : Byte) (r : RingId) :
    (k.pushWire p b).ring r = k.ring r := rfl

@[simp] theorem Block.pushWire_parser (k : Block) (p p' : Port) (b : Byte) :
    (k.pushWire p b).parser p' = k.parser p' := rfl

@[simp] theorem Block.pushWire_cfg (k : Block) (p : Port) (b : Byte) :
    (k.pushWire p b).cfg = k.cfg := rfl

@[simp] theorem Block.pushWire_de (k : Block) (p p' : Port) (b : Byte) :
    (k.pushWire p b).de p' = k.de p' := by cases p' <;> rfl

@[simp] theorem Block.wireOf_pushWire_same (k : Block) (p : Port) (b : Byte) :
    (k.pushWire p b).wireOf p = k.wireOf p ++ [b] := by simp [Block.wireOf, Block.pushWire]

theorem Block.wireOf_pushWire_ne (k : Block) {p p' : Port} (b : Byte) (h : p' ≠ p) :
    (k.pushWire p b).wireOf p' = k.wireOf p' := PerPort.get_set_ne _ _ h

/-! ## The whole state -/

@[simp] theorem State.withBlock_block (s : State) (k : Block) : (s.withBlock k).block = k := rfl
@[simp] theorem State.withBlock_mainOp (s : State) (k : Block) :
    (s.withBlock k).mainOp = s.mainOp := rfl
@[simp] theorem State.withBlock_harnessOps (s : State) (k : Block) :
    (s.withBlock k).harnessOps = s.harnessOps := rfl
@[simp] theorem State.withBlock_loop (s : State) (k : Block) : (s.withBlock k).loop = s.loop := rfl
@[simp] theorem State.withBlock_params (s : State) (k : Block) :
    (s.withBlock k).params = s.params := rfl
@[simp] theorem State.withBlock_agenda (s : State) (k : Block) :
    (s.withBlock k).agenda = s.agenda := rfl
@[simp] theorem State.withBlock_answers (s : State) (k : Block) :
    (s.withBlock k).answers = s.answers := rfl

@[simp] theorem State.answer_block (s : State) (a : Agent) (op : Option Instr) (resp : Response)
    (c : Option Condition) : (s.answer a op resp c).block = s.block := rfl
@[simp] theorem State.answer_mainOp (s : State) (a : Agent) (op : Option Instr) (resp : Response)
    (c : Option Condition) : (s.answer a op resp c).mainOp = s.mainOp := rfl
@[simp] theorem State.answer_harnessOps (s : State) (a : Agent) (op : Option Instr) (resp : Response)
    (c : Option Condition) : (s.answer a op resp c).harnessOps = s.harnessOps := rfl
@[simp] theorem State.answer_loop (s : State) (a : Agent) (op : Option Instr) (resp : Response)
    (c : Option Condition) : (s.answer a op resp c).loop = s.loop := rfl
@[simp] theorem State.answer_params (s : State) (a : Agent) (op : Option Instr) (resp : Response)
    (c : Option Condition) : (s.answer a op resp c).params = s.params := rfl
@[simp] theorem State.answer_agenda (s : State) (a : Agent) (op : Option Instr) (resp : Response)
    (c : Option Condition) : (s.answer a op resp c).agenda = s.agenda := rfl
@[simp] theorem State.answer_answers (s : State) (a : Agent) (op : Option Instr) (resp : Response)
    (c : Option Condition) : (s.answer a op resp c).answers = s.answers ++ [⟨a, op, resp, c⟩] := rfl

@[simp] theorem State.refuse_block (s : State) (a : Agent) (i : Instr) :
    (s.refuse a i).block = s.block := rfl
@[simp] theorem State.refuse_mainOp (s : State) (a : Agent) (i : Instr) :
    (s.refuse a i).mainOp = s.mainOp := rfl
@[simp] theorem State.refuse_harnessOps (s : State) (a : Agent) (i : Instr) :
    (s.refuse a i).harnessOps = s.harnessOps := rfl
@[simp] theorem State.refuse_loop (s : State) (a : Agent) (i : Instr) :
    (s.refuse a i).loop = s.loop := rfl
@[simp] theorem State.refuse_params (s : State) (a : Agent) (i : Instr) :
    (s.refuse a i).params = s.params := rfl
@[simp] theorem State.refuse_agenda (s : State) (a : Agent) (i : Instr) :
    (s.refuse a i).agenda = s.agenda := rfl

@[simp] theorem State.answerIllegal_block (s : State) (f : Iface) :
    (s.answerIllegal f).block = s.block := rfl
@[simp] theorem State.answerIllegal_mainOp (s : State) (f : Iface) :
    (s.answerIllegal f).mainOp = s.mainOp := rfl
@[simp] theorem State.answerIllegal_harnessOps (s : State) (f : Iface) :
    (s.answerIllegal f).harnessOps = s.harnessOps := rfl
@[simp] theorem State.answerIllegal_loop (s : State) (f : Iface) :
    (s.answerIllegal f).loop = s.loop := rfl
@[simp] theorem State.answerIllegal_params (s : State) (f : Iface) :
    (s.answerIllegal f).params = s.params := rfl
@[simp] theorem State.answerIllegal_agenda (s : State) (f : Iface) :
    (s.answerIllegal f).agenda = s.agenda := rfl

@[simp] theorem State.deliver_block (s : State) (o : Owner) (resp : Response) :
    (s.deliver o resp).block = s.block := by cases o <;> rfl
@[simp] theorem State.deliver_mainOp (s : State) (o : Owner) (resp : Response) :
    (s.deliver o resp).mainOp = s.mainOp := by cases o <;> rfl
@[simp] theorem State.deliver_harnessOps (s : State) (o : Owner) (resp : Response) :
    (s.deliver o resp).harnessOps = s.harnessOps := by cases o <;> rfl
@[simp] theorem State.deliver_params (s : State) (o : Owner) (resp : Response) :
    (s.deliver o resp).params = s.params := by cases o <;> rfl
@[simp] theorem State.deliver_agenda (s : State) (o : Owner) (resp : Response) :
    (s.deliver o resp).agenda = s.agenda := by cases o <;> rfl
@[simp] theorem State.deliver_answers (s : State) (o : Owner) (resp : Response) :
    (s.deliver o resp).answers = s.answers := by cases o <;> rfl

@[simp] theorem State.setHarnessOp_block (s : State) (x : Role) (m : Option Micro) :
    (s.setHarnessOp x m).block = s.block := rfl
@[simp] theorem State.setHarnessOp_mainOp (s : State) (x : Role) (m : Option Micro) :
    (s.setHarnessOp x m).mainOp = s.mainOp := rfl
@[simp] theorem State.setHarnessOp_harnessOps (s : State) (x : Role) (m : Option Micro) :
    (s.setHarnessOp x m).harnessOps = s.harnessOps.set x m := rfl
@[simp] theorem State.setHarnessOp_loop (s : State) (x : Role) (m : Option Micro) :
    (s.setHarnessOp x m).loop = s.loop := rfl
@[simp] theorem State.setHarnessOp_params (s : State) (x : Role) (m : Option Micro) :
    (s.setHarnessOp x m).params = s.params := rfl
@[simp] theorem State.setHarnessOp_agenda (s : State) (x : Role) (m : Option Micro) :
    (s.setHarnessOp x m).agenda = s.agenda := rfl
@[simp] theorem State.setHarnessOp_answers (s : State) (x : Role) (m : Option Micro) :
    (s.setHarnessOp x m).answers = s.answers := rfl

/-! ## Operations in progress -/

@[simp] theorem HarnessOps.get_set_same (v : HarnessOps) (x : Role) (m : Option Micro) :
    (v.set x m).get x = m := by cases x <;> rfl

theorem HarnessOps.get_set_ne (v : HarnessOps) {x y : Role} (m : Option Micro) (h : y ≠ x) :
    (v.set x m).get y = v.get y := by cases x <;> cases y <;> first | rfl | exact absurd rfl h

@[simp] theorem HarnessOps.set_get (v : HarnessOps) (x : Role) : v.set x (v.get x) = v := by
  cases x <;> rfl

@[simp] theorem HarnessOps.set_set (v : HarnessOps) (x : Role) (m m' : Option Micro) :
    (v.set x m).set x m' = v.set x m' := by cases x <;> rfl

theorem State.opOf_congr {s t : State} (h : t.mainOp = s.mainOp) (h' : t.harnessOps = s.harnessOps)
    (a : Agent) : t.opOf a = s.opOf a := by cases a <;> simp [State.opOf, h, h']

@[simp] theorem State.opOf_main (s : State) : s.opOf .main = s.mainOp.map InFlight.micro := rfl
@[simp] theorem State.opOf_irq (s : State) (p : Port) : s.opOf (.irq p) = none := rfl
@[simp] theorem State.opOf_harness (s : State) (x : Role) :
    s.opOf (.harness x) = s.harnessOps.get x := rfl

/-! ## Roles (10_state.md rule R28) -/

@[simp] theorem producer_none (r : RingId) : producer none r = systemProducer r := rfl
@[simp] theorem consumer_none (r : RingId) : consumer none r = systemConsumer r := rfl

@[simp] theorem producer_harness (r : RingId) : producer (some r) r = .harness .producer := by
  simp [producer]
@[simp] theorem consumer_harness (r : RingId) : consumer (some r) r = .harness .consumer := by
  simp [consumer]

/-- Off the harness's ring the producer is the system's. -/
theorem producer_system {h : Option RingId} {r : RingId} (n : h ≠ some r) :
    producer h r = systemProducer r := by simp [producer, n]

/-- Off the harness's ring the consumer is the system's. -/
theorem consumer_system {h : Option RingId} {r : RingId} (n : h ≠ some r) :
    consumer h r = systemConsumer r := by simp [consumer, n]

/-- One agent never holds both roles of a ring. -/
theorem producer_ne_consumer (h : Option RingId) (r : RingId) : producer h r ≠ consumer h r := by
  obtain ⟨p, d⟩ := r
  unfold producer consumer
  split
  · simp
  · cases d <;> simp [systemProducer, systemConsumer]

/-- A handler's role is on its own port's ring, in the direction the system gives it. -/
theorem producer_irq {h : Option RingId} {r : RingId} {p : Port} (e : Agent.irq p = producer h r) :
    r = rxRing p := by
  obtain ⟨q, d⟩ := r
  unfold producer at e
  split at e
  · cases e
  · cases d <;> simp [systemProducer] at e; rw [e]

theorem consumer_irq {h : Option RingId} {r : RingId} {p : Port} (e : Agent.irq p = consumer h r) :
    r = txRing p := by
  obtain ⟨q, d⟩ := r
  unfold consumer at e
  split at e
  · cases e
  · cases d <;> simp [systemConsumer] at e; rw [e]

/-- MAIN produces only for transmit rings and consumes only from receive rings. -/
theorem producer_main {h : Option RingId} {r : RingId} (e : Agent.main = producer h r) :
    r.dir = .tx ∧ h ≠ some r := by
  obtain ⟨q, d⟩ := r
  unfold producer at e
  split at e
  · cases e
  · next n => cases d <;> simp [systemProducer] at e; exact ⟨rfl, n⟩

theorem consumer_main {h : Option RingId} {r : RingId} (e : Agent.main = consumer h r) :
    r.dir = .rx ∧ h ≠ some r := by
  obtain ⟨q, d⟩ := r
  unfold consumer at e
  split at e
  · cases e
  · next n => cases d <;> simp [systemConsumer] at e; exact ⟨rfl, n⟩

end Sys2Proof.Machine
end

