-- ==== Sys2Proof/Laws/Ring.lean ====
section
/-! SUPPORT. Index arithmetic and what the ring operations do to `content(r)`
(40_ringbuffer.md rules R101, R103, R107, R108). -/

namespace Sys2Proof.Machine

/-! ## Index arithmetic (rule R107) -/

theorem indexDiff_lt (t h : Index) : indexDiff t h < 256 := (t - h).isLt

@[simp] theorem indexDiff_self (t : Index) : indexDiff t t = 0 := by simp [indexDiff]

theorem indexDiff_eq_zero {t h : Index} : indexDiff t h = 0 ↔ t = h := by
  simp only [indexDiff]
  constructor
  · intro e; bv_omega
  · rintro rfl; simp

theorem indexDiff_succ_tail {t h : Index} (c : indexDiff t h < 255) :
    indexDiff (t + 1#8) h = indexDiff t h + 1 := by
  simp only [indexDiff] at *; bv_omega

theorem indexDiff_add_head {t h : Index} {n : Nat} (c : n ≤ indexDiff t h) :
    indexDiff t (h + BitVec.ofNat 8 n) = indexDiff t h - n := by
  simp only [indexDiff] at *; bv_omega

theorem indexFull_iff {t h : Index} : indexFull t h = true ↔ indexDiff t h = Config.capacity := by
  simp [indexFull]

theorem slotOf_lt (i : Index) : slotOf i < Config.capacity := Nat.mod_lt _ (by decide)

theorem head_add_indexDiff (t h : Index) : h + BitVec.ofNat 8 (indexDiff t h) = t := by
  simp only [indexDiff]; bv_omega

/-- Positions less than 128 apart have different slots. -/
theorem slotOf_add_ne {h : Index} {i j : Nat} (hij : i < j) (hj : j < i + 128) :
    slotOf (h + BitVec.ofNat 8 i) ≠ slotOf (h + BitVec.ofNat 8 j) := by
  simp only [slotOf, BitVec.toNat_add, BitVec.toNat_ofNat, Config.capacity]
  omega

/-! ## The queued bytes -/

theorem Ring.item_add (g : Ring) (n i : Nat) :
    ({ g with head := g.head + BitVec.ofNat 8 n } : Ring).item i = g.item (n + i) := by
  simp only [Ring.item]
  rw [show g.head + BitVec.ofNat 8 n + BitVec.ofNat 8 i = g.head + BitVec.ofNat 8 (n + i) by
    bv_omega]

theorem filterMap_range_length {α : Type} (f : Nat → Option α) (n : Nat)
    (h : ∀ i < n, (f i).isSome) : ((List.range n).filterMap f).length = n := by
  induction n with
  | zero => rfl
  | succ n ih =>
    obtain ⟨x, hx⟩ := Option.isSome_iff_exists.1 (h n (Nat.lt_succ_self n))
    simp [List.range_succ, ih fun i hi => h i (Nat.lt_succ_of_lt hi), hx]

/-- Every queued position holds a byte, so the content is as long as the count. -/
theorem Ring.content_length {g : Ring} (h : ∀ i < g.cnt, (g.item i).isSome) :
    g.content.length = g.cnt := filterMap_range_length _ _ h

theorem filterMap_range_split {α : Type} (f : Nat → Option α) (n m : Nat)
    (h : ∀ i < n, (f i).isSome) :
    (List.range m).filterMap (fun i => f (n + i)) = ((List.range (n + m)).filterMap f).drop n := by
  rw [List.range_add, List.filterMap_append, List.filterMap_map,
    List.drop_left' (filterMap_range_length f n h)]
  rfl

theorem filterMap_range_take {α : Type} (f : Nat → Option α) (n m : Nat)
    (h : ∀ i < n, (f i).isSome) (hn : n ≤ m) :
    (List.range n).filterMap f = ((List.range m).filterMap f).take n := by
  obtain ⟨d, rfl⟩ := Nat.exists_eq_add_of_le hn
  rw [List.range_add, List.filterMap_append, List.take_left' (filterMap_range_length f n h)]

/-- Advancing `head` past `n` queued bytes drops them (micro-step R5). -/
theorem Ring.content_advance {g : Ring} {n : Nat} (hn : n ≤ g.cnt)
    (h : ∀ i < g.cnt, (g.item i).isSome) :
    ({ g with head := g.head + BitVec.ofNat 8 n } : Ring).content = g.content.drop n := by
  have hc : ({ g with head := g.head + BitVec.ofNat 8 n } : Ring).cnt = g.cnt - n :=
    indexDiff_add_head hn
  rw [Ring.content, hc]
  simp only [Ring.item_add]
  rw [filterMap_range_split g.item n (g.cnt - n) (fun i hi => h i (lt_of_lt_of_le hi hn))]
  rw [Nat.add_sub_cancel' hn, Ring.content]

theorem Ring.tail_eq (g : Ring) : g.head + BitVec.ofNat 8 g.cnt = g.tail :=
  head_add_indexDiff g.tail g.head

/-- Writing the slot of `tail` disturbs no queued byte (micro-step W4). -/
theorem Ring.item_writeTail {g : Ring} (b : Byte) (hc : g.cnt < Config.capacity) {i : Nat}
    (hi : i < g.cnt) :
    ({ g with slots := Memory.write g.slots (slotOf g.tail) b } : Ring).item i = g.item i := by
  simp only [Ring.item]
  refine Memory.read_write_ne _ _ ?_
  rw [← Ring.tail_eq g]
  exact slotOf_add_ne hi (by simp only [Config.capacity] at hc; omega)

theorem Ring.content_writeTail {g : Ring} (b : Byte) (hc : g.cnt < Config.capacity) :
    ({ g with slots := Memory.write g.slots (slotOf g.tail) b } : Ring).content = g.content := by
  refine List.filterMap_congr fun i hi => ?_
  exact Ring.item_writeTail b hc (List.mem_range.1 hi)

/-- Moving `tail` over a slot that holds `b` appends `b` (micro-step W5). -/
theorem Ring.content_moveTail {g : Ring} {b : Byte} (hc : g.cnt < Config.capacity)
    (hb : Memory.read g.slots (slotOf g.tail) = some b) :
    ({ g with tail := g.tail + 1#8 } : Ring).content = g.content ++ [b] := by
  have hcnt : ({ g with tail := g.tail + 1#8 } : Ring).cnt = g.cnt + 1 :=
    indexDiff_succ_tail (lt_trans (show indexDiff g.tail g.head < 128 from hc) (by decide))
  have hitem : ({ g with tail := g.tail + 1#8 } : Ring).item = g.item := rfl
  have hlast : g.item g.cnt = some b := by rw [Ring.item, Ring.tail_eq]; exact hb
  rw [Ring.content, hcnt, hitem, List.range_succ, List.filterMap_append]
  simp [hlast, Ring.content]

/-! ## The invariant of a ring under the writes of its registers and slots -/

theorem Ring.Inv.advance {g : Ring} (hg : g.Inv) {n : Nat} (hn : n ≤ g.cnt) :
    ({ g with head := g.head + BitVec.ofNat 8 n } : Ring).Inv := by
  have hc : ({ g with head := g.head + BitVec.ofNat 8 n } : Ring).cnt = g.cnt - n :=
    indexDiff_add_head hn
  refine ⟨by rw [hc]; exact le_trans (Nat.sub_le _ _) hg.1, fun i hi => ?_, hg.2.2⟩
  rw [hc] at hi
  rw [Ring.item_add]
  exact hg.2.1 _ (by omega)

theorem Ring.Inv.writeTail {g : Ring} (hg : g.Inv) (b : Byte) (hc : g.cnt < Config.capacity) :
    ({ g with slots := Memory.write g.slots (slotOf g.tail) b } : Ring).Inv :=
  ⟨hg.1, fun i hi => by rw [Ring.item_writeTail b hc hi]; exact hg.2.1 i hi,
    Memory.wf_write b hg.2.2 (slotOf_lt _)⟩

theorem Ring.Inv.moveTail {g : Ring} (hg : g.Inv) {b : Byte} (hc : g.cnt < Config.capacity)
    (hb : Memory.read g.slots (slotOf g.tail) = some b) :
    ({ g with tail := g.tail + 1#8 } : Ring).Inv := by
  have hcnt : ({ g with tail := g.tail + 1#8 } : Ring).cnt = g.cnt + 1 :=
    indexDiff_succ_tail (lt_trans (show indexDiff g.tail g.head < 128 from hc) (by decide))
  refine ⟨by rw [hcnt]; exact hc, fun i hi => ?_, hg.2.2⟩
  rw [hcnt] at hi
  change (g.item i).isSome
  rcases Nat.lt_succ_iff_lt_or_eq.1 hi with h | rfl
  · exact hg.2.1 i h
  · rw [Ring.item, Ring.tail_eq, hb]; rfl

/-! ## The whole operations -/

/-- A rejected RB.WRITE changes nothing (rule R101 (a)). -/
theorem rbWrite_full {r : RingId} {b : Byte} {k : Block} (h : k.cnt r = Config.capacity) :
    rbWrite r b k = (k, false) := by
  have : indexFull (k.tail r) (k.head r) = true := indexFull_iff.2 h
  simp [rbWrite, this]

/-- An accepted RB.WRITE writes the slot of `tail`, then moves `tail` (rule R101). -/
theorem rbWrite_room {r : RingId} {b : Byte} {k : Block} (h : k.cnt r ≠ Config.capacity) :
    rbWrite r b k = ((k.writeSlot r (k.tail r) b).setTail r (k.tail r + 1#8), true) := by
  have : indexFull (k.tail r) (k.head r) = false := by
    rw [Bool.eq_false_iff]; exact fun e => h (indexFull_iff.1 e)
  simp [rbWrite, this]

theorem rbWrite_room_ring {r : RingId} {b : Byte} {k : Block} (h : k.cnt r ≠ Config.capacity) :
    (rbWrite r b k).1.ring r =
      { head := k.head r, tail := k.tail r + 1#8,
        slots := Memory.write (k.ring r).slots (slotOf (k.tail r)) b } := by
  rw [rbWrite_room h]
  simp [Block.head]

/-- An accepted RB.WRITE appends its byte to the content (rule R108). -/
theorem rbWrite_room_content {r : RingId} {b : Byte} {k : Block} (hk : (k.ring r).Inv)
    (h : k.cnt r ≠ Config.capacity) : (rbWrite r b k).1.content r = k.content r ++ [b] := by
  have hc : (k.ring r).cnt < Config.capacity := lt_of_le_of_ne hk.1 h
  rw [Block.content, rbWrite_room_ring h]
  have h1 := Ring.content_moveTail (g := { k.ring r with
    slots := Memory.write (k.ring r).slots (slotOf (k.ring r).tail) b }) (b := b) hc (by simp)
  rw [Ring.content_writeTail b hc] at h1
  exact h1

theorem rbWrite_ring_ne {r r' : RingId} (b : Byte) (k : Block) (h : r' ≠ r) :
    (rbWrite r b k).1.ring r' = k.ring r' := by
  unfold rbWrite
  split
  · rfl
  · simp [Block.ring_setTail_ne _ _ h, Block.ring_writeSlot_ne _ _ _ h]

theorem rbWrite_inv {r : RingId} (b : Byte) {k : Block} (hk : (k.ring r).Inv) :
    ((rbWrite r b k).1.ring r).Inv := by
  by_cases h : k.cnt r = Config.capacity
  · rw [rbWrite_full h]; exact hk
  · have hc : (k.ring r).cnt < Config.capacity := lt_of_le_of_ne hk.1 h
    rw [rbWrite_room_ring h]
    exact (hk.writeTail b hc).moveTail (b := b) hc (by simp)

/-- Reading `n` queued positions yields the first `n` bytes of the content from `i` on (R4). -/
theorem readSlots_eq {k : Block} {r : RingId} (n : Nat) :
    ∀ i, (∀ j < n, ((k.ring r).item (i + j)).isSome) →
      readSlots k r (k.head r) i n =
        .ok ((List.range n).filterMap fun j => (k.ring r).item (i + j)) := by
  induction n with
  | zero => intro i _; rfl
  | succ n ih =>
    intro i h
    obtain ⟨b, hb⟩ := Option.isSome_iff_exists.1 (h 0 (Nat.succ_pos n))
    have hrest := ih (i + 1) fun j hj => by
      have := h (j + 1) (by omega)
      rwa [show i + (j + 1) = i + 1 + j by omega] at this
    have hslot : k.readSlot r (k.head r + BitVec.ofNat 8 i) = some b := hb
    rw [readSlots, hslot]
    simp only [hrest]
    rw [List.range_succ_eq_map, List.filterMap_cons, List.filterMap_map]
    have hb' : (k.ring r).item (i + 0) = some b := hb
    simp only [hb', Function.comp_def]
    congr 1
    congr 1
    refine List.filterMap_congr fun j _ => ?_
    congr 1
    omega

theorem readCount_le (m : Nat) (t h : Index) : readCount m t h ≤ indexDiff t h :=
  Nat.min_le_right _ _

/-- RB.READ of a ring whose queued slots hold values: the first `n` bytes of the content are returned
and `head` moves past them, `n` being the smaller of `maxCount` and the count (rule R103). -/
theorem rbRead_eq {r : RingId} (m : Nat) {k : Block}
    (hk : ∀ i < k.cnt r, ((k.ring r).item i).isSome) :
    rbRead r m k =
      .ok (k.setHead r (k.head r + BitVec.ofNat 8 (min m (k.cnt r))), (k.content r).take m) := by
  have hn : readCount m (k.tail r) (k.head r) = min m (k.cnt r) := rfl
  have hle : min m (k.cnt r) ≤ k.cnt r := Nat.min_le_right _ _
  have hread := readSlots_eq (k := k) (r := r) (min m (k.cnt r)) 0 fun j hj => by
    simpa using hk j (lt_of_lt_of_le hj hle)
  simp only [Nat.zero_add] at hread
  have htake := filterMap_range_take (k.ring r).item (min m (k.cnt r)) (k.cnt r)
    (fun i hi => hk i (lt_of_lt_of_le hi hle)) hle
  have hlen : (k.content r).length = k.cnt r := Ring.content_length hk
  rw [rbRead, hn]
  simp only [hread, htake]
  congr 2
  change (k.content r).take _ = _
  rcases Nat.le_total m (k.cnt r) with h | h
  · rw [Nat.min_eq_left h]
  · rw [Nat.min_eq_right h, List.take_of_length_le (le_of_eq hlen),
      List.take_of_length_le (by omega)]

/-- RB.READ removes the bytes it returns from the front of the content (rule R108). -/
theorem setHead_content {r : RingId} {k : Block} {n : Nat} (hn : n ≤ k.cnt r)
    (hk : ∀ i < k.cnt r, ((k.ring r).item i).isSome) :
    (k.setHead r (k.head r + BitVec.ofNat 8 n)).content r = (k.content r).drop n := by
  rw [Block.content, Block.ring_setHead]
  exact Ring.content_advance hn hk

end Sys2Proof.Machine
end

