-- ==== Sys2Proof/Laws/Operations.lean ====
section
/-! SUPPORT. What each operation can do, said once: one equation for the refused and the allowed case of
each abstract operation, and one inversion for an operation that answers a next state. -/

namespace Sys2Proof.Machine

/-! ## The operation word and the abstract operation (30_encoding.md rule R79) -/

/-- A word's operation is the abstract operation by its interface's agent. -/
theorem exec_eq_performAs (i : Instr) (s : State) : exec i s = performAs (issuer i) i s := by
  cases i <;> rfl

/-- Without the role an operation is refused (rule R110). -/
theorem performAs_refused {a : Agent} {i : Instr} (s : State) (h : s.mayIssue a i = false) :
    performAs a i s = .next (s.refuse a i) := by
  cases i <;> simp only [performAs, rbWriteAs, rbReadAs, rbCountAs, rbIsfullAs, irqRxAs, irqTxAs,
    irqTxcAs, fpFeedAs, h] <;> rfl

/-! ## Reading slots -/

/-- The bytes a read returns are those of the slots, as many as asked for. -/
theorem readSlots_ok {k : Block} {r : RingId} {h : Index} (n : Nat) :
    ∀ {i : Nat} {bs : List Byte}, readSlots k r h i n = .ok bs →
      bs.length = n ∧ ∀ j < n, bs[j]? = k.readSlot r (h + BitVec.ofNat 8 (i + j)) := by
  induction n with
  | zero =>
    intro i bs e
    simp only [readSlots, Except.ok.injEq] at e
    subst e
    simp
  | succ n ih =>
    intro i bs e
    rw [readSlots] at e
    split at e
    · cases e
    · next b hb =>
      split at e
      · cases e
      · next rest hrest =>
        cases e
        obtain ⟨hl, hget⟩ := ih hrest
        refine ⟨by simp [hl], fun j hj => ?_⟩
        cases j with
        | zero => simpa using hb.symm
        | succ j =>
          rw [List.getElem?_cons_succ, hget j (by omega)]
          rw [show i + 1 + j = i + (j + 1) by omega]

/-- A read faults exactly when one of the slots holds no value. -/
theorem readSlots_error_iff {k : Block} {r : RingId} {h : Index} (n : Nat) :
    ∀ {i : Nat}, (∃ j < n, k.readSlot r (h + BitVec.ofNat 8 (i + j)) = none) ↔
      ∃ c, readSlots k r h i n = .error (.slotUnwritten r c) := by
  induction n with
  | zero => intro i; simp [readSlots]
  | succ n ih =>
    intro i
    rw [readSlots]
    split
    · next hb => exact ⟨fun _ => ⟨_, rfl⟩, fun _ => ⟨0, by omega, by simpa using hb⟩⟩
    · next b hb =>
      have := ih (i := i + 1)
      constructor
      · rintro ⟨j, hj, hn⟩
        obtain ⟨c, hc⟩ := this.1 ⟨j - 1, by
          cases j with
          | zero => rw [Nat.add_zero, hb] at hn; cases hn
          | succ j => omega, by
          cases j with
          | zero => rw [Nat.add_zero, hb] at hn; cases hn
          | succ j =>
            rw [Nat.add_sub_cancel, show i + 1 + j = i + (j + 1) by omega]; exact hn⟩
        exact ⟨c, by rw [hc]⟩
      · rintro ⟨c, hc⟩
        split at hc
        · next f hf =>
          cases hc
          obtain ⟨j, hj, hn⟩ := this.2 ⟨c, hf⟩
          exact ⟨j + 1, by omega, by rw [show i + (j + 1) = i + 1 + j by omega]; exact hn⟩
        · cases hc

/-- What a read that answers did: `head` moved past the `n` bytes returned. -/
theorem rbRead_ok {r : RingId} {m : Nat} {k k' : Block} {bs : List Byte}
    (e : rbRead r m k = .ok (k', bs)) :
    bs.length = min m (k.cnt r) ∧
    k' = k.setHead r (k.head r + BitVec.ofNat 8 (min m (k.cnt r))) ∧
    ∀ j < min m (k.cnt r), bs[j]? = (k.ring r).item j := by
  have hn : readCount m (k.tail r) (k.head r) = min m (k.cnt r) := rfl
  rw [rbRead, hn] at e
  split at e
  · cases e
  · next bs' hbs =>
    cases e
    obtain ⟨hl, hget⟩ := readSlots_ok _ hbs
    refine ⟨hl, rfl, fun j hj => ?_⟩
    rw [hget j hj, Nat.zero_add]
    rfl

/-! ## An operation that answers a next state -/

theorem rbWriteAs_next {a : Agent} {r : RingId} {b : Byte} {s t : State}
    (e : rbWriteAs a r b s = .next t) :
    s.mayIssue a (.rbWrite r b) = false ∧ t = s.refuse a (.rbWrite r b) ∨
    s.mayIssue a (.rbWrite r b) = true ∧
      t = (s.withBlock (rbWrite r b s.block).1).answer a (some (.rbWrite r b))
        (.ok (rbWrite r b s.block).2) (writeCondition (rbWrite r b s.block).2) := by
  unfold rbWriteAs at e
  split at e
  · next h => cases e; exact .inr ⟨h, rfl⟩
  · next h => cases e; exact .inl ⟨by simpa using h, rfl⟩

theorem rbReadAs_next {a : Agent} {r : RingId} {m : Nat} {s t : State}
    (e : rbReadAs a r m s = .next t) :
    s.mayIssue a (.rbRead r m) = false ∧ t = s.refuse a (.rbRead r m) ∨
    s.mayIssue a (.rbRead r m) = true ∧ ∃ k bs, rbRead r m s.block = .ok (k, bs) ∧
      t = (s.withBlock k).answer a (some (.rbRead r m)) (.read bs.length bs) none := by
  unfold rbReadAs at e
  split at e
  · next h =>
    split at e
    · cases e
    · next k bs hr => cases e; exact .inr ⟨h, k, bs, hr, rfl⟩
  · next h => cases e; exact .inl ⟨by simpa using h, rfl⟩

theorem rbCountAs_next {a : Agent} {r : RingId} {s t : State} (e : rbCountAs a r s = .next t) :
    s.mayIssue a (.rbCount r) = false ∧ t = s.refuse a (.rbCount r) ∨
    s.mayIssue a (.rbCount r) = true ∧
      t = s.answer a (some (.rbCount r)) (.count (s.block.cnt r)) none := by
  unfold rbCountAs at e
  split at e
  · next h => cases e; exact .inr ⟨h, rfl⟩
  · next h => cases e; exact .inl ⟨by simpa using h, rfl⟩

theorem rbIsfullAs_next {a : Agent} {r : RingId} {s t : State} (e : rbIsfullAs a r s = .next t) :
    s.mayIssue a (.rbIsfull r) = false ∧ t = s.refuse a (.rbIsfull r) ∨
    s.mayIssue a (.rbIsfull r) = true ∧
      t = s.answer a (some (.rbIsfull r)) (.isFull (rbIsfull r s.block)) none := by
  unfold rbIsfullAs at e
  split at e
  · next h => cases e; exact .inr ⟨h, rfl⟩
  · next h => cases e; exact .inl ⟨by simpa using h, rfl⟩

/-- The handler of a port that may take a received byte is the producer of its receive ring. -/
theorem mayIssue_irqRx {h : Option RingId} {a : Agent} {p : Port} {b : Byte} :
    mayIssue h a (.irqRx p b) = true ↔ a = .irq p ∧ a = producer h (rxRing p) := by simp [mayIssue]

theorem irqRxAs_next {a : Agent} {p : Port} {b : Byte} {s t : State}
    (e : irqRxAs a p b s = .next t) :
    s.mayIssue a (.irqRx p b) = false ∧ t = s.refuse a (.irqRx p b) ∨
    a = .irq p ∧ a = s.producer (rxRing p) ∧ rbWriteAs a (rxRing p) b s = .next t := by
  unfold irqRxAs at e
  split at e
  · next h =>
    obtain ⟨h1, h2⟩ := mayIssue_irqRx.1 h
    exact .inr ⟨h1, h2, e⟩
  · next h => cases e; exact .inl ⟨by simpa using h, rfl⟩

theorem irqTxAs_next {a : Agent} {p : Port} {s t : State} (e : irqTxAs a p s = .next t) :
    s.mayIssue a (.irqTx p) = false ∧ t = s.refuse a (.irqTx p) ∨
    a = .irq p ∧ a = s.consumer (txRing p) ∧ ∃ k bs, rbRead (txRing p) 1 s.block = .ok (k, bs) ∧
      t = (s.withBlock (sendByte p bs k)).answer a (some (.rbRead (txRing p) 1))
        (.read bs.length bs) none := by
  unfold irqTxAs at e
  split at e
  · next h =>
    split at e
    · cases e
    · next k bs hr =>
      cases e
      simp only [State.mayIssue, mayIssue, Bool.and_eq_true, decide_eq_true_eq] at h
      exact .inr ⟨h.1, h.2, k, bs, hr, rfl⟩
  · next h => cases e; exact .inl ⟨by simpa using h, rfl⟩

theorem irqTxcAs_next {a : Agent} {p : Port} {s t : State} (e : irqTxcAs a p s = .next t) :
    s.mayIssue a (.irqTxc p) = false ∧ t = s.refuse a (.irqTxc p) ∨
    a = .irq p ∧ a = s.consumer (txRing p) ∧
      t = (s.withBlock (releaseDriver p (s.block.cnt (txRing p)) s.block)).answer a
        (some (.rbCount (txRing p))) (.count (s.block.cnt (txRing p))) none := by
  unfold irqTxcAs at e
  split at e
  · next h =>
    cases e
    simp only [State.mayIssue, mayIssue, Bool.and_eq_true, decide_eq_true_eq] at h
    exact .inr ⟨h.1, h.2, rfl⟩
  · next h => cases e; exact .inl ⟨by simpa using h, rfl⟩

theorem fpFeedAs_next {a : Agent} {p : Port} {raw : Byte} {s t : State}
    (e : fpFeedAs a p raw s = .next t) :
    s.mayIssue a (.fpFeed p raw) = false ∧ t = s.refuse a (.fpFeed p raw) ∨
    a = .main ∧ ∃ q o, feedParser p (s.fedByte raw) (s.block.parser p) = .ok (q, o) ∧
      t = (s.withBlock (s.block.setParser p q)).answer a (some (.fpFeed p raw)) (frameResponse o)
        (feedCondition (s.fedByte raw) (s.block.parser p)) := by
  unfold fpFeedAs at e
  split at e
  · next h =>
    split at e
    · cases e
    · next k o hr =>
      cases e
      unfold feedBlock at hr
      split at hr
      · cases hr
      · next q o' hq =>
        cases hr
        exact .inr ⟨by simpa [State.mayIssue, mayIssue] using h, q, o, hq, rfl⟩
  · next h => cases e; exact .inl ⟨by simpa using h, rfl⟩

/-! ## An operation by an agent that holds its role -/

theorem performAs_rbWrite {a : Agent} {r : RingId} {s : State} (h : a = s.producer r) (b : Byte) :
    performAs a (.rbWrite r b) s =
      .next ((s.withBlock (rbWrite r b s.block).1).answer a (some (.rbWrite r b))
        (.ok (rbWrite r b s.block).2) (writeCondition (rbWrite r b s.block).2)) := by
  subst h
  simp [performAs, rbWriteAs, State.mayIssue, mayIssue, State.producer]

theorem performAs_rbRead {a : Agent} {r : RingId} {m : Nat} {s : State} {k : Block} {bs : List Byte}
    (h : a = s.consumer r) (e : rbRead r m s.block = .ok (k, bs)) :
    performAs a (.rbRead r m) s =
      .next ((s.withBlock k).answer a (some (.rbRead r m)) (.read bs.length bs) none) := by
  subst h
  simp [performAs, rbReadAs, State.mayIssue, mayIssue, State.consumer, e]

theorem performAs_rbRead_fault {a : Agent} {r : RingId} {m : Nat} {s : State} {f : Fault}
    (h : a = s.consumer r) : performAs a (.rbRead r m) s = .fault f ↔ rbRead r m s.block = .error f := by
  subst h
  simp only [performAs, rbReadAs, State.mayIssue, mayIssue, State.consumer, decide_true, if_true]
  split <;> simp_all

theorem performAs_rbCount {a : Agent} {r : RingId} {s : State}
    (h : a = s.producer r ∨ a = s.consumer r) :
    performAs a (.rbCount r) s =
      .next (s.answer a (some (.rbCount r)) (.count (s.block.cnt r)) none) := by
  have hm : s.mayIssue a (.rbCount r) = true := by
    simpa [State.mayIssue, mayIssue, State.producer, State.consumer] using h
  simp only [performAs, rbCountAs, hm, if_true]
  rfl

theorem performAs_rbIsfull {a : Agent} {r : RingId} {s : State}
    (h : a = s.producer r ∨ a = s.consumer r) :
    performAs a (.rbIsfull r) s =
      .next (s.answer a (some (.rbIsfull r)) (.isFull (rbIsfull r s.block)) none) := by
  have hm : s.mayIssue a (.rbIsfull r) = true := by
    simpa [State.mayIssue, mayIssue, State.producer, State.consumer] using h
  simp only [performAs, rbIsfullAs, hm, if_true]

/-- IRQ.RX is the RB.WRITE it issues. -/
theorem performAs_irqRx {p : Port} {s : State} (h : s.producer (rxRing p) = .irq p) (b : Byte) :
    performAs (.irq p) (.irqRx p b) s = performAs (.irq p) (.rbWrite (rxRing p) b) s := by
  have hm : s.mayIssue (.irq p) (.irqRx p b) = true := mayIssue_irqRx.2 ⟨rfl, h.symm⟩
  simp only [performAs, irqRxAs, hm, if_true]

theorem performAs_irqTx {p : Port} {s : State} {k : Block} {bs : List Byte}
    (h : s.consumer (txRing p) = .irq p) (e : rbRead (txRing p) 1 s.block = .ok (k, bs)) :
    performAs (.irq p) (.irqTx p) s =
      .next ((s.withBlock (sendByte p bs k)).answer (.irq p) (some (.rbRead (txRing p) 1))
        (.read bs.length bs) none) := by
  have hm : s.mayIssue (.irq p) (.irqTx p) = true := by
    simpa [State.mayIssue, mayIssue, State.consumer] using h.symm
  simp only [performAs, irqTxAs, hm, if_true, e]

theorem performAs_irqTxc {p : Port} {s : State} (h : s.consumer (txRing p) = .irq p) :
    performAs (.irq p) (.irqTxc p) s =
      .next ((s.withBlock (releaseDriver p (s.block.cnt (txRing p)) s.block)).answer (.irq p)
        (some (.rbCount (txRing p))) (.count (s.block.cnt (txRing p))) none) := by
  have hm : s.mayIssue (.irq p) (.irqTxc p) = true := by
    simpa [State.mayIssue, mayIssue, State.consumer] using h.symm
  simp only [performAs, irqTxcAs, hm, if_true]
  rfl

theorem performAs_fpFeed {p : Port} {raw : Byte} {s : State} {q : Parser} {o : Option (List Byte)}
    (e : feedParser p (s.fedByte raw) (s.block.parser p) = .ok (q, o)) :
    performAs .main (.fpFeed p raw) s =
      .next ((s.withBlock (s.block.setParser p q)).answer .main (some (.fpFeed p raw))
        (frameResponse o) (feedCondition (s.fedByte raw) (s.block.parser p))) := by
  have hm : s.mayIssue .main (.fpFeed p raw) = true := rfl
  simp only [performAs, fpFeedAs, hm, if_true, feedBlock, e]

/-! ## The drivers and the wire -/

@[simp] theorem sendByte_ring (p : Port) (bs : List Byte) (k : Block) (r : RingId) :
    (sendByte p bs k).ring r = k.ring r := by cases bs <;> simp [sendByte]

@[simp] theorem sendByte_parser (p : Port) (bs : List Byte) (k : Block) (q : Port) :
    (sendByte p bs k).parser q = k.parser q := by cases bs <;> simp [sendByte]

@[simp] theorem sendByte_cfg (p : Port) (bs : List Byte) (k : Block) :
    (sendByte p bs k).cfg = k.cfg := by cases bs <;> simp [sendByte]

theorem sendByte_wire_ne {p q : Port} (bs : List Byte) (k : Block) (h : q ≠ p) :
    (sendByte p bs k).wireOf q = k.wireOf q := by
  cases bs <;> simp [sendByte, Block.wireOf_pushWire_ne _ _ h]

theorem sendByte_de_ne {p q : Port} (bs : List Byte) (k : Block) (h : q ≠ p) :
    (sendByte p bs k).de q = k.de q := by
  cases bs <;> simp [sendByte, Block.de_setDe_ne _ _ h]

theorem sendByte_wire {p : Port} {bs : List Byte} (k : Block) (h : bs.length ≤ 1) :
    (sendByte p bs k).wireOf p = k.wireOf p ++ bs := by
  match bs, h with
  | [], _ => simp [sendByte]
  | [b], _ => simp [sendByte]

@[simp] theorem releaseDriver_ring (p : Port) (c : Nat) (k : Block) (r : RingId) :
    (releaseDriver p c k).ring r = k.ring r := by unfold releaseDriver; split <;> simp

@[simp] theorem releaseDriver_parser (p : Port) (c : Nat) (k : Block) (q : Port) :
    (releaseDriver p c k).parser q = k.parser q := by unfold releaseDriver; split <;> simp

@[simp] theorem releaseDriver_cfg (p : Port) (c : Nat) (k : Block) :
    (releaseDriver p c k).cfg = k.cfg := by unfold releaseDriver; split <;> simp

@[simp] theorem releaseDriver_wireOf (p : Port) (c : Nat) (k : Block) (q : Port) :
    (releaseDriver p c k).wireOf q = k.wireOf q := by unfold releaseDriver; split <;> simp

theorem releaseDriver_de_ne {p q : Port} (c : Nat) (k : Block) (h : q ≠ p) :
    (releaseDriver p c k).de q = k.de q := by
  unfold releaseDriver; split
  · exact Block.de_setDe_ne _ _ h
  · rfl

end Sys2Proof.Machine
end

