-- ==== Sys2Proof/Laws/Parser.lean ====
section
/-! SUPPORT. The buffer primitives and transitions of the frame parser on a parser that meets its
invariant (42_frame_parser.md rules R137 to R142). -/

namespace Sys2Proof.Machine

theorem Parser.cmd_length {q : Parser}
    (h : ∀ i < q.clen.toNat, (Memory.read q.cbuf i).isSome) : q.cmd.length = q.clen.toNat :=
  filterMap_range_length _ _ h

/-- Reading `n` written bytes of a command buffer yields them in order. -/
theorem readCbuf_eq {p : Port} {m : Memory} (n : Nat) :
    ∀ i, (∀ j < n, (Memory.read m (i + j)).isSome) →
      readCbuf p m i n = .ok ((List.range n).filterMap fun j => Memory.read m (i + j)) := by
  induction n with
  | zero => intro i _; rfl
  | succ n ih =>
    intro i h
    obtain ⟨b, hb⟩ := Option.isSome_iff_exists.1 (h 0 (Nat.succ_pos n))
    rw [Nat.add_zero] at hb
    have hrest := ih (i + 1) fun j hj => by
      have := h (j + 1) (by omega)
      rwa [show i + (j + 1) = i + 1 + j by omega] at this
    rw [readCbuf, hb]
    simp only [hrest]
    rw [List.range_succ_eq_map, List.filterMap_cons, List.filterMap_map]
    simp only [Nat.add_zero, hb, Function.comp_def]
    congr 2
    refine List.filterMap_congr fun j _ => ?_
    congr 1
    omega

/-- Emit hands over the meaningful content. -/
theorem Parser.emit_eq {p : Port} {q : Parser}
    (h : ∀ i < q.clen.toNat, (Memory.read q.cbuf i).isSome) : q.emit p = .ok q.cmd := by
  have := readCbuf_eq (p := p) (m := q.cbuf) q.clen.toNat 0 (by simpa using h)
  simp only [Nat.zero_add] at this
  exact this

/-- The parser after an append below the capacity. -/
def Parser.appended (x : Byte) (q : Parser) : Parser :=
  { q with cbuf := Memory.write q.cbuf q.clen.toNat x, clen := q.clen + 1#10 }

theorem Parser.append_eq {p : Port} {x : Byte} {q : Parser} (h : q.clen.toNat < Config.cmdCap) :
    q.append p x = .ok (q.appended x) := by simp [Parser.append, h, Parser.appended]

theorem Parser.appended_clen {x : Byte} {q : Parser} (h : q.clen.toNat < Config.cmdCap) :
    (q.appended x).clen.toNat = q.clen.toNat + 1 := by
  simp only [Parser.appended, Config.cmdCap] at *; bv_omega

theorem Parser.appended_filled {x : Byte} {q : Parser} (h : q.clen.toNat < Config.cmdCap)
    (hf : ∀ i < q.clen.toNat, (Memory.read q.cbuf i).isSome) :
    ∀ i < (q.appended x).clen.toNat, (Memory.read (q.appended x).cbuf i).isSome := by
  intro i hi
  rw [Parser.appended_clen h] at hi
  simp only [Parser.appended, Memory.read_write]
  split
  · rfl
  · exact hf i (by omega)

/-- Append puts its byte at the end of the content. -/
theorem Parser.appended_cmd {x : Byte} {q : Parser} (h : q.clen.toNat < Config.cmdCap) :
    (q.appended x).cmd = q.cmd ++ [x] := by
  rw [Parser.cmd, Parser.appended_clen h, List.range_succ, List.filterMap_append]
  congr 1
  · refine List.filterMap_congr fun i hi => ?_
    exact Memory.read_write_ne _ _ (Nat.ne_of_lt (List.mem_range.1 hi))
  · simp [Parser.appended]

theorem Parser.appended_wf {x : Byte} {q : Parser} (h : q.clen.toNat < Config.cmdCap)
    (hw : Memory.wf Config.cmdCap q.cbuf) : Memory.wf Config.cmdCap (q.appended x).cbuf :=
  Memory.wf_write x hw h

@[simp] theorem Parser.clear_clen (q : Parser) : q.clear.clen = 0#10 := rfl
@[simp] theorem Parser.clear_cbuf (q : Parser) : q.clear.cbuf = q.cbuf := rfl
@[simp] theorem Parser.clear_pstate (q : Parser) : q.clear.pstate = q.pstate := rfl
@[simp] theorem Parser.clear_cmd (q : Parser) : q.clear.cmd = [] := rfl
@[simp] theorem Parser.appended_pstate (x : Byte) (q : Parser) :
    (q.appended x).pstate = q.pstate := rfl

/-! ## The transitions -/

/-- STX: the buffer is cleared and holds the STX alone (rules R137, R139). -/
theorem feedStart_eq (p : Port) (q : Parser) :
    feedStart p q = .ok ({ q.clear.appended Config.stx with pstate := .waitETX }, none) := by
  have h : q.clear.clen.toNat < Config.cmdCap := by simp [Config.cmdCap]
  simp [feedStart, Parser.append_eq h]

/-- ETX: the content with the ETX appended is emitted (rule R140). -/
theorem feedEnd_eq {p : Port} {q : Parser} (h : q.Inv) :
    feedEnd p q = .ok ({ (q.appended Config.etx).clear with pstate := .waitSTX },
      some (q.cmd ++ [Config.etx])) := by
  simp [feedEnd, Parser.append_eq h.2.1, Parser.emit_eq (Parser.appended_filled h.2.1 h.2.2.1),
    Parser.appended_cmd h.2.1]

/-- Another byte below the capacity is appended (rule R141). -/
theorem feedOther_append {p : Port} {b : Byte} {q : Parser} (h : q.clen.toNat < 511) :
    feedOther p b q = .ok (q.appended b, none) := by
  have hc : q.clen.toNat < Config.cmdCap := by simp only [Config.cmdCap]; omega
  have hn : ¬ (q.appended b).clen.toNat = Config.cmdCap := by
    rw [Parser.appended_clen hc]; simp only [Config.cmdCap]; omega
  simp [feedOther, Parser.append_eq hc, hn]

/-- Another byte that fills the buffer flushes it (rule R141). -/
theorem feedOther_flush {p : Port} {b : Byte} {q : Parser} (h : q.Inv) (hc : q.clen.toNat = 511) :
    feedOther p b q = .ok ((q.appended b).clear, some (q.cmd ++ [b])) := by
  have hn : (q.appended b).clen.toNat = Config.cmdCap := by
    rw [Parser.appended_clen h.2.1, hc]
  simp [feedOther, Parser.append_eq h.2.1, hn,
    Parser.emit_eq (Parser.appended_filled h.2.1 h.2.2.1), Parser.appended_cmd h.2.1]

/-- What a feed can do to a parser that meets its invariant: one of the rows of rule R144. -/
theorem feedParser_cases {p : Port} {b : Byte} {q : Parser} (h : q.Inv) :
    (b = Config.stx ∧ feedParser p b q =
      .ok ({ q.clear.appended Config.stx with pstate := .waitETX }, none)) ∨
    (b ≠ Config.stx ∧ q.pstate = .waitSTX ∧ feedParser p b q = .ok (q, none)) ∨
    (b = Config.etx ∧ q.pstate = .waitETX ∧ feedParser p b q =
      .ok ({ (q.appended Config.etx).clear with pstate := .waitSTX },
        some (q.cmd ++ [Config.etx]))) ∨
    (b ≠ Config.stx ∧ b ≠ Config.etx ∧ q.pstate = .waitETX ∧ q.clen.toNat < 511 ∧
      feedParser p b q = .ok (q.appended b, none)) ∨
    (b ≠ Config.stx ∧ b ≠ Config.etx ∧ q.pstate = .waitETX ∧ q.clen.toNat = 511 ∧
      feedParser p b q = .ok ((q.appended b).clear, some (q.cmd ++ [b]))) := by
  by_cases hs : b = Config.stx
  · left
    refine ⟨hs, ?_⟩
    cases hp : q.pstate <;> simp [feedParser, hp, hs, feedStart_eq]
  · right
    cases hp : q.pstate with
    | waitSTX => left; exact ⟨hs, rfl, by simp [feedParser, hp, hs]⟩
    | waitETX =>
      right
      by_cases he : b = Config.etx
      · left
        exact ⟨he, rfl, by simp [feedParser, hp, he, feedEnd_eq h, show Config.etx ≠ Config.stx by decide]⟩
      · right
        rcases Nat.lt_or_ge q.clen.toNat 511 with hc | hc
        · left
          exact ⟨hs, he, rfl, hc, by simp [feedParser, hp, hs, he, feedOther_append hc]⟩
        · right
          have hc : q.clen.toNat = 511 := by
            have := h.2.1; simp only [Config.cmdCap] at this; omega
          exact ⟨hs, he, rfl, hc, by simp [feedParser, hp, hs, he, feedOther_flush h hc]⟩

/-- A feed keeps the parser's invariant and never faults. -/
theorem feedParser_inv {p : Port} {b : Byte} {q : Parser} (h : q.Inv) :
    ∃ q' e, feedParser p b q = .ok (q', e) ∧ q'.Inv := by
  obtain ⟨hz, hc, hf, hw⟩ := h
  have h0 : q.clear.clen.toNat < Config.cmdCap := by simp [Config.cmdCap]
  rcases feedParser_cases (p := p) (b := b) ⟨hz, hc, hf, hw⟩ with
    ⟨-, e⟩ | ⟨-, -, e⟩ | ⟨-, -, e⟩ | ⟨-, -, hp, hl, e⟩ | ⟨-, -, hp, -, e⟩
  · refine ⟨_, _, e, ?_, ?_, Parser.appended_filled h0 ?_, Parser.appended_wf h0 hw⟩
    · intro h; cases h
    · exact lt_of_eq_of_lt (Parser.appended_clen (x := Config.stx) h0) (by simp [Config.cmdCap])
    · intro i hi; simp at hi
  · exact ⟨_, _, e, hz, hc, hf, hw⟩
  · exact ⟨_, _, e, fun _ => rfl, by simp [Config.cmdCap], by intro i hi; simp at hi,
      Parser.appended_wf hc hw⟩
  · refine ⟨_, _, e, ?_, ?_, Parser.appended_filled hc hf, Parser.appended_wf hc hw⟩
    · intro h; rw [Parser.appended_pstate, hp] at h; cases h
    · rw [Parser.appended_clen hc]; simp only [Config.cmdCap]; omega
  · exact ⟨_, _, e, fun h => by simp [hp] at h, by simp [Config.cmdCap],
      by intro i hi; simp at hi, Parser.appended_wf hc hw⟩

end Sys2Proof.Machine
end

