-- ==== Sys2Proof/Laws/Step.lean ====
section
/-! SUPPORT. Inversions: everything an abstract operation, a micro-step and a step of the machine can
lead to, each said once, so that no later proof unfolds them. -/

namespace Sys2Proof.Machine

/-! ## Operations run whole -/

/-- What an operation by an agent did, when it answers a next state. -/
theorem performAs_cases {a : Agent} {i : Instr} {s t : State} (e : performAs a i s = .next t) :
    (s.mayIssue a i = false ∧ t = s.refuse a i) ∨
    (∃ r b, a = s.producer r ∧ (i = .rbWrite r b ∨ ∃ p, r = rxRing p ∧ i = .irqRx p b) ∧
      t = (s.withBlock (rbWrite r b s.block).1).answer a (some (.rbWrite r b))
        (.ok (rbWrite r b s.block).2) (writeCondition (rbWrite r b s.block).2)) ∨
    (∃ r m k bs, a = s.consumer r ∧ i = .rbRead r m ∧ rbRead r m s.block = .ok (k, bs) ∧
      t = (s.withBlock k).answer a (some (.rbRead r m)) (.read bs.length bs) none) ∨
    (∃ r, (i = .rbCount r ∧ t = s.answer a (some (.rbCount r)) (.count (s.block.cnt r)) none) ∨
      (i = .rbIsfull r ∧
        t = s.answer a (some (.rbIsfull r)) (.isFull (rbIsfull r s.block)) none)) ∨
    (∃ p k bs, a = .irq p ∧ a = s.consumer (txRing p) ∧ i = .irqTx p ∧
      rbRead (txRing p) 1 s.block = .ok (k, bs) ∧
      t = (s.withBlock (sendByte p bs k)).answer a (some (.rbRead (txRing p) 1))
        (.read bs.length bs) none) ∨
    (∃ p, a = .irq p ∧ i = .irqTxc p ∧
      t = (s.withBlock (releaseDriver p (s.block.cnt (txRing p)) s.block)).answer a
        (some (.rbCount (txRing p))) (.count (s.block.cnt (txRing p))) none) ∨
    (∃ p raw q o, a = .main ∧ i = .fpFeed p raw ∧
      feedParser p (s.fedByte raw) (s.block.parser p) = .ok (q, o) ∧
      t = (s.withBlock (s.block.setParser p q)).answer a (some (.fpFeed p raw)) (frameResponse o)
        (feedCondition (s.fedByte raw) (s.block.parser p))) := by
  cases i with
  | rbWrite r b =>
    rcases rbWriteAs_next e with h | ⟨hm, h⟩
    · exact .inl h
    · exact .inr (.inl ⟨r, b, by simpa [State.mayIssue, mayIssue, State.producer] using hm, .inl rfl, h⟩)
  | rbRead r m =>
    rcases rbReadAs_next e with h | ⟨hm, k, bs, hr, h⟩
    · exact .inl h
    · exact .inr (.inr (.inl
        ⟨r, m, k, bs, by simpa [State.mayIssue, mayIssue, State.consumer] using hm, rfl, hr, h⟩))
  | rbCount r =>
    rcases rbCountAs_next e with h | ⟨-, h⟩
    · exact .inl h
    · exact .inr (.inr (.inr (.inl ⟨r, .inl ⟨rfl, h⟩⟩)))
  | rbIsfull r =>
    rcases rbIsfullAs_next e with h | ⟨-, h⟩
    · exact .inl h
    · exact .inr (.inr (.inr (.inl ⟨r, .inr ⟨rfl, h⟩⟩)))
  | irqRx p b =>
    rcases irqRxAs_next e with h | ⟨-, hp, e⟩
    · exact .inl h
    · rcases rbWriteAs_next e with ⟨hm, -⟩ | ⟨-, h⟩
      · exact absurd hp (by simpa [State.mayIssue, mayIssue, State.producer] using hm)
      · exact .inr (.inl ⟨_, b, hp, .inr ⟨p, rfl, rfl⟩, h⟩)
  | irqTx p =>
    rcases irqTxAs_next e with h | ⟨ha, hc, k, bs, hr, h⟩
    · exact .inl h
    · exact .inr (.inr (.inr (.inr (.inl ⟨p, k, bs, ha, hc, rfl, hr, h⟩))))
  | irqTxc p =>
    rcases irqTxcAs_next e with h | ⟨ha, -, h⟩
    · exact .inl h
    · exact .inr (.inr (.inr (.inr (.inr (.inl ⟨p, ha, rfl, h⟩)))))
  | fpFeed p raw =>
    rcases fpFeedAs_next e with h | ⟨ha, q, o, hq, h⟩
    · exact .inl h
    · exact .inr (.inr (.inr (.inr (.inr (.inr ⟨p, raw, q, o, ha, rfl, hq, h⟩)))))

/-- An operation run whole changes nothing of its users, the arguments and the schedule. -/
theorem performAs_sameUser {a : Agent} {i : Instr} {s t : State} (e : performAs a i s = .next t) :
    sameUser s t := by
  rcases performAs_cases e with ⟨_, h⟩ | ⟨_, _, _, _, h⟩ | ⟨_, _, _, _, _, _, _, h⟩ |
    ⟨_, ⟨_, h⟩ | ⟨_, h⟩⟩ | ⟨_, _, _, _, _, _, _, h⟩ | ⟨_, _, _, h⟩ |
    ⟨_, _, _, _, _, _, _, h⟩ <;> subst h <;> exact ⟨rfl, rfl, rfl, rfl, rfl⟩

/-! ## MAIN's turn -/

/-- What MAIN's turn does: it goes on with the operation in progress, begins the operation of its
position, or takes the local step of its position. -/
theorem mainTurn_cases {s t : State} (e : mainTurn s = .next t) :
    (∃ op, s.mainOp = some op ∧ continueOp op s = .next t) ∨
    (∃ i, s.mainOp = none ∧ s.loop.nextOp = some i ∧ t = issueOp .loop i s) ∨
    (s.mainOp = none ∧ s.loop.nextOp = none ∧ t = { s with loop := s.loop.control }) := by
  unfold mainTurn at e
  split at e
  · next op h => exact .inl ⟨op, h, e⟩
  · next h =>
    simp only [loopTurn, Host.Outcome.next.injEq] at e
    split at e
    · next i hi => exact .inr (.inl ⟨i, h, hi, e.symm⟩)
    · next hi => exact .inr (.inr ⟨h, hi, e.symm⟩)

/-- The word an interface takes decodes to an operation of that interface. -/
theorem accepted_some {f : Iface} {w : Word} {i : Instr} (e : accepted f w = some i) :
    decode w = .ok i ∧ homeIface i = f := by
  unfold accepted at e
  split at e
  · cases e
  · next j hj =>
    split at e
    · next hf => cases e; exact ⟨hj, hf⟩
    · cases e

/-! ## The step -/

/-- `u` is `s` with a tail of its agenda. -/
def Taken (s u : State) : Prop :=
  u = { s with agenda := u.agenda } ∧ ∀ x ∈ u.agenda, x ∈ s.agenda

/-- What the turn of agent `a` does, `u` being the state with the turn taken off the agenda. -/
inductive TurnResult (s : State) : Agent → State → Prop
  /-- A word its interface does not take. -/
  | illegal (u : State) (f : Iface) (hu : Taken s u) :
      TurnResult s (agentOf f) (u.answerIllegal f)
  /-- An operation run whole by an agent that has none in progress. -/
  | perform (u t : State) (a : Agent) (i : Instr) (hu : Taken s u)
      (hm : s.opOf a = none)
      (hsys : s.systemOnly → ∃ p, a = .irq p ∧ homeIface i = .event p)
      (hword : s.wordsOnly → a = issuer i) (e : performAs a i u = .next t) : TurnResult s a t
  /-- MAIN begins an operation. -/
  | issue (u : State) (o : Owner) (i : Instr) (hu : Taken s u)
      (hm : s.mainOp = none) (hsys : s.systemOnly → o = .loop)
      (hloop : o = .loop → s.loop.nextOp = some i) : TurnResult s .main (issueOp o i u)
  /-- MAIN takes a local step. -/
  | control (u : State) (hu : Taken s u) (hm : s.mainOp = none)
      (hn : s.loop.nextOp = none) : TurnResult s .main { u with loop := s.loop.control }
  /-- MAIN takes a micro-step of the operation in progress. -/
  | micro (u t : State) (op : InFlight) (hu : Taken s u)
      (hm : s.mainOp = some op) (e : continueOp op u = .next t) : TurnResult s .main t
  /-- A harness agent begins an operation. -/
  | begin (u : State) (x : Role) (i : Instr) (hu : Taken s u)
      (hm : s.harnessOps.get x = none) (hsys : ¬ s.systemOnly) (hword : ¬ s.wordsOnly) :
      TurnResult s (.harness x) (beginOp x i u)
  /-- A harness agent takes a micro-step of its operation in progress. -/
  | harnessMicro (u t : State) (x : Role) (m : Micro) (hu : Taken s u)
      (hm : s.harnessOps.get x = some m) (hsys : ¬ s.systemOnly) (hword : ¬ s.wordsOnly)
      (e : continueHarness x m u = .next t) : TurnResult s (.harness x) t
  /-- A harness agent with no operation in progress has nothing to do. -/
  | harnessIdle (u : State) (x : Role) (hu : Taken s u) (hm : s.harnessOps.get x = none) :
      TurnResult s (.harness x) u

theorem Taken.refl (s : State) : Taken s s := ⟨rfl, fun _ h => h⟩

theorem TurnResult.of_mainTurn {s u t : State} (hu : Taken s u)
    (e : mainTurn u = .next t) : TurnResult s .main t := by
  have hop : u.mainOp = s.mainOp := by rw [hu.1]
  have hl : u.loop = s.loop := by rw [hu.1]
  rcases mainTurn_cases e with ⟨op, h, e⟩ | ⟨i, h, hi, rfl⟩ | ⟨h, hi, rfl⟩
  · exact .micro u t op hu (hop ▸ h) e
  · exact .issue u .loop i hu (hop ▸ h) (fun _ => rfl) (fun _ => hl ▸ hi)
  · rw [hl]; exact .control u hu (hop ▸ h) (hl ▸ hi)

theorem TurnResult.of_harnessTurn {s u t : State} {x : Role} (hu : Taken s u)
    (hsys : ¬ s.systemOnly) (hword : ¬ s.wordsOnly) (e : harnessTurn x u = .next t) :
    TurnResult s (.harness x) t := by
  have hop : u.harnessOps = s.harnessOps := by rw [hu.1]
  unfold harnessTurn at e
  split at e
  · next h => cases e; exact .harnessIdle u x hu (hop ▸ h)
  · next m h => exact .harnessMicro u t x m hu (hop ▸ h) hsys hword e

/-- What a turn waits for: the agent it needs idle, which has an operation in progress. -/
theorem State.waitsFor_some {s : State} {t : Turn} {a : Agent} (h : s.waitsFor t = some a) :
    t.needsIdle = some a ∧ (s.opOf a).isSome := by
  simpa [State.waitsFor, Option.filter_eq_some_iff] using h

theorem State.waitsFor_none {s : State} {t : Turn} {a : Agent} (h : s.waitsFor t = none)
    (ht : t.needsIdle = some a) : s.opOf a = none := by
  simpa [State.waitsFor, ht, Option.filter] using h

/-- A step is boot, or a turn of the agent that moves. -/
theorem step_cases {s t : State} (e : step s = .next t) :
    (s.block.cfg = none ∧ s.mover = none ∧ t = bootStep s) ∨
    (∃ c a, s.block.cfg = some c ∧ s.mover = some a ∧ TurnResult s a t) := by
  unfold step machineStep at e
  split at e
  · next h => cases e; exact .inl ⟨h, by simp [State.mover, h], rfl⟩
  · next c h =>
    refine .inr ⟨c, ?_⟩
    unfold nextTurn at e
    split at e
    · next ha => exact ⟨.main, h, by simp [State.mover, h, ha], .of_mainTurn (Taken.refl s) e⟩
    · next turn rest ha =>
      have hmem : turn ∈ s.agenda := by rw [ha]; exact List.mem_cons_self
      have nosys : turn.isSystem = false → ¬ s.systemOnly := fun h1 h2 => by
        rw [h2 _ hmem] at h1; cases h1
      have noword : turn.byWord = false → ¬ s.wordsOnly := fun h1 h2 => by
        rw [h2 _ hmem] at h1; cases h1
      split at e
      · next a hw =>
        obtain ⟨hn, hop⟩ := s.waitsFor_some hw
        refine ⟨a, h, by simp [State.mover, h, ha, hw], ?_⟩
        cases a with
        | main => exact .of_mainTurn (Taken.refl s) e
        | irq p => simp at hop
        | harness x =>
          refine .of_harnessTurn (Taken.refl s) ?_ ?_ e
          · refine nosys ?_
            cases turn with
            | request f w => cases f <;> simp [Turn.needsIdle, agentOf] at hn
            | issue w => simp [Turn.needsIdle] at hn
            | main => simp [Turn.needsIdle] at hn
            | abstract a i => rfl
            | begin x i => rfl
            | micro x => rfl
          · refine noword ?_
            cases turn with
            | request f w => cases f <;> simp [Turn.needsIdle, agentOf] at hn
            | issue w => simp [Turn.needsIdle] at hn
            | main => simp [Turn.needsIdle] at hn
            | abstract a i => rfl
            | begin x i => rfl
            | micro x => rfl
      · next hw =>
        have hu : Taken s { s with agenda := rest } :=
          ⟨rfl, fun x hx => by rw [ha]; exact List.mem_cons_of_mem _ hx⟩
        have hmv : s.mover = some turn.agent := by simp [State.mover, h, ha, hw]
        refine ⟨turn.agent, h, hmv, ?_⟩
        cases turn with
        | request f w =>
          simp only [takeTurn, serve] at e
          split at e
          · cases e; exact .illegal { s with agenda := rest } f hu
          · next i hi =>
            obtain ⟨-, rfl⟩ := accepted_some hi
            rw [exec_eq_performAs] at e
            refine .perform { s with agenda := rest } t (issuer i) i hu
              (s.waitsFor_none hw rfl) (fun h => ?_) (fun _ => rfl) e
            have := h _ hmem
            cases i with
            | irqRx p b => exact ⟨p, rfl, rfl⟩
            | irqTx p => exact ⟨p, rfl, rfl⟩
            | irqTxc p => exact ⟨p, rfl, rfl⟩
            | rbWrite r b => cases this
            | rbRead r m => cases this
            | rbCount r => cases this
            | rbIsfull r => cases this
            | fpFeed p raw => cases this
        | issue w =>
          simp only [takeTurn, issueWord, Host.Outcome.next.injEq] at e
          split at e
          · rw [← e]; exact .illegal { s with agenda := rest } .mainLoop hu
          · next i hi =>
            rw [← e]
            exact .issue { s with agenda := rest } .harness i hu
              (by simpa using s.waitsFor_none hw rfl) (fun h => absurd h (nosys rfl))
              (fun h => by cases h)
        | main => exact .of_mainTurn (u := { s with agenda := rest }) hu e
        | abstract a i =>
          exact .perform { s with agenda := rest } t a i hu (s.waitsFor_none hw rfl)
            (fun h => absurd h (nosys rfl)) (fun h => absurd h (noword rfl)) e
        | begin x i =>
          cases e
          exact .begin { s with agenda := rest } x i hu (s.waitsFor_none hw rfl) (nosys rfl)
            (noword rfl)
        | micro x =>
          exact .of_harnessTurn (u := { s with agenda := rest }) hu (nosys rfl) (noword rfl) e

/-- MAIN's beginning of an operation changes the operation in progress, or the answers and its position
when it is refused. -/
theorem issueOp_cases (o : Owner) (i : Instr) (s : State) :
    (∃ m, firstMicro i = some m ∧ s.mayIssue .main i = true ∧
      issueOp o i s = { s with mainOp := some ⟨m, o⟩ }) ∨
    (s.mayIssue .main i = false ∧ issueOp o i s = (s.refuse .main i).deliver o .refused) := by
  cases h : s.mayIssue .main i with
  | false => exact .inr ⟨rfl, by simp [issueOp, h]⟩
  | true =>
    left
    cases i with
    | irqRx p b => simp [State.mayIssue, mayIssue] at h
    | irqTx p => simp [State.mayIssue, mayIssue] at h
    | irqTxc p => simp [State.mayIssue, mayIssue] at h
    | rbWrite r b => exact ⟨_, rfl, rfl, by simp [issueOp, h, firstMicro]⟩
    | rbRead r m => exact ⟨_, rfl, rfl, by simp [issueOp, h, firstMicro]⟩
    | rbCount r => exact ⟨_, rfl, rfl, by simp [issueOp, h, firstMicro]⟩
    | rbIsfull r => exact ⟨_, rfl, rfl, by simp [issueOp, h, firstMicro]⟩
    | fpFeed p raw => exact ⟨_, rfl, rfl, by simp [issueOp, h, firstMicro]⟩

/-- A harness agent's beginning of an operation sets its operation in progress, or is refused. -/
theorem beginOp_cases (x : Role) (i : Instr) (s : State) :
    (∃ m, firstMicro i = some m ∧ s.mayIssue (.harness x) i = true ∧
      beginOp x i s = s.setHarnessOp x (some m)) ∨
    beginOp x i s = s.refuse (.harness x) i := by
  unfold beginOp
  split
  · next h =>
    split
    · next m hm => exact .inl ⟨m, hm, h, rfl⟩
    · exact .inr rfl
  · exact .inr rfl

/-- The end of an operation of MAIN, when its bytes fit the scratch buffer. -/
theorem endOp_next {op : InFlight} {resp : Response} {c : Option Condition} {k : Block}
    {s t : State} (e : endOp op resp c k s = .next t) :
    scratchOverrun op.owner resp = none ∧ t = finishOp op resp c k s := by
  unfold endOp at e
  split at e
  · next h => cases e; exact ⟨h, rfl⟩
  · cases e

/-- No more than the scratch buffer holds. -/
theorem scratchOverrun_read {n : Nat} {bytes : List Byte} :
    scratchOverrun .loop (.read n bytes) = none ↔ bytes.length ≤ Config.scratchCap := by
  simp [scratchOverrun]

/-- What the next micro-step of MAIN's operation does. -/
theorem continueOp_cases {op : InFlight} {s t : State} (e : continueOp op s = .next t) :
    (∃ m k, microStep s.activeCfg.bitInvert op.micro s.block = .more m k ∧
      t = { s with block := k, mainOp := some { op with micro := m } }) ∨
    (∃ resp c k, microStep s.activeCfg.bitInvert op.micro s.block = .done resp c k ∧
      scratchOverrun op.owner resp = none ∧ t = finishOp op resp c k s) := by
  unfold continueOp at e
  split at e
  · next m k h => cases e; exact .inl ⟨m, k, h, rfl⟩
  · next resp c k h => exact .inr ⟨resp, c, k, h, endOp_next e⟩
  · cases e

/-- What the next micro-step of a harness agent's operation does. -/
theorem continueHarness_cases {x : Role} {m : Micro} {s t : State}
    (e : continueHarness x m s = .next t) :
    (∃ m' k, microStep s.activeCfg.bitInvert m s.block = .more m' k ∧
      t = (s.withBlock k).setHarnessOp x (some m')) ∨
    (∃ resp c k, microStep s.activeCfg.bitInvert m s.block = .done resp c k ∧
      t = ((s.withBlock k).setHarnessOp x none).answer (.harness x) (some (microInstr m)) resp c) := by
  unfold continueHarness at e
  split at e
  · next m k h => cases e; exact .inl ⟨m, k, h, rfl⟩
  · next resp c k h => cases e; exact .inr ⟨resp, c, k, h, rfl⟩
  · cases e

/-- A turn adds none to the agenda. -/
theorem TurnResult.agenda {s t : State} {a : Agent} (h : TurnResult s a t) :
    ∀ x ∈ t.agenda, x ∈ s.agenda := by
  cases h with
  | illegal u f hu => exact hu.2
  | perform u t a i hu hm hsys hword e => rw [(performAs_sameUser e).2.2.2.2]; exact hu.2
  | issue u o i hu hm hsys hloop =>
    rcases issueOp_cases o i u with ⟨m, -, -, h⟩ | ⟨-, h⟩ <;> rw [h]
    · exact hu.2
    · rw [State.deliver_agenda]; exact hu.2
  | control u hu hm hn => exact hu.2
  | micro u t op hu hm e =>
    rcases continueOp_cases e with ⟨m, k, -, rfl⟩ | ⟨resp, c, k, -, -, rfl⟩
    · exact hu.2
    · rw [finishOp, State.deliver_agenda]; exact hu.2
  | begin u x i hu =>
    rcases beginOp_cases x i u with ⟨m, -, -, h⟩ | h <;> rw [h] <;> exact hu.2
  | harnessMicro u t x m hu hm hsys hword e =>
    rcases continueHarness_cases e with ⟨m, k, -, rfl⟩ | ⟨resp, c, k, -, rfl⟩ <;> exact hu.2
  | harnessIdle u x hu hm => exact hu.2

/-- No step adds a turn to the agenda. -/
theorem step_agenda {s t : State} (e : step s = .next t) : ∀ x ∈ t.agenda, x ∈ s.agenda := by
  rcases step_cases e with ⟨-, -, rfl⟩ | ⟨c, a, -, -, h⟩
  · exact fun _ h => h
  · exact h.agenda

theorem step_systemOnly {s t : State} (e : step s = .next t) (h : s.systemOnly) : t.systemOnly :=
  fun x hx => h x (step_agenda e x hx)

theorem step_wordsOnly {s t : State} (e : step s = .next t) (h : s.wordsOnly) : t.wordsOnly :=
  fun x hx => h x (step_agenda e x hx)

/-! ## MAIN's response -/

@[simp] theorem finishOp_block (op : InFlight) (resp : Response) (c : Option Condition) (k : Block)
    (s : State) : (finishOp op resp c k s).block = k := by simp [finishOp]

@[simp] theorem finishOp_mainOp (op : InFlight) (resp : Response) (c : Option Condition) (k : Block)
    (s : State) : (finishOp op resp c k s).mainOp = none := by simp [finishOp]

@[simp] theorem finishOp_harnessOps (op : InFlight) (resp : Response) (c : Option Condition)
    (k : Block) (s : State) : (finishOp op resp c k s).harnessOps = s.harnessOps := by
  simp [finishOp]

@[simp] theorem finishOp_params (op : InFlight) (resp : Response) (c : Option Condition) (k : Block)
    (s : State) : (finishOp op resp c k s).params = s.params := by simp [finishOp]

@[simp] theorem finishOp_answers (op : InFlight) (resp : Response) (c : Option Condition) (k : Block)
    (s : State) : (finishOp op resp c k s).answers =
      s.answers ++ [⟨.main, some (microInstr op.micro), resp, c⟩] := by simp [finishOp]

end Sys2Proof.Machine
end

