-- ==== Sys2Proof/Laws/Invariant.lean ====
section
/-! SUPPORT. The invariant of the block under the changes the operations make to it, and what the locals
of an operation in progress stand under while other agents move (10_state.md rules R25, R28, R40). -/

namespace Sys2Proof.Machine

/-! ## The block's invariant -/

theorem Block.Inv.cnt_le {k : Block} (hk : k.Inv) (r : RingId) : k.cnt r ≤ Config.capacity :=
  (hk.1 r).1

theorem Block.Inv.content_length {k : Block} (hk : k.Inv) (r : RingId) :
    (k.content r).length = k.cnt r := Ring.content_length (hk.1 r).2.1

theorem Block.content_congr {k k' : Block} {r : RingId} (h : k'.ring r = k.ring r) :
    k'.content r = k.content r := by simp [Block.content, h]

theorem Block.Inv.setRing {k : Block} (hk : k.Inv) {r : RingId} {g : Ring} (hg : g.Inv) :
    (k.setRing r g).Inv := by
  refine ⟨fun r' => ?_, fun p => by simpa using hk.2.1 p, by simpa using hk.2.2⟩
  by_cases h : r' = r
  · subst h; simpa using hg
  · rw [Block.ring_setRing_ne _ _ h]; exact hk.1 r'

theorem Block.Inv.setParser {k : Block} (hk : k.Inv) {p : Port} {q : Parser} (hq : q.Inv) :
    (k.setParser p q).Inv := by
  refine ⟨fun r => by simpa using hk.1 r, fun p' => ?_, by simpa using hk.2.2⟩
  by_cases h : p' = p
  · subst h; simpa using hq
  · rw [Block.parser_setParser_ne _ _ h]; exact hk.2.1 p'

/-- The invariant speaks of rings, parsers and `cfg` only. -/
theorem Block.Inv.congr {k k' : Block} (hk : k.Inv) (hr : ∀ r, k'.ring r = k.ring r)
    (hp : ∀ p, k'.parser p = k.parser p) (hc : k'.cfg = k.cfg) : k'.Inv :=
  ⟨fun r => by rw [hr]; exact hk.1 r, fun p => by rw [hp]; exact hk.2.1 p,
    by rw [hc]; exact hk.2.2⟩

/-- RB.WRITE replaces its ring, of which `head` and every slot but that of `tail` are the same. -/
theorem rbWrite_setRing (r : RingId) (b : Byte) (k : Block) :
    ∃ g, (rbWrite r b k).1 = k.setRing r g ∧ g.head = k.head r ∧
      ∀ a, a ≠ slotOf (k.tail r) → Memory.read g.slots a = Memory.read (k.ring r).slots a := by
  unfold rbWrite
  split
  · exact ⟨k.ring r, by simp, rfl, fun _ _ => rfl⟩
  · exact ⟨⟨k.head r, k.tail r + 1#8, Memory.write (k.ring r).slots (slotOf (k.tail r)) b⟩,
      by simp [Block.setTail, Block.writeSlot, Block.head], rfl,
      fun a h => Memory.read_write_ne _ _ h⟩

theorem Block.Inv.rbWrite {k : Block} (hk : k.Inv) (r : RingId) (b : Byte) :
    (rbWrite r b k).1.Inv := by
  obtain ⟨g, hg, -⟩ := rbWrite_setRing r b k
  have := rbWrite_inv b (hk.1 r)
  rw [hg] at this ⊢
  exact hk.setRing (by simpa using this)

theorem Block.Inv.rbRead {k k' : Block} (hk : k.Inv) {r : RingId} {m : Nat} {bs : List Byte}
    (e : rbRead r m k = .ok (k', bs)) : k'.Inv := by
  obtain ⟨-, rfl, -⟩ := rbRead_ok e
  exact hk.setRing (Ring.Inv.advance (hk.1 r) (Nat.min_le_right _ _))

/-- An operation run whole keeps the block's invariant. -/
theorem performAs_blockInv {a : Agent} {i : Instr} {s t : State} (hk : s.block.Inv)
    (e : performAs a i s = .next t) : t.block.Inv := by
  rcases performAs_cases e with ⟨-, h⟩ | ⟨r, b, -, -, h⟩ | ⟨r, m, k, bs, -, -, hr, h⟩ |
    ⟨r, ⟨-, h⟩ | ⟨-, h⟩⟩ | ⟨p, k, bs, -, -, -, hr, h⟩ | ⟨p, -, -, h⟩ |
    ⟨p, raw, q, o, -, -, hq, h⟩ <;> subst h
  · exact hk
  · exact hk.rbWrite r b
  · exact hk.rbRead hr
  · exact hk
  · exact hk
  · exact (hk.rbRead hr).congr (by simp) (by simp) (by simp)
  · exact hk.congr (by simp) (by simp) (by simp)
  · obtain ⟨q', e', h1, h2⟩ := feedParser_inv (p := p) (b := s.fedByte raw) (hk.2.1 p)
    rw [hq] at h1
    cases h1
    exact hk.setParser h2

/-- Under the invariant an operation run whole always answers. -/
theorem performAs_answers {a : Agent} {i : Instr} {s : State} (hk : s.block.Inv) :
    ∃ t, performAs a i s = .next t := by
  cases h : s.mayIssue a i with
  | false => exact ⟨_, performAs_refused s h⟩
  | true =>
    cases i with
    | rbWrite r b => simp [performAs, rbWriteAs, h]
    | rbRead r m => simp [performAs, rbReadAs, h, rbRead_eq m (hk.1 r).2.1]
    | rbCount r => simp [performAs, rbCountAs, h]
    | rbIsfull r => simp [performAs, rbIsfullAs, h]
    | irqRx p b =>
      simp only [performAs, irqRxAs, h, if_true, rbWriteAs]
      split <;> exact ⟨_, rfl⟩
    | irqTx p => simp [performAs, irqTxAs, h, rbRead_eq 1 (hk.1 (txRing p)).2.1]
    | irqTxc p => simp [performAs, irqTxcAs, h]
    | fpFeed p raw =>
      obtain ⟨q', e', h1, -⟩ := feedParser_inv (p := p) (b := s.fedByte raw) (hk.2.1 p)
      simp [performAs, fpFeedAs, h, feedBlock, h1]

/-! ## What other agents can do to the rings an agent has a role on -/

/-- What may change while agent `a` is between two micro-steps: a ring it consumes can only have gained
bytes behind its content, a ring it produces for can only have lost bytes from its front. -/
structure Drift (h : Option RingId) (a : Agent) (k k' : Block) : Prop where
  consumer : ∀ r, a = consumer h r → k'.head r = k.head r ∧ k.cnt r ≤ k'.cnt r ∧
    ∀ n ≤ k.cnt r, (k'.content r).take n = (k.content r).take n
  producer : ∀ r, a = producer h r → k'.tail r = k.tail r ∧
    (k'.ring r).slots = (k.ring r).slots ∧ k'.cnt r ≤ k.cnt r

variable {h : Option RingId} {a b : Agent} {k k' k'' : Block}

theorem Drift.of_rings (e : ∀ r, k'.ring r = k.ring r) : Drift h a k k' :=
  ⟨fun r _ => by simp [Block.head, Block.cnt, Block.content, e],
    fun r _ => by simp [Block.tail, Block.cnt, e]⟩

theorem Drift.trans (d : Drift h a k k') (d' : Drift h a k' k'') : Drift h a k k'' := by
  refine ⟨fun r hr => ?_, fun r hr => ?_⟩
  · obtain ⟨x, y, z⟩ := d.consumer r hr
    obtain ⟨x', y', z'⟩ := d'.consumer r hr
    exact ⟨x'.trans x, y.trans y', fun n hn => (z' n (hn.trans y)).trans (z n hn)⟩
  · obtain ⟨x, y, z⟩ := d.producer r hr
    obtain ⟨x', y', z'⟩ := d'.producer r hr
    exact ⟨x'.trans x, y'.trans y, z'.trans z⟩

/-- One ring replaced, by an agent of the other role. -/
theorem Drift.of_setRing {r : RingId} {g : Ring}
    (hc : a = Machine.consumer h r → g.head = k.head r ∧ k.cnt r ≤ g.cnt ∧
      ∀ n ≤ k.cnt r, g.content.take n = (k.content r).take n)
    (hp : a = Machine.producer h r → g.tail = k.tail r ∧ g.slots = (k.ring r).slots ∧
      g.cnt ≤ k.cnt r) : Drift h a k (k.setRing r g) := by
  refine ⟨fun r' hr => ?_, fun r' hr => ?_⟩ <;> by_cases e : r' = r
  · subst e; simpa [Block.head, Block.cnt, Block.content] using hc hr
  · simp [Block.head, Block.cnt, Block.content, Block.ring_setRing_ne k g e]
  · subst e; simpa [Block.tail, Block.cnt] using hp hr
  · simp [Block.tail, Block.cnt, Block.ring_setRing_ne k g e]

/-- Micro-step W4, by the producer of the ring. -/
theorem Drift.of_writeSlot {r : RingId} (x : Byte) (hb : b = Machine.producer h r) (hab : a ≠ b)
    (hr : k.cnt r < Config.capacity) : Drift h a k (k.writeSlot r (k.tail r) x) := by
  refine .of_setRing (fun _ => ⟨rfl, le_rfl, fun n _ => ?_⟩) (fun e => absurd (e.trans hb.symm) hab)
  exact congrArg (List.take n) (Ring.content_writeTail x hr)

/-- Micro-step W5, by the producer of the ring. -/
theorem Drift.of_moveTail {r : RingId} {x : Byte} (hb : b = Machine.producer h r) (hab : a ≠ b)
    (hi : (k.ring r).Inv) (hr : k.cnt r < Config.capacity)
    (hx : k.readSlot r (k.tail r) = some x) : Drift h a k (k.setTail r (k.tail r + 1#8)) := by
  have hc : indexDiff (k.tail r + 1#8) (k.head r) = k.cnt r + 1 :=
    indexDiff_succ_tail (lt_trans (show indexDiff (k.tail r) (k.head r) < 128 from hr) (by decide))
  refine .of_setRing (fun _ => ⟨rfl, ?_, fun n hn => ?_⟩) (fun e => absurd (e.trans hb.symm) hab)
  · exact (Nat.le_succ _).trans hc.ge
  · have h1 := Ring.content_moveTail (g := k.ring r) hr hx
    rw [show ({ k.ring r with tail := k.tail r + 1#8 } : Ring).content = _ from h1,
      List.take_append_of_le_length (by rw [Ring.content_length hi.2.1]; exact hn)]
    rfl

/-- Micro-step R5, by the consumer of the ring. -/
theorem Drift.of_advance {r : RingId} {n : Nat} (hb : b = Machine.consumer h r) (hab : a ≠ b)
    (hn : n ≤ k.cnt r) : Drift h a k (k.setHead r (k.head r + BitVec.ofNat 8 n)) := by
  refine .of_setRing (fun e => absurd (e.trans hb.symm) hab) (fun _ => ⟨rfl, rfl, ?_⟩)
  exact le_trans (le_of_eq (indexDiff_add_head hn)) (Nat.sub_le _ _)

/-- RB.WRITE whole, by the producer of the ring. -/
theorem Drift.of_write {r : RingId} (x : Byte) (hb : b = Machine.producer h r) (hab : a ≠ b)
    (hk : k.Inv) : Drift h a k (rbWrite r x k).1 := by
  by_cases hf : k.cnt r = Config.capacity
  · rw [rbWrite_full hf]; exact .of_rings fun _ => rfl
  · have hc : k.cnt r < Config.capacity := lt_of_le_of_ne (hk.cnt_le r) hf
    rw [rbWrite_room hf]
    have d := Drift.of_moveTail (h := h) (a := a) (k := k.writeSlot r (k.tail r) x) (x := x) hb hab
      (by rw [Block.ring_writeSlot]; exact Ring.Inv.writeTail (hk.1 r) x hc)
      (by simp only [Block.cnt, Block.ring_writeSlot]; exact hc)
      (by simp [Block.readSlot])
    rw [Block.tail_writeSlot] at d
    exact (Drift.of_writeSlot x hb hab hc).trans d

/-- RB.READ whole, by the consumer of the ring. -/
theorem Drift.of_read {r : RingId} {m : Nat} {bs : List Byte} (hb : b = Machine.consumer h r)
    (hab : a ≠ b) (e : rbRead r m k = .ok (k', bs)) : Drift h a k k' := by
  obtain ⟨-, rfl, -⟩ := rbRead_ok e
  exact .of_advance hb hab (Nat.min_le_right _ _)

/-- An operation of another agent run whole. -/
theorem Drift.of_performAs {i : Instr} {s t : State} (hk : s.block.Inv) (hab : a ≠ b)
    (e : performAs b i s = .next t) : Drift s.params.harness a s.block t.block := by
  rcases performAs_cases e with ⟨-, h⟩ | ⟨r, x, hb, -, h⟩ | ⟨r, m, k, bs, hb, -, hr, h⟩ |
    ⟨r, ⟨-, h⟩ | ⟨-, h⟩⟩ | ⟨p, k, bs, -, hb, -, hr, h⟩ | ⟨p, -, -, h⟩ | ⟨p, raw, q, o, -, -, -, h⟩ <;>
    subst h
  · exact .of_rings fun _ => rfl
  · exact .of_write x hb hab hk
  · exact .of_read hb hab hr
  · exact .of_rings fun _ => rfl
  · exact .of_rings fun _ => rfl
  · exact (Drift.of_read hb hab hr).trans (.of_rings (by simp))
  · exact .of_rings (by simp)
  · exact .of_rings fun _ => rfl

/-! ## What an agent knows of its locals -/

/-- The role a micro-step's operation needs. -/
theorem MicroInv.producer_of_write {m : Micro} {r : RingId} {x : Byte} (hm : MicroInv h a k m)
    (e : microInstr m = .rbWrite r x) : a = Machine.producer h r := by
  have := hm.1; rw [e] at this; simpa [mayIssue] using this

theorem MicroInv.consumer_of_read {m : Micro} {r : RingId} {n : Nat} (hm : MicroInv h a k m)
    (e : microInstr m = .rbRead r n) : a = Machine.consumer h r := by
  have := hm.1; rw [e] at this; simpa [mayIssue] using this

/-- What is known of an agent's locals survives what the others do. -/
theorem MicroInv.drift {m : Micro} (hd : Drift h a k k') (hm : MicroInv h a k m) :
    MicroInv h a k' m := by
  refine ⟨hm.1, ?_⟩
  have f := hm.2
  cases m with
  | w1 r x => trivial
  | w2 r x i =>
    obtain ⟨e, -, z⟩ := hd.producer r (hm.producer_of_write rfl)
    exact ⟨by rw [e]; exact f.1, by rw [e]; exact z.trans f.2⟩
  | w3 r x i t =>
    obtain ⟨e, -, z⟩ := hd.producer r (hm.producer_of_write rfl)
    exact ⟨by rw [e]; exact f.1, f.2.1, z.trans f.2.2⟩
  | w4 r x i t =>
    obtain ⟨e, -, z⟩ := hd.producer r (hm.producer_of_write rfl)
    exact ⟨by rw [e]; exact f.1, f.2.1, z.trans f.2.2⟩
  | w5 r x i t =>
    obtain ⟨e, y, z⟩ := hd.producer r (hm.producer_of_write rfl)
    exact ⟨by rw [e]; exact f.1, f.2.1, z.trans f.2.2.1, by
      unfold Block.readSlot; rw [y]; exact f.2.2.2⟩
  | r1 r n => trivial
  | r2 r n t =>
    obtain ⟨e, y, -⟩ := hd.consumer r (hm.consumer_of_read rfl)
    exact (show indexDiff t (k'.head r) ≤ k'.cnt r by rw [e]; exact le_trans f y)
  | r3 r n t i =>
    obtain ⟨e, y, -⟩ := hd.consumer r (hm.consumer_of_read rfl)
    exact ⟨by rw [e]; exact f.1, f.2.trans y⟩
  | r4 r m i n bs =>
    obtain ⟨e, y, z⟩ := hd.consumer r (hm.consumer_of_read rfl)
    obtain ⟨f1, f2, f3, f4⟩ := f
    exact ⟨by rw [e]; exact f1, f2.trans y, f3, by rw [z _ (f3.le.trans f2)]; exact f4⟩
  | r5 r m i n bs =>
    obtain ⟨e, y, z⟩ := hd.consumer r (hm.consumer_of_read rfl)
    obtain ⟨f1, f2, f3, f4⟩ := f
    exact ⟨by rw [e]; exact f1, f2.trans y, f3, by rw [z _ f2]; exact f4⟩
  | c1 r => trivial
  | c2 r t =>
    refine ⟨fun hr => ?_, fun hr => by rw [(hd.producer r hr).1]; exact f.2 hr⟩
    obtain ⟨e, y, -⟩ := hd.consumer r hr
    rw [e]
    exact (f.1 hr).trans y
  | f1 r => trivial
  | f2 r t =>
    refine ⟨fun hr => ?_, fun hr => by rw [(hd.producer r hr).1]; exact f.2 hr⟩
    obtain ⟨e, y, -⟩ := hd.consumer r hr
    rw [e]
    exact (f.1 hr).trans y
  | feed p raw => trivial

/-! ## Micro-steps -/

/-- The first micro-step belongs to its operation. -/
theorem firstMicro_instr {i : Instr} {m : Micro} (e : firstMicro i = some m) : microInstr m = i := by
  cases i <;> cases e <;> rfl

/-- An operation just begun by an agent that holds its role. -/
theorem MicroInv.first {i : Instr} {m : Micro} (hr : mayIssue h a i = true)
    (e : firstMicro i = some m) : MicroInv h a k m := by
  refine ⟨by rw [firstMicro_instr e]; exact hr, ?_⟩
  cases i <;> cases e <;> trivial

/-- One more byte of the content. -/
theorem Ring.Inv.take_succ {g : Ring} (hg : g.Inv) {n : Nat} {b : Byte} (hn : n < g.cnt)
    (hb : g.item n = some b) : g.content.take (n + 1) = g.content.take n ++ [b] := by
  have h1 := filterMap_range_take g.item (n + 1) g.cnt (fun i hi => hg.2.1 i (by omega)) hn
  have h2 := filterMap_range_take g.item n g.cnt (fun i hi => hg.2.1 i (by omega)) (le_of_lt hn)
  rw [Ring.content, ← h1, ← h2, List.range_succ]
  simp [hb]

theorem MicroInv.afterRead {r : RingId} {m n : Nat} {bs : List Byte}
    (hr : a = Machine.consumer h r) (hn : n ≤ k.cnt r) (hl : bs.length ≤ n)
    (hb : bs = (k.content r).take bs.length) :
    MicroInv h a k (afterRead r m (k.head r) n bs) := by
  unfold Machine.afterRead
  split
  · next hlt => exact ⟨by simp [microInstr, mayIssue, hr], rfl, hn, hlt, hb⟩
  · next hge =>
    have : bs.length = n := by omega
    exact ⟨by simp [microInstr, mayIssue, hr], rfl, hn, this, by rw [← this]; exact hb⟩

theorem feedBlock_ok {p : Port} {b : Byte} {k k' : Block} {e : Option (List Byte)}
    (h : feedBlock p b k = .ok (k', e)) :
    ∃ q, feedParser p b (k.parser p) = .ok (q, e) ∧ k' = k.setParser p q := by
  unfold feedBlock at h
  split at h
  · cases h
  · next q o hq => cases h; exact ⟨q, hq, rfl⟩

/-- A micro-step that does not end the operation: it keeps the block's invariant, the agent's locals
are as they were learnt, and the other agents see a drift. -/
theorem microStep_more {inv : Bool} {m m' : Micro} (hk : k.Inv) (hm : MicroInv h a k m)
    (e : microStep inv m k = .more m' k') :
    k'.Inv ∧ MicroInv h a k' m' ∧ ∀ c, c ≠ a → Drift h c k k' := by
  have same : ∀ c, c ≠ a → Drift h c k k := fun c _ => .of_rings fun _ => rfl
  have f := hm.2
  cases m with
  | w1 r x => cases e; exact ⟨hk, ⟨hm.1, hk.cnt_le r, le_rfl⟩, same⟩
  | w2 r x i => cases e; exact ⟨hk, ⟨hm.1, rfl, f⟩, same⟩
  | w3 r x i t =>
    simp only [microStep] at e
    split at e
    · cases e
    · next hf =>
      cases e
      exact ⟨hk, ⟨hm.1, f.1, lt_of_le_of_ne f.2.1 fun h => hf (indexFull_iff.2 h), f.2.2⟩, same⟩
  | w4 r x i t =>
    cases e
    have hr := hm.producer_of_write rfl
    obtain ⟨rfl, f2, f3⟩ := f
    have hc : k.cnt r < Config.capacity := lt_of_le_of_lt f3 f2
    refine ⟨hk.setRing (Ring.Inv.writeTail (hk.1 r) x hc), ⟨hm.1, by simp, f2, ?_, ?_⟩,
      fun c hca => .of_writeSlot x hr hca hc⟩
    · simp only [Block.cnt, Block.ring_writeSlot]; exact f3
    · simp [Block.readSlot]
  | w5 r x i t => cases e
  | r1 r n => cases e; exact ⟨hk, ⟨hm.1, show indexDiff (k.tail r) (k.head r) ≤ k.cnt r from le_rfl⟩, same⟩
  | r2 r n t => cases e; exact ⟨hk, ⟨hm.1, rfl, f⟩, same⟩
  | r3 r n t i =>
    cases e
    have hr := hm.consumer_of_read rfl
    obtain ⟨rfl, f2⟩ := f
    exact ⟨hk, .afterRead hr (le_trans (readCount_le _ _ _) f2) (Nat.zero_le _) (by simp), same⟩
  | r4 r m i n bs =>
    simp only [microStep, readOne] at e
    have hr := hm.consumer_of_read rfl
    obtain ⟨rfl, f2, f3, f4⟩ := f
    split at e
    · cases e
    · next x hx =>
      cases e
      refine ⟨hk, .afterRead hr f2 (by simp; omega) ?_, same⟩
      have := (hk.1 r).take_succ (lt_of_lt_of_le f3 f2 : bs.length < (k.ring r).cnt) hx
      simp only [List.length_append, List.length_singleton]
      rw [Block.content, this]
      congr 1
  | r5 r m i n bs => cases e
  | c1 r => cases e; exact ⟨hk, ⟨hm.1, fun _ => le_rfl, fun _ => rfl⟩, same⟩
  | c2 r t => cases e
  | f1 r => cases e; exact ⟨hk, ⟨hm.1, fun _ => le_rfl, fun _ => rfl⟩, same⟩
  | f2 r t => cases e
  | feed p raw =>
    simp only [microStep, feedMicro] at e
    split at e <;> cases e

/-- The micro-step that ends an operation: W3 on a full ring and the readers write nothing, W5 moves
`tail` over the byte just written, R5 moves `head` past the bytes read, FP.FEED replaces a parser. -/
theorem microStep_done {inv : Bool} {m : Micro} {resp : Response} {c : Option Condition}
    {k k' : Block} (e : microStep inv m k = .done resp c k') :
    k' = k ∨ (∃ r b h t, m = .w5 r b h t ∧ k' = k.setTail r (t + 1#8)) ∨
    (∃ r a h n bs, m = .r5 r a h n bs ∧ k' = k.setHead r (h + BitVec.ofNat 8 n)) ∨
    (∃ p raw q o, m = .feed p raw ∧
      feedParser p (feedByte inv raw) (k.parser p) = .ok (q, o) ∧ k' = k.setParser p q) := by
  cases m with
  | w1 r b => cases e
  | w2 r b h => cases e
  | w3 r b h t =>
    simp only [microStep] at e
    split at e <;> cases e
    exact .inl rfl
  | w4 r b h t => cases e
  | w5 r b h t => cases e; exact .inr (.inl ⟨r, b, h, t, rfl, rfl⟩)
  | r1 r n => cases e
  | r2 r n t => cases e
  | r3 r n t h => cases e
  | r4 r m h n bs =>
    simp only [microStep, readOne] at e
    split at e <;> cases e
  | r5 r m h n bs => cases e; exact .inr (.inr (.inl ⟨r, m, h, n, bs, rfl, rfl⟩))
  | c1 r => cases e
  | c2 r t => cases e; exact .inl rfl
  | f1 r => cases e
  | f2 r t => cases e; exact .inl rfl
  | feed p raw =>
    simp only [microStep, feedMicro] at e
    split at e
    · cases e
    · next k2 o hf =>
      cases e
      obtain ⟨q, hq, rfl⟩ := feedBlock_ok hf
      exact .inr (.inr (.inr ⟨p, raw, q, o, rfl, hq, rfl⟩))

/-- The micro-step that ends an operation keeps the block's invariant, and the other agents see a
drift. -/
theorem microStep_done_inv {inv : Bool} {m : Micro} {resp : Response} {c : Option Condition}
    (hk : k.Inv) (hm : MicroInv h a k m) (e : microStep inv m k = .done resp c k') :
    k'.Inv ∧ ∀ c, c ≠ a → Drift h c k k' := by
  rcases microStep_done e with rfl | ⟨r, x, i, t, rfl, rfl⟩ | ⟨r, m, i, n, bs, rfl, rfl⟩ |
    ⟨p, raw, q, o, rfl, hq, rfl⟩
  · exact ⟨hk, fun _ _ => .of_rings fun _ => rfl⟩
  · have hr := hm.producer_of_write rfl
    obtain ⟨-, rfl, f2, f3, f4⟩ := hm
    have hc : k.cnt r < Config.capacity := lt_of_le_of_lt f3 f2
    exact ⟨hk.setRing (Ring.Inv.moveTail (hk.1 r) hc f4),
      fun c hca => .of_moveTail hr hca (hk.1 r) hc f4⟩
  · have hr := hm.consumer_of_read rfl
    obtain ⟨-, rfl, f2, -, -⟩ := hm
    exact ⟨hk.setRing (Ring.Inv.advance (hk.1 r) f2), fun c hca => .of_advance hr hca f2⟩
  · obtain ⟨q', e', h1, h2⟩ := feedParser_inv (p := p) (b := feedByte inv raw) (hk.2.1 p)
    rw [hq] at h1
    cases h1
    exact ⟨hk.setParser h2, fun _ _ => .of_rings fun _ => rfl⟩

/-- The sizes of a response: a count is at most 128, and so are the bytes of a read. -/
theorem microStep_done_size {inv : Bool} {m : Micro} {resp : Response} {c : Option Condition}
    (hk : k.Inv) (hm : MicroInv h a k m) (e : microStep inv m k = .done resp c k') :
    (∀ n, resp = .count n → n ≤ Config.capacity) ∧
    ∀ n bs, resp = .read n bs → bs.length ≤ Config.scratchCap := by
  have f := hm.2
  cases m with
  | w1 r x => cases e
  | w2 r x i => cases e
  | w3 r x i t =>
    simp only [microStep] at e
    split at e <;> cases e
    exact ⟨fun _ h => (nomatch h), fun _ _ h => (nomatch h)⟩
  | w4 r x i t => cases e
  | w5 r x i t => cases e; exact ⟨fun _ h => (nomatch h), fun _ _ h => (nomatch h)⟩
  | r1 r n => cases e
  | r2 r n t => cases e
  | r3 r n t i => cases e
  | r4 r m i n bs =>
    simp only [microStep, readOne] at e
    split at e <;> cases e
  | r5 r m i n bs =>
    cases e
    refine ⟨fun _ h => (nomatch h), fun _ _ h => ?_⟩
    cases h
    rw [f.2.2.1]
    exact f.2.1.trans (hk.cnt_le r)
  | c1 r => cases e
  | c2 r t =>
    cases e
    refine ⟨fun n h => ?_, fun _ _ h => (nomatch h)⟩
    cases h
    have hr := hm.1
    simp only [microInstr, mayIssue, Bool.or_eq_true, decide_eq_true_eq] at hr
    rcases hr with hr | hr
    · rw [f.2 hr]; exact hk.cnt_le r
    · exact (f.1 hr).trans (hk.cnt_le r)
  | f1 r => cases e
  | f2 r t => cases e; exact ⟨fun _ h => (nomatch h), fun _ _ h => (nomatch h)⟩
  | feed p raw =>
    simp only [microStep, feedMicro] at e
    split at e
    · cases e
    · next k2 o hf =>
      cases e
      cases o <;> exact ⟨fun _ h => (nomatch h), fun _ _ h => (nomatch h)⟩

/-- Under the invariant no micro-step faults. -/
theorem microStep_ne_fault {inv : Bool} {m : Micro} {f : Fault} (hk : k.Inv)
    (hm : MicroInv h a k m) : microStep inv m k ≠ .fault f := by
  intro e
  cases m with
  | w3 r x i t => simp only [microStep] at e; split at e <;> cases e
  | r4 r m i n bs =>
    simp only [microStep, readOne] at e
    obtain ⟨-, rfl, f2, f3, -⟩ := hm
    split at e
    · next hx =>
      have := (hk.1 r).2.1 bs.length (lt_of_lt_of_le f3 f2)
      simp only [Ring.item] at this
      simp only [Block.readSlot, Block.head] at hx
      rw [hx] at this
      cases this
    · cases e
  | feed p raw =>
    simp only [microStep, feedMicro, feedBlock] at e
    obtain ⟨q', e', h1, -⟩ := feedParser_inv (p := p) (b := feedByte inv raw) (hk.2.1 p)
    simp [h1] at e
  | w1 r x => cases e
  | w2 r x i => cases e
  | w4 r x i t => cases e
  | w5 r x i t => cases e
  | r1 r n => cases e
  | r2 r n t => cases e
  | r3 r n t i => cases e
  | r5 r m i n bs => cases e
  | c1 r => cases e
  | c2 r t => cases e
  | f1 r => cases e
  | f2 r t => cases e

/-! ## The parts of the machine's invariant -/

/-- While agent `b` moves, what is known of the others' locals survives; what is known of its own is
shown anew. -/
theorem opsInv.step {s t : State} (hs : opsInv s) (hp : t.params = s.params)
    (ho : ∀ c, c ≠ b → t.opOf c = s.opOf c)
    (hd : ∀ c, c ≠ b → Drift s.params.harness c s.block t.block)
    (hb : ∀ m, t.opOf b = some m → MicroInv s.params.harness b t.block m) : opsInv t := by
  intro c m hc
  rw [hp]
  by_cases e : c = b
  · subst e; exact hb m hc
  · exact (hs c m (ho c e ▸ hc)).drift (hd c e)

/-- A response within its sizes keeps MAIN's snapshot and scratch buffer within theirs. -/
theorem MainLoop.Inv.advance {l : MainLoop} (hl : l.Inv) (q : Params) {resp : Response}
    (hc : ∀ n, resp = .count n → n ≤ Config.capacity)
    (hr : ∀ n bs, resp = .read n bs → bs.length ≤ Config.scratchCap) : (l.advance q resp).Inv := by
  unfold MainLoop.advance
  split
  · exact hl
  · exact hl
  · split
    · exact ⟨hc _ rfl, hl.2⟩
    · exact ⟨hc _ rfl, hl.2⟩
  · unfold MainLoop.afterRead
    split
    · split <;> exact ⟨hl.1, hr _ _ rfl⟩
    · exact ⟨hl.1, hr _ _ rfl⟩
  all_goals exact hl

theorem MainLoop.Inv.control {l : MainLoop} (hl : l.Inv) : l.control.Inv := by
  unfold MainLoop.control
  split <;> exact hl

end Sys2Proof.Machine
end

