-- ==== Sys2Proof/Laws/PerInstr.lean ====
section
/-! SUPPORT. The family RowBits: the word of every operation has the bits of its opcode-table row under
the row's mask (30_encoding.md rule R83), one lemma a constructor. -/

namespace Sys2Proof.Laws.RowBits

/-- Under its row's mask the word of an operation is its row's match value. -/
def Statement (i : Instr) : Prop := encode i &&& rowMask i = rowMatch i

/-- The row masks keep `op` and `z`, and beside them `rg` or `imm8` or both. -/
theorem opWord_and (op : BitVec 4) (p : Port) (rg : BitVec 1) (imm : Byte) (mr : BitVec 1)
    (mi : Byte) :
    opWord op p rg imm &&& (15#4 ++ 0#2 ++ mr ++ 1#1 ++ mi : Word) =
      op ++ 0#2 ++ (rg &&& mr) ++ 0#1 ++ (imm &&& mi) := by
  have h : op &&& 15#4 = op := by revert op; decide
  rw [opWord, BitVec.and_append, BitVec.and_append, BitVec.and_append, BitVec.and_append, h]
  simp

theorem rbWrite (r : RingId) (b : Byte) : Statement (.rbWrite r b) := by
  have h := opWord_and 0#4 r.port (codeOfDir r.dir) b 0#1 0#8
  simpa [Statement, encode, rowMask, rowMatch] using h

theorem rbRead (r : RingId) (m : Nat) : Statement (.rbRead r m) := by
  have h := opWord_and 1#4 r.port (codeOfDir r.dir) (BitVec.ofNat 8 m) 0#1 0#8
  simpa [Statement, encode, rowMask, rowMatch] using h

theorem rbCount (r : RingId) : Statement (.rbCount r) := by
  have h := opWord_and 2#4 r.port (codeOfDir r.dir) 0#8 0#1 255#8
  simpa [Statement, encode, rowMask, rowMatch] using h

theorem rbIsfull (r : RingId) : Statement (.rbIsfull r) := by
  have h := opWord_and 3#4 r.port (codeOfDir r.dir) 0#8 0#1 255#8
  simpa [Statement, encode, rowMask, rowMatch] using h

theorem irqRx (p : Port) (b : Byte) : Statement (.irqRx p b) := by
  have h := opWord_and 4#4 p 0#1 b 1#1 0#8
  simpa [Statement, encode, rowMask, rowMatch] using h

theorem irqTx (p : Port) : Statement (.irqTx p) := by
  have h := opWord_and 5#4 p 1#1 0#8 1#1 255#8
  simpa [Statement, encode, rowMask, rowMatch] using h

theorem irqTxc (p : Port) : Statement (.irqTxc p) := by
  have h := opWord_and 6#4 p 1#1 0#8 1#1 255#8
  simpa [Statement, encode, rowMask, rowMatch] using h

theorem fpFeed (p : Port) (raw : Byte) : Statement (.fpFeed p raw) := by
  have h := opWord_and 7#4 p 0#1 raw 1#1 0#8
  simpa [Statement, encode, rowMask, rowMatch] using h

end Sys2Proof.Laws.RowBits
end

