-- ==== Sys2Proof/Laws/Run.lean ====
section
/-! SUPPORT. Runs: reaching a state by steps, one operation of MAIN from its first micro-step to its
response with nothing in between, and one operation of MAIN.LOOP. -/

namespace Sys2Proof.Machine

/-! ## Reaching a state -/

theorem Reaches.refl (s : State) : Reaches s s := ⟨0, rfl⟩

theorem Reaches.head {s t u : State} (e : step s = .next t) (h : Reaches t u) : Reaches s u := by
  obtain ⟨n, hn⟩ := h
  exact ⟨n + 1, by simp [runSteps, e, hn]⟩

theorem Reaches.trans {s t u : State} (h : Reaches s t) (h' : Reaches t u) : Reaches s u := by
  obtain ⟨n, hn⟩ := h
  induction n generalizing s with
  | zero => cases hn; exact h'
  | succ n ih =>
    simp only [runSteps] at hn
    split at hn
    · next e => exact .head e (ih hn)
    · cases hn
    · cases hn

theorem runSteps_succ {n : Nat} {s t : State} {x : Host.Outcome State Fault Refusal}
    (e : step s = .next t) (h : runSteps n t = x) : runSteps (n + 1) s = x := by
  simp only [runSteps, e]; exact h

/-! ## Single steps of a booted machine -/

/-- A turn does not wait for an agent with no operation in progress. -/
theorem State.waitsFor_idle {s : State} {t : Turn} {a : Agent} (h : t.needsIdle = some a)
    (ho : s.opOf a = none) : s.waitsFor t = none := by simp [State.waitsFor, h, ho]

/-- A word of MAIN waits for nobody while MAIN is idle, an event's word never waits. -/
theorem State.waitsFor_request {s : State} {f : Iface} {w : Word}
    (h : f = .mainLoop → s.mainOp = none) : s.waitsFor (.request f w) = none := by
  refine State.waitsFor_idle rfl ?_
  cases f with
  | mainLoop => simp [agentOf, h rfl]
  | event p => rfl

/-- The next turn is taken when it waits for nobody. -/
theorem step_turn {s : State} {c : Config.Entry} {t : Turn} {rest : List Turn}
    (hc : s.block.cfg = some c) (ha : s.agenda = t :: rest) (h : s.waitsFor t = none) :
    step s = takeTurn t { s with agenda := rest } := by
  simp only [step, machineStep, hc, nextTurn, ha, h]

/-- A turn that waits for an agent lets that agent move. -/
theorem step_waits {s : State} {c : Config.Entry} {t : Turn} {rest : List Turn} {a : Agent}
    (hc : s.block.cfg = some c) (ha : s.agenda = t :: rest) (h : s.waitsFor t = some a) :
    step s = agentTurn a s := by simp only [step, machineStep, hc, nextTurn, ha, h]

/-- With nothing on the agenda MAIN goes on with its operation. -/
theorem step_micro {s : State} {c : Config.Entry} {op : InFlight} (hc : s.block.cfg = some c)
    (ha : s.agenda = []) (hm : s.mainOp = some op) : step s = continueOp op s := by
  simp [step, machineStep, hc, nextTurn, ha, mainTurn, hm]

theorem step_more {s : State} {c : Config.Entry} {op : InFlight} {m : Micro} {k : Block}
    (hc : s.block.cfg = some c) (ha : s.agenda = []) (hm : s.mainOp = some op)
    (h : microStep s.activeCfg.bitInvert op.micro s.block = .more m k) :
    step s = .next { s with block := k, mainOp := some { op with micro := m } } := by
  rw [step_micro hc ha hm, continueOp, h]

theorem step_done {s : State} {c : Config.Entry} {op : InFlight} {resp : Response}
    {x : Option Condition} {k : Block} (hc : s.block.cfg = some c) (ha : s.agenda = [])
    (hm : s.mainOp = some op)
    (h : microStep s.activeCfg.bitInvert op.micro s.block = .done resp x k)
    (hs : scratchOverrun op.owner resp = none) : step s = .next (finishOp op resp x k s) := by
  rw [step_micro hc ha hm, continueOp, h]
  simp only [endOp, hs]

/-- With nothing on the agenda and no operation in progress, a position without an operation takes its
local step. -/
theorem step_control {s : State} {c : Config.Entry} (hc : s.block.cfg = some c)
    (ha : s.agenda = []) (hn : s.mainOp = none) (hi : s.loop.nextOp = none) :
    step s = .next { s with loop := s.loop.control } := by
  simp [step, machineStep, hc, nextTurn, ha, mainTurn, hn, loopTurn, hi]

/-! ## The loop of micro-step R4 -/

theorem reaches_reads {c : Config.Entry} {o : Owner} {r : RingId} {m n : Nat} (bs : List Byte) :
    ∀ (done : List Byte) (s : State), s.block.cfg = some c → s.agenda = [] →
      s.mainOp = some ⟨afterRead r m (s.block.head r) n done, o⟩ → done.length + bs.length = n →
      readSlots s.block r (s.block.head r) done.length bs.length = .ok bs →
      Reaches s { s with mainOp := some ⟨.r5 r m (s.block.head r) n (done ++ bs), o⟩ } := by
  induction bs with
  | nil =>
    intro done s _ _ hm hl _
    have h : afterRead r m (s.block.head r) n done = .r5 r m (s.block.head r) n done := by
      simp at hl; simp [afterRead, hl]
    rw [h] at hm
    rw [List.append_nil, ← hm]
    exact .refl s
  | cons b bs ih =>
    intro done s hc ha hm hl hr
    simp only [List.length_cons] at hl
    have h : afterRead r m (s.block.head r) n done = .r4 r m (s.block.head r) n done := by
      unfold afterRead; rw [if_pos (by omega)]
    rw [h] at hm
    simp only [List.length_cons, readSlots] at hr
    split at hr
    · cases hr
    · next x hx =>
      split at hr
      · cases hr
      · next y hy =>
        cases hr
        refine .head (step_more hc ha hm (m := afterRead r m (s.block.head r) n (done ++ [b]))
          (k := s.block) (by simp only [microStep, readOne, hx])) ?_
        have := ih (done ++ [b])
          { s with mainOp := some ⟨afterRead r m (s.block.head r) n (done ++ [b]), o⟩ } hc ha rfl
          (by simp; omega) (by simpa using hy)
        simpa using this

/-! ## One whole operation -/

theorem withBlock_idle {s : State} (hn : s.mainOp = none) (k : Block) :
    ({ s with block := k, mainOp := none } : State) = s.withBlock k := by
  rw [State.withBlock, ← hn]

/-- Only a read gives bytes for the scratch buffer. -/
theorem scratchOverrun_frame (o : Owner) (f : Option (List Byte)) :
    scratchOverrun o (frameResponse f) = none := by cases o <;> cases f <;> rfl

theorem scratchOverrun_ok (o : Owner) (b : Bool) : scratchOverrun o (.ok b) = none := by
  cases o <;> rfl

theorem scratchOverrun_count (o : Owner) (n : Nat) : scratchOverrun o (.count n) = none := by
  cases o <;> rfl

theorem scratchOverrun_isFull (o : Owner) (b : Bool) : scratchOverrun o (.isFull b) = none := by
  cases o <;> rfl

/-- A read of a ring that holds at most 128 bytes fits. -/
theorem scratchOverrun_le {o : Owner} {n : Nat} {bs : List Byte}
    (h : o = .loop → bs.length ≤ Config.scratchCap) : scratchOverrun o (.read n bs) = none := by
  cases o with
  | loop => exact scratchOverrun_read.2 (h rfl)
  | harness => rfl

/-- An operation that answers, taken micro-step by micro-step with nothing in between, reaches the
state the operation run whole leads to, its response delivered to its owner. -/
theorem reaches_operation {i : Instr} {m : Micro} {c : Config.Entry} {o : Owner} {s t : State}
    (hc : s.block.cfg = some c) (ha : s.agenda = []) (hn : s.mainOp = none)
    (hmay : s.mayIssue .main i = true) (hf : firstMicro i = some m)
    (hcap : o = .loop → ∀ r, s.block.cnt r ≤ Config.capacity) (e : exec i s = .next t) :
    ∃ resp x, t.answers = s.answers ++ [⟨.main, some i, resp, x⟩] ∧
      Reaches { s with mainOp := some ⟨m, o⟩ } (t.deliver o resp) := by
  have hid : ({ s with mainOp := none } : State) = s := by rw [← hn]
  cases i with
  | irqRx p b => cases hf
  | irqTx p => cases hf
  | irqTxc p => cases hf
  | rbWrite r b =>
    cases hf
    rcases rbWriteAs_next (a := .main) e with ⟨h, -⟩ | ⟨-, rfl⟩
    · rw [hmay] at h; cases h
    refine ⟨_, _, rfl, ?_⟩
    refine .head (step_more hc ha rfl rfl) ?_
    refine .head (step_more hc ha rfl rfl) ?_
    by_cases hfull : indexFull (s.block.tail r) (s.block.head r) = true
    · refine .head (step_done hc ha rfl (resp := .ok false) (x := writeCondition false)
        (k := s.block) (by simp [microStep, hfull]) (scratchOverrun_ok _ _)) ?_
      simp only [rbWrite, hfull, if_true, finishOp, microInstr, hid]
      exact .refl _
    · refine .head (step_more hc ha rfl (m := .w4 r b (s.block.head r) (s.block.tail r))
        (k := s.block) (by simp [microStep, hfull])) ?_
      refine .head (step_more hc ha rfl rfl) ?_
      refine .head (step_done (c := c) (by simpa [Block.writeSlot] using hc) ha rfl rfl
        (scratchOverrun_ok _ _)) ?_
      simp only [rbWrite, hfull, finishOp, microInstr, withBlock_idle hn]
      exact .refl _
  | rbRead r n =>
    cases hf
    rcases rbReadAs_next (a := .main) e with ⟨h, -⟩ | ⟨-, k, bs, hr, rfl⟩
    · rw [hmay] at h; cases h
    refine ⟨_, _, rfl, ?_⟩
    refine .head (step_more hc ha rfl rfl) ?_
    refine .head (step_more hc ha rfl rfl) ?_
    refine .head (step_more hc ha rfl rfl) ?_
    have hl : readCount n (s.block.tail r) (s.block.head r) = bs.length := (rbRead_ok hr).1.symm
    have hfit : o = .loop → bs.length ≤ Config.scratchCap := fun h =>
      (rbRead_ok hr).1 ▸ (Nat.min_le_right _ _).trans (hcap h r)
    unfold rbRead at hr
    simp only at hr
    split at hr
    · cases hr
    · next bs' hbs =>
      cases hr
      rw [hl] at hbs ⊢
      refine .trans (reaches_reads (c := c) (o := o) (r := r) (m := n) bs []
        { s with mainOp := some ⟨afterRead r n (s.block.head r) bs.length [], o⟩ } hc ha rfl
        (by simp) (by simpa using hbs)) ?_
      refine .head (step_done hc ha rfl rfl (scratchOverrun_le hfit)) ?_
      simp only [finishOp, microInstr, withBlock_idle hn]
      exact .refl _
  | rbCount r =>
    cases hf
    rcases rbCountAs_next (a := .main) e with ⟨h, -⟩ | ⟨-, rfl⟩
    · rw [hmay] at h; cases h
    refine ⟨_, _, rfl, .head (step_more hc ha rfl rfl) (.head (step_done hc ha rfl rfl
      (scratchOverrun_count _ _)) ?_)⟩
    simp only [finishOp, microInstr, hid]
    exact .refl _
  | rbIsfull r =>
    cases hf
    rcases rbIsfullAs_next (a := .main) e with ⟨h, -⟩ | ⟨-, rfl⟩
    · rw [hmay] at h; cases h
    refine ⟨_, _, rfl, .head (step_more hc ha rfl rfl) (.head (step_done hc ha rfl rfl
      (scratchOverrun_isFull _ _)) ?_)⟩
    simp only [finishOp, microInstr, hid]
    exact .refl _
  | fpFeed p raw =>
    cases hf
    rcases fpFeedAs_next (a := .main) e with ⟨h, -⟩ | ⟨-, q, f, hq, rfl⟩
    · rw [hmay] at h; cases h
    refine ⟨_, _, rfl, .head (step_done hc ha rfl (resp := frameResponse f)
      (x := feedCondition (s.fedByte raw) (s.block.parser p)) (k := s.block.setParser p q) ?_
      (scratchOverrun_frame _ _)) ?_⟩
    · have hb : feedBlock p (s.fedByte raw) s.block = .ok (s.block.setParser p q, f) := by
        simp [feedBlock, hq]
      change feedMicro p (s.fedByte raw) s.block = _
      unfold feedMicro
      rw [hb]
    · simp only [finishOp, microInstr, withBlock_idle hn]
      exact .refl _

/-! ## MAIN.LOOP -/

/-- With no harness MAIN holds the role of every operation its loop issues. -/
theorem nextOp_mayIssue {s : State} {i : Instr} (hh : s.params.harness = none)
    (h : s.loop.nextOp = some i) : s.mayIssue .main i = true := by
  unfold MainLoop.nextOp at h
  split at h
  · cases h; simp [State.mayIssue, mayIssue, hh, systemConsumer, MainLoop.srcRing]
  · cases h; simp [State.mayIssue, mayIssue, hh, systemConsumer, MainLoop.srcRing]
  · cases h; simp [State.mayIssue, mayIssue, hh, systemConsumer, MainLoop.srcRing]
  · obtain ⟨b, -, rfl⟩ := Option.map_eq_some_iff.1 h; rfl
  · obtain ⟨b, -, rfl⟩ := Option.map_eq_some_iff.1 h
    simp [State.mayIssue, mayIssue, hh, systemProducer]

/-- One operation of MAIN.LOOP with nothing in between: the state of the operation run whole, and
MAIN's position moved on by the response. -/
theorem reaches_loopOp {i : Instr} {c : Config.Entry} {s t : State} (hc : s.block.cfg = some c)
    (ha : s.agenda = []) (hn : s.mainOp = none) (hmay : s.mayIssue .main i = true)
    (hcap : ∀ r, s.block.cnt r ≤ Config.capacity) (hi : s.loop.nextOp = some i)
    (e : exec i s = .next t) :
    ∃ resp x, t.answers = s.answers ++ [⟨.main, some i, resp, x⟩] ∧
      Reaches s { t with loop := s.loop.advance s.params resp } := by
  obtain ⟨m, hf⟩ : ∃ m, firstMicro i = some m := by
    cases i <;> first | exact ⟨_, rfl⟩ | simp [State.mayIssue, mayIssue] at hmay
  obtain ⟨resp, x, h1, h2⟩ := reaches_operation (o := .loop) hc ha hn hmay hf (fun _ => hcap) e
  refine ⟨resp, x, h1, ?_⟩
  have su : sameUser s t := by rw [exec_eq_performAs] at e; exact performAs_sameUser e
  have hd : t.deliver .loop resp = { t with loop := s.loop.advance s.params resp } := by
    simp [State.deliver, su.2.2.1, su.2.2.2.1]
  rw [hd] at h2
  refine .head ?_ h2
  simp [step, machineStep, hc, nextTurn, ha, mainTurn, hn, loopTurn, hi, issueOp, hmay, hf]

end Sys2Proof.Machine
end

