-- ==== Sys2Proof/Tests/Slice0.lean ====
section
/-! SUPPORT. Tests of the model against values written out from the spec: the smoke test of WellFormed,
words written bit by bit, worked examples and vectors of 95_test_vectors.md (each test names its own),
and for every statement with hypotheses one concrete state and operands that meet all of them. -/

namespace Sys2Proof.Tests

open Sys2Proof Sys2Proof.Machine

/-! ## Small states -/

/-- After boot with `SEL_CODE = 1`: `cfg` is `(false, 9600)`, everything else at reset. -/
def idle : State := bootStep State.reset

/-- After boot with `SEL_CODE = 0`: `bitInvert` is set. -/
def idleInvert : State := bootStep (State.resetWith ⟨.passthrough, .one, 0#4, none⟩)

/-- After boot in framed mode. -/
def idleFramed : State := bootStep (State.resetWith ⟨.framed, .one, 1#4, none⟩)

/-- After boot with a test harness on ring `r`. -/
def idleHarness (r : RingId) : State := bootStep (State.resetWith ⟨.passthrough, .one, 1#4, some r⟩)

/-- The state with ring `r` replaced. -/
def withRing (r : RingId) (g : Ring) (s : State) : State := { s with block := s.block.setRing r g }

/-- The state with the parser of `p` replaced. -/
def withParser (p : Port) (q : Parser) (s : State) : State :=
  { s with block := s.block.setParser p q }

/-- A ring at `(0, n)` with slot `i` holding `i`. -/
def ringOf (n : Nat) : Ring :=
  ⟨0#8, BitVec.ofNat 8 n, (List.range n).map fun i => (i, BitVec.ofNat 8 i)⟩

/-- A ring whose indices are given and whose slots hold nothing. -/
def bare (h t : Nat) : Ring := ⟨BitVec.ofNat 8 h, BitVec.ofNat 8 t, []⟩

/-- A parser in WaitETX with `n` bytes 55 after a flush. -/
def parserOf (n : Nat) : Parser :=
  ⟨.waitETX, BitVec.ofNat 10 n, (List.range n).map fun i => (i, 0x55#8)⟩

/-- A parser in WaitETX whose command buffer holds one STX. -/
def parserStx : Parser := ⟨.waitETX, 1#10, [(0, 0x02#8)]⟩

/-- MAIN at another point of its loop. -/
def atPoint (x : PollPoint) (s : State) : State := { s with loop := { s.loop with point := x } }

/-- The state with an agenda. -/
def withAgenda (a : List Turn) (s : State) : State := { s with agenda := a }

/-- The next state of an outcome. -/
def after (o : Host.Outcome State Fault Refusal) : Option State :=
  match o with
  | .next t => some t
  | .fault _ => none
  | .refused _ => none

/-- The ring, and the response given last, after an operation. -/
def ringAfter (r : RingId) (o : Host.Outcome State Fault Refusal) : Option (Ring × Option Response) :=
  (after o).map fun t => (t.block.ring r, (t.answers.getLast?).map Answer.resp)

/-- State, length and command buffer of a parser, and the response given last, after a step. -/
def parserAfter (p : Port) (o : Host.Outcome State Fault Refusal) :
    Option (PState × Nat × List Byte × Option Response) :=
  (after o).map fun t => ((t.block.parser p).pstate, (t.block.parser p).clen.toNat,
    (t.block.parser p).cmd, (t.answers.getLast?).map Answer.resp)

/-! ## Well-formedness: the one check there is refuses `maxCount` 256 -/

theorem test_wf_refuses_read_of_256 : (Instr.rbRead (rxRing .pc) 256).wf = false := by decide

theorem test_wf_admits_read_of_255 : (Instr.rbRead (rxRing .pc) 255).wf = true := by decide

/-! ## Decoding: words written bit by bit from rule R77, fields `op port rg z imm8` -/

theorem test_decode_rbWrite :
    decode 0b0000_10_1_0_01010110#16 = .ok (.rbWrite (txRing .slave) 0x56#8) := by decide

theorem test_decode_rbRead :
    decode 0b0001_10_0_0_11111111#16 = .ok (.rbRead (rxRing .slave) 255) := by decide

theorem test_decode_rbCount :
    decode 0b0010_00_1_0_00000000#16 = .ok (.rbCount (txRing .pc)) := by decide

theorem test_decode_rbIsfull :
    decode 0b0011_01_0_0_00000000#16 = .ok (.rbIsfull (rxRing .master)) := by decide

theorem test_decode_irqRx :
    decode 0b0100_10_0_0_10000001#16 = .ok (.irqRx .slave 0x81#8) := by decide

theorem test_decode_irqTx : decode 0b0101_01_1_0_00000000#16 = .ok (.irqTx .master) := by decide

theorem test_decode_irqTxc : decode 0b0110_00_1_0_00000000#16 = .ok (.irqTxc .pc) := by decide

theorem test_decode_fpFeed :
    decode 0b0111_10_0_0_10111110#16 = .ok (.fpFeed .slave 0xBE#8) := by decide

theorem test_encode_read : encode (.rbRead (rxRing .master) 3) = 0x1403#16 := by decide

/-- V23 to V29: words that are illegal whatever interface they arrive on. -/
theorem test_decode_illegal :
    decode 0x8000#16 = .error .reservedOp ∧ decode 0x0C41#16 = .error .portThree ∧
    decode 0x0341#16 = .error .zNotZero ∧ decode 0x2401#16 = .error .immNotZero ∧
    decode 0x4602#16 = .error .rgNotZero ∧ decode 0x5000#16 = .error .rgNotOne ∧
    decode 0x7603#16 = .error .rgNotZero := by decide

/-- V30, V31, and an event word for another port. -/
theorem test_accepted_names_interface :
    accepted .mainLoop 0x4402#16 = none ∧ accepted (.event .master) 0x2400#16 = none ∧
    accepted (.event .slave) 0x4402#16 = none ∧
    accepted (.event .master) 0x4402#16 = some (.irqRx .master 0x02#8) := by decide

theorem test_table_word : decodeTableWord 16 0x7403 = some (.fpFeed .master 0x03#8) := by decide

/-! ## The step -/

/-- V23: an illegal word is answered `ILLEGAL` and marks the run (PRG6). -/
theorem test_step_illegal :
    (after (step (withAgenda [.request .mainLoop 0x8000#16] idle))).map
      (fun t => (t.answers, t.marked)) =
      some ([⟨.main, none, .illegal, some .illegal⟩], true) := by decide

/-- PRG1 step 1, the word placed right after reset. -/
theorem test_step_runs_placed_word :
    ringAfter (rxRing .master) (step (State.reset.withFetchWord 16 0x4410)) =
      some (⟨0#8, 1#8, [(0, 0x10#8)]⟩, some (.ok true)) := by decide

/-- With nothing placed the first step after boot is L1 of the first poll: 0x3400 begins (R166). -/
theorem test_step_idle_polls_master :
    (after (step idle)).map State.mainOp = some (some ⟨.f1 (rxRing .master), .loop⟩) := by decide

/-- S7: codes 0, 9 and 15. -/
theorem test_config_select :
    cfgSelect 0#4 = ⟨true, 9600#32⟩ ∧ cfgSelect 9#4 = ⟨false, 115200#32⟩ ∧
    cfgSelect 15#4 = ⟨false, 9600#32⟩ := by decide

/-! ## Ring buffer -/

/-- V3: the tail wraps from 255 to 0 and the byte goes to slot 127. -/
theorem test_rbWrite_tail_wraps :
    ringAfter (txRing .pc) (exec (.rbWrite (txRing .pc) 0x41#8)
      (withRing (txRing .pc) (bare 200 255) idle)) =
      some (⟨200#8, 0#8, [(127, 0x41#8)]⟩, some (.ok true)) := by decide

/-- V6: full with the tail below the head. -/
theorem test_rbWrite_full :
    ringAfter (txRing .pc) (exec (.rbWrite (txRing .pc) 0x41#8)
      (withRing (txRing .pc) (bare 128 0) idle)) =
      some (bare 128 0, some (.ok false)) := by decide

/-- V7: a read that crosses slot 127 to slot 0. -/
theorem test_rbRead_wraps :
    ringAfter (rxRing .master) (exec (.rbRead (rxRing .master) 3)
      (withRing (rxRing .master)
        ⟨126#8, 130#8, [(0, 0x12#8), (1, 0x13#8), (126, 0x10#8), (127, 0x11#8)]⟩ idle)) =
      some (⟨129#8, 130#8, [(0, 0x12#8), (1, 0x13#8), (126, 0x10#8), (127, 0x11#8)]⟩,
        some (.read 3 [0x10#8, 0x11#8, 0x12#8])) := by decide

/-- V13: the count is modulo 256. -/
theorem test_rbCount_wraps :
    ringAfter (rxRing .slave) (exec (.rbCount (rxRing .slave))
      (withRing (rxRing .slave) (bare 250 3) idle)) =
      some (bare 250 3, some (.count 9)) := by decide

/-- V19: indices that differ in bit 7 only are full. -/
theorem test_rbIsfull_full :
    ringAfter (rxRing .slave) (exec (.rbIsfull (rxRing .slave))
      (withRing (rxRing .slave) (bare 77 205) idle)) =
      some (bare 77 205, some (.isFull true)) := by decide

/-- V18: equal indices are empty. -/
theorem test_rbIsfull_empty :
    ringAfter (rxRing .slave) (exec (.rbIsfull (rxRing .slave))
      (withRing (rxRing .slave) (bare 77 77) idle)) =
      some (bare 77 77, some (.isFull false)) := by decide

/-- V21: `MAIN` is not the consumer of a transmit ring. -/
theorem test_rbRead_refused :
    ringAfter (txRing .pc) (exec (.rbRead (txRing .pc) 1) idle) =
      some (Ring.reset, some .refused) := by decide

/-! ## Interrupt gate -/

/-- V36: a byte for a full ring is lost. -/
theorem test_irqRx_full :
    (ringAfter (rxRing .slave) (exec (.irqRx .slave 0x55#8)
      (withRing (rxRing .slave) (bare 0 128) idle))).map Prod.fst = some (bare 0 128) := by decide

/-- V38: the oldest byte goes out; `PC` has no driver enable. -/
theorem test_irqTx_pc :
    (after (exec (.irqTx .pc)
      (withRing (txRing .pc) ⟨0#8, 2#8, [(0, 0x41#8), (1, 0x42#8)]⟩ idle))).map
      (fun t => (t.block.head (txRing .pc), t.block.wireOf .pc, t.block.deMaster,
        t.block.deSlave)) = some (1#8, [0x41#8], false, false) := by decide

/-- V40: the driver is enabled. -/
theorem test_irqTx_master :
    (after (exec (.irqTx .master) (withRing (txRing .master) ⟨0#8, 1#8, [(0, 0x55#8)]⟩ idle))).map
      (fun t => (t.block.head (txRing .master), t.block.de .master, t.block.wireOf .master)) =
      some (1#8, some true, [0x55#8]) := by decide

/-- V41: an empty ring releases the driver. -/
theorem test_irqTxc_releases :
    (after (exec (.irqTxc .slave) (withRing (txRing .slave) (bare 3 3)
      { idle with block := idle.block.setDe .slave true }))).map (fun t => t.block.de .slave) =
      some (some false) := by decide

/-- V42: with more bytes to follow the driver stays. -/
theorem test_irqTxc_keeps :
    (after (exec (.irqTxc .slave) (withRing (txRing .slave) (bare 3 4)
      { idle with block := idle.block.setDe .slave true }))).map (fun t => t.block.de .slave) =
      some (some true) := by decide

/-! ## Frame parser -/

/-- V49: the shortest frame that begins with an STX. -/
theorem test_fpFeed_etx :
    parserAfter .master (exec (.fpFeed .master 0x03#8) (withParser .master parserStx idle)) =
      some (.waitSTX, 0, [], some (.frame [0x02#8, 0x03#8])) := by decide

/-- V65, second byte: with `bitInvert` the raw byte 02 is the ordinary byte FD. -/
theorem test_fpFeed_invert :
    parserAfter .master (exec (.fpFeed .master 0x02#8) (withParser .master parserStx idleInvert)) =
      some (.waitETX, 2, [0x02#8, 0xFD#8], some .noFrame) := by decide

/-! ## States that meet the invariants -/

theorem reset_ring_inv : Ring.reset.Inv := by
  refine ⟨by decide, fun i hi => absurd hi (by simp [Ring.cnt, Ring.reset]), by decide⟩

theorem reset_parser_inv : Parser.reset.Inv := by
  refine ⟨fun _ => rfl, by decide, fun i hi => absurd hi (by simp [Parser.reset]), by decide⟩

theorem reset_block_inv : Block.reset.Inv := by
  refine ⟨fun r => ?_, fun p => ?_, fun e h => nomatch h⟩
  · have h : Block.reset.ring r = Ring.reset := by obtain ⟨p, d⟩ := r; cases p <;> cases d <;> rfl
    rw [h]; exact reset_ring_inv
  · have h : Block.reset.parser p = Parser.reset := by cases p <;> rfl
    rw [h]; exact reset_parser_inv

/-- The blocks of the three idle states meet the invariant. -/
theorem booted_block_inv (code : BitVec 4) :
    ({ Block.reset with cfg := some (cfgSelect code) } : Block).Inv := by
  refine ⟨reset_block_inv.1, reset_block_inv.2.1, fun e h => ?_⟩
  have hm : ∀ c : BitVec 4, cfgSelect c ∈ cfgTable := by decide
  exact Option.some.inj h ▸ hm code

theorem idle_block_inv : idle.block.Inv := booted_block_inv 1#4

theorem idleFramed_block_inv : idleFramed.block.Inv := booted_block_inv 1#4

/-- A byte array written from address 0 on. -/
theorem table_wf {f : Nat → Byte} {n size : Nat} (h : n ≤ size) :
    Memory.wf size ((List.range n).map fun i => (i, f i)) := by
  refine ⟨List.pairwise_map.2 List.pairwise_lt_range, fun c hc => ?_⟩
  obtain ⟨i, hi, rfl⟩ := List.mem_map.1 hc
  exact Nat.lt_of_lt_of_le (List.mem_range.1 hi) h

/-- Every byte of such an array reads. -/
theorem table_read {f : Nat → Byte} {n i : Nat} (h : i < n) :
    (Memory.read ((List.range n).map fun i => (i, f i)) i).isSome = true := by
  have key : ∀ l : List Nat, i ∈ l →
      (Memory.read (l.map fun i => (i, f i)) i).isSome = true := by
    intro l
    induction l with
    | nil => intro h; cases h
    | cons j l ih =>
      intro hm
      simp only [List.map_cons, Memory.read]
      split
      · rfl
      · next hne => exact ih ((List.mem_cons.1 hm).resolve_left hne)
  exact key _ (List.mem_range.2 h)

theorem ringOf_inv {n : Nat} (h : n ≤ 128) : (ringOf n).Inv := by
  have hc : (ringOf n).cnt = n := by
    simp only [ringOf, Ring.cnt, indexDiff]; bv_omega
  rw [Ring.Inv, hc]
  refine ⟨h, fun i hi => ?_, table_wf h⟩
  have hs : slotOf ((ringOf n).head + BitVec.ofNat 8 i) = i := by
    simp [ringOf, slotOf, Config.capacity]; omega
  rw [Ring.item, hs]
  exact table_read hi

/-- The receive ring of a port that holds the smallest frame. -/
def ringFrame : Ring := ⟨0#8, 2#8, [(0, 0x02#8), (1, 0x03#8)]⟩

theorem ringFrame_inv : ringFrame.Inv := by refine ⟨?_, ?_, ?_⟩ <;> decide

theorem parserOf_inv {n : Nat} (h : n < 512) : (parserOf n).Inv := by
  have hc : (parserOf n).clen.toNat = n := by simp [parserOf]; omega
  rw [Parser.Inv, hc]
  exact ⟨(nomatch ·), h, fun i hi => table_read hi, table_wf (Nat.le_of_lt h)⟩

theorem parserStx_inv : parserStx.Inv := by
  refine ⟨(nomatch ·), ?_, ?_, ?_⟩ <;> decide

/-- With no operation in progress there is nothing to say of one. -/
theorem noOps {s : State} (hm : s.mainOp = none) (hp : s.harnessOps = ⟨none, none⟩) : opsInv s := by
  intro a m h
  rcases a with _ | p | x
  · simp [State.opOf, hm] at h
  · cases h
  · cases x <;> simp [State.opOf, hp, HarnessOps.get] at h

/-- MAIN's operation is the only one in progress. -/
theorem mainOps {s : State} {op : InFlight} (hm : s.mainOp = some op)
    (hp : s.harnessOps = ⟨none, none⟩) (h : MicroInv s.params.harness .main s.block op.micro) :
    opsInv s := by
  intro a m h'
  rcases a with _ | p | x
  · simp [State.opOf, hm] at h'; exact h' ▸ h
  · cases h'
  · cases x <;> simp [State.opOf, hp, HarnessOps.get] at h'

theorem idle_loop_inv : idle.loop.Inv := ⟨Nat.zero_le _, Nat.zero_le _⟩

theorem withRing_inv {r : RingId} {g : Ring} {s : State} (hs : s.Inv) (hg : g.Inv)
    (hm : s.mainOp = none) (hp : s.harnessOps = ⟨none, none⟩) : (withRing r g s).Inv :=
  ⟨hs.1.setRing hg, noOps hm hp, hs.2.2⟩

theorem idle_inv : idle.Inv := ⟨idle_block_inv, noOps rfl rfl, idle_loop_inv⟩

theorem idleFramed_inv : idleFramed.Inv := ⟨idleFramed_block_inv, noOps rfl rfl, idle_loop_inv⟩

/-! ## Witnesses: for each statement a state and operands that meet all its hypotheses -/

theorem test_witness_BootStepSelectsConfig : State.reset.block.cfg = none := rfl

theorem test_witness_ConfigSelectFollowsTable :
    10 ≤ (10#4).toNat ∧ 10 ≤ (15#4).toNat := by decide

theorem test_witness_ConfigIsConstantAfterBoot :
    (∃ t, step idle = .next t) ∧ idle.block.cfg = some ⟨false, 9600#32⟩ := ⟨⟨_, rfl⟩, rfl⟩

theorem test_witness_DecodeOfEncodeIsIdentity :
    (Instr.rbRead (txRing .slave) 255).wf = true ∧ (Instr.rbRead (txRing .slave) 0).wf = true := by
  decide

theorem test_witness_EncodeOfDecodeIsIdentity :
    decode 0x78FF#16 = .ok (.fpFeed .slave 0xFF#8) := by decide

/-- A word of MAIN with MAIN idle, and an event word with MAIN inside an operation. -/
def midCount (a : List Turn) : State :=
  { withAgenda a idle with mainOp := some ⟨.c1 (rxRing .slave), .harness⟩ }

theorem test_witness_IllegalWordOnlyAnswered :
    idle.block.cfg = some ⟨false, 9600#32⟩ ∧ idle.mainOp = none ∧
    (withAgenda [.request .mainLoop 0x8000#16] idle).agenda = [.request .mainLoop 0x8000#16] ∧
    decode 0x8000#16 = .error .reservedOp ∧
    decode 0x2400#16 = .ok (.rbCount (rxRing .master)) ∧
    homeIface (.rbCount (rxRing .master)) ≠ .event .master := by decide

theorem test_witness_PlacedWordRunsNext : decode 0x5200#16 = .ok (.irqTx .pc) := by decide

/-- The harness's consumer inside RB.COUNT. -/
def midHarness (a : List Turn) : State :=
  { withAgenda a (idleHarness (rxRing .pc)) with harnessOps := ⟨none, some (.c1 (rxRing .pc))⟩ }

/-- One state for each kind of turn, and for each answer to a turn that begins an operation. -/
theorem test_witness_StepRunsDecodedOperation :
    idle.block.cfg = some ⟨false, 9600#32⟩ ∧ idle.mainOp = none ∧
    (midCount [.request (.event .pc) 0x5200#16]).block.cfg = some ⟨false, 9600#32⟩ ∧
    (idleHarness (rxRing .pc)).block.cfg = some ⟨false, 9600#32⟩ ∧
    -- a word of MAIN, and an event's word while MAIN is inside an operation
    ((withAgenda [.request .mainLoop 0x0241#16, .main] idle).agenda =
        [.request .mainLoop 0x0241#16, .main] ∧
      decode 0x0241#16 = .ok (.rbWrite (txRing .pc) 0x41#8) ∧
      homeIface (.rbWrite (txRing .pc) 0x41#8) = .mainLoop) ∧
    (decode 0x5200#16 = .ok (.irqTx .pc) ∧ homeIface (.irqTx .pc) = .event .pc ∧
      Iface.event .pc ≠ .mainLoop) ∧
    -- an abstract operation of an idle agent
    ((withAgenda [.abstract (.irq .pc) (.irqTx .pc)] idle).agenda =
        [.abstract (.irq .pc) (.irqTx .pc)] ∧ idle.opOf (.irq .pc) = none) ∧
    -- a word issued: with the role, without it, not an operation, another interface's
    (idle.mayIssue .main (.rbWrite (txRing .pc) 0x41#8) = true ∧
      decode 0x0041#16 = .ok (.rbWrite (rxRing .pc) 0x41#8) ∧
      homeIface (.rbWrite (rxRing .pc) 0x41#8) = .mainLoop ∧
      idle.mayIssue .main (.rbWrite (rxRing .pc) 0x41#8) = false ∧
      decode 0x8000#16 = .error .reservedOp ∧ homeIface (.irqTx .pc) ≠ .mainLoop) ∧
    -- a harness agent that begins an operation, with and without the role, and is inside one
    ((idleHarness (rxRing .pc)).harnessOps.get .consumer = none ∧
      (idleHarness (rxRing .pc)).mayIssue (.harness .consumer) (.rbCount (rxRing .pc)) = true ∧
      (idleHarness (rxRing .pc)).mayIssue (.harness .consumer) (.rbCount (rxRing .slave)) = false ∧
      (midHarness [.micro .consumer]).agenda = [.micro .consumer] ∧
      (midHarness [.micro .consumer]).harnessOps.get .consumer = some (.c1 (rxRing .pc))) ∧
    -- MAIN's turn inside an operation
    ((midCount [.main]).agenda = [.main] ∧
      (midCount [.main]).mainOp = some ⟨.c1 (rxRing .slave), .harness⟩) := by decide

/-- An abstract operation on the agenda is run for its agent, and taken off. -/
theorem test_step_abstract :
    (match step (withAgenda [.abstract .main (.rbWrite (txRing .pc) 0x41#8), .main] idle) with
      | .next t => some (t.block.content (txRing .pc), t.agenda)
      | .fault _ => none
      | .refused _ => none) = some ([0x41#8], [.main]) := by decide

theorem test_witness_SecondOperationWaits :
    ((midCount [.issue 0x0241#16]).block.cfg = some ⟨false, 9600#32⟩ ∧
      (midCount [.issue 0x0241#16]).mainOp = some ⟨.c1 (rxRing .slave), .harness⟩ ∧
      (midCount [.issue 0x0241#16]).agenda = [.issue 0x0241#16] ∧
      (Turn.issue 0x0241#16).needsIdle = some .main ∧
      ∃ u, step (midCount [.issue 0x0241#16]) = .next u) ∧
    (midHarness [.begin .consumer (.rbCount (rxRing .pc))]).block.cfg = some ⟨false, 9600#32⟩ ∧
      (midHarness [.begin .consumer (.rbCount (rxRing .pc))]).harnessOps.get .consumer =
        some (.c1 (rxRing .pc)) ∧
      (Turn.begin .consumer (.rbCount (rxRing .pc))).needsIdle = some (.harness .consumer) ∧
      ∃ u, step (midHarness [.begin .consumer (.rbCount (rxRing .pc))]) = .next u :=
  ⟨⟨rfl, rfl, rfl, rfl, ⟨_, rfl⟩⟩, rfl, rfl, rfl, ⟨_, rfl⟩⟩

theorem test_witness_RbWriteAcceptsWhenNotFull :
    (withRing (txRing .pc) (ringOf 127) idle).block.cnt (txRing .pc) = 127 ∧
    (withRing (txRing .pc) (ringOf 127) idle).producer (txRing .pc) = .main ∧
    (withRing (txRing .slave) (bare 255 0) idle).block.cnt (txRing .slave) ≠ 128 ∧
    (idleHarness (rxRing .pc)).block.cnt (rxRing .pc) ≠ 128 ∧
    (idleHarness (rxRing .pc)).producer (rxRing .pc) = .harness .producer := by decide

theorem test_witness_RbWriteRejectsWhenFull :
    (withRing (txRing .master) (bare 5 133) idle).block.cnt (txRing .master) = 128 ∧
    (withRing (txRing .master) (bare 5 133) idle).producer (txRing .master) = .main := by decide

theorem test_witness_RbReadReturnsOldestBytes :
    (withRing (rxRing .pc) (ringOf 2) idle).block.cnt (rxRing .pc) = 2 ∧
    (withRing (rxRing .pc) (ringOf 2) idle).consumer (rxRing .pc) = .main ∧
    ∀ i < (withRing (rxRing .pc) (ringOf 2) idle).block.cnt (rxRing .pc),
      ((withRing (rxRing .pc) (ringOf 2) idle).block.readSlot (rxRing .pc)
        ((withRing (rxRing .pc) (ringOf 2) idle).block.head (rxRing .pc) +
          BitVec.ofNat 8 i)).isSome := by
  decide

theorem test_witness_RbReadFaultsOnUnwrittenSlot :
    (withRing (rxRing .pc) (bare 0 1) idle).consumer (rxRing .pc) = .main ∧
    ∃ i < min 1 ((withRing (rxRing .pc) (bare 0 1) idle).block.cnt (rxRing .pc)),
      (withRing (rxRing .pc) (bare 0 1) idle).block.readSlot (rxRing .pc)
        ((withRing (rxRing .pc) (bare 0 1) idle).block.head (rxRing .pc) + BitVec.ofNat 8 i) = none :=
  ⟨rfl, 0, by decide, rfl⟩

theorem test_witness_CountAndIsFullAnswer :
    Agent.main = idle.consumer (rxRing .slave) ∧ Agent.main = idle.producer (txRing .pc) ∧
    Agent.irq .pc = idle.producer (rxRing .pc) := by decide

theorem test_witness_RoleViolationsAreRefused :
    (idle.params.harness ≠ some (rxRing .pc) ∧ idle.params.harness ≠ some (txRing .pc)) ∧
    (idleHarness (rxRing .pc)).params.harness = some (rxRing .pc) ∧
    Agent.main ≠ idle.producer (rxRing .pc) ∧ Agent.irq .pc ≠ idle.consumer (rxRing .pc) ∧
    (Agent.irq .master ≠ idle.producer (txRing .slave) ∧
      Agent.irq .master ≠ idle.consumer (txRing .slave)) ∧
    Agent.irq .master ≠ .irq .pc ∧
    Agent.irq .pc ≠ (idleHarness (rxRing .pc)).producer (rxRing .pc) ∧
    Agent.irq .pc ≠ (idleHarness (txRing .pc)).consumer (txRing .pc) ∧
    Agent.harness .consumer ≠ .main := by decide

theorem test_witness_RingOperationsOnContent :
    ((withRing (txRing .pc) (ringOf 127) idle).block.Inv ∧
      Agent.main = (withRing (txRing .pc) (ringOf 127) idle).producer (txRing .pc) ∧
      ((withRing (txRing .pc) (ringOf 127) idle).block.content (txRing .pc)).length = 127) ∧
    ((withRing (txRing .pc) (ringOf 128) idle).block.Inv ∧
      ((withRing (txRing .pc) (ringOf 128) idle).block.content (txRing .pc)).length = 128) ∧
    Agent.main = idle.consumer (rxRing .pc) :=
  have h := idle_block_inv.setRing (r := txRing .pc) (ringOf_inv (n := 127) (by decide))
  have h' := idle_block_inv.setRing (r := txRing .pc) (ringOf_inv (n := 128) (by decide))
  ⟨⟨h, rfl, (h.content_length _).trans (by decide)⟩,
    ⟨h', (h'.content_length _).trans (by decide)⟩, rfl⟩

theorem test_witness_StoringOperationsFrame :
    (∃ t, exec (.rbWrite (txRing .pc) 0x41#8) idle = .next t) ∧
    (rxRing .pc).dir = .rx ∧ ∃ t, exec (.irqRx .pc 0x41#8) idle = .next t :=
  ⟨⟨_, rfl⟩, rfl, ⟨_, rfl⟩⟩

theorem test_witness_ReadingOperationsFrame :
    (∃ t, exec (.rbRead (rxRing .pc) 1) (withRing (rxRing .pc) (ringOf 1) idle) = .next t) ∧
    ∃ t, exec (.irqTx .pc) (withRing (txRing .pc) (ringOf 1) idle) = .next t :=
  ⟨⟨_, rfl⟩, ⟨_, rfl⟩⟩

theorem test_witness_LookingOperationsFrame :
    (∃ t, exec (.rbCount (rxRing .pc)) idle = .next t) ∧
    (∃ t, exec (.rbIsfull (rxRing .pc)) idle = .next t) ∧
    ∃ t, exec (.irqTxc .slave) idle = .next t := ⟨⟨_, rfl⟩, ⟨_, rfl⟩, ⟨_, rfl⟩⟩

/-- `tx[SLAVE]` holds one byte and an IRQ.TX `SLAVE` is to come. -/
def oneToSend : State :=
  withAgenda [.request (.event .slave) 0x5A00#16] (withRing (txRing .slave) (ringOf 1) idle)

theorem oneToSend_inv : oneToSend.Inv := withRing_inv idle_inv (ringOf_inv (by decide)) rfl rfl

/-- An FP.FEED `PC`, 02 is to come. -/
def oneToFeed : State := withAgenda [.request .mainLoop 0x7002#16] idle

theorem oneToFeed_inv : oneToFeed.Inv := idle_inv

/-- MAIN at W4 of an RB.WRITE on `tx[PC]`, at W5 of it, and at R5 of an RB.READ of `rx[PC]`. -/
def atW4 : State := { idle with mainOp := some ⟨.w4 (txRing .pc) 0x41#8 0#8 0#8, .harness⟩ }

def atW5 : State :=
  { withRing (txRing .pc) ⟨0#8, 0#8, [(0, 0x41#8)]⟩ idle with
    mainOp := some ⟨.w5 (txRing .pc) 0x41#8 0#8 0#8, .harness⟩ }

def atR5 : State :=
  { withRing (rxRing .pc) (ringOf 1) idle with
    mainOp := some ⟨.r5 (rxRing .pc) 1 0#8 1 [0#8], .harness⟩ }

theorem atW4_inv : atW4.Inv :=
  ⟨idle_block_inv, mainOps rfl rfl ⟨rfl, by simp only [MicroFacts]; decide⟩, idle_loop_inv⟩

theorem atW5_inv : atW5.Inv :=
  ⟨idle_block_inv.setRing (by refine ⟨?_, ?_, ?_⟩ <;> decide),
    mainOps rfl rfl ⟨rfl, by simp only [MicroFacts]; decide⟩, idle_loop_inv⟩

theorem atR5_inv : atR5.Inv :=
  ⟨idle_block_inv.setRing (ringOf_inv (by decide)),
    mainOps rfl rfl ⟨rfl, by simp only [MicroFacts]; decide⟩, idle_loop_inv⟩

theorem test_witness_SingleWriterDiscipline :
    (∃ t, performAs (.irq .master) (.rbWrite (rxRing .master) 0x41#8) idle = .next t ∧
      t.block.tail (rxRing .master) ≠ idle.block.tail (rxRing .master) ∧
      (t.block.ring (rxRing .master)).slots ≠ (idle.block.ring (rxRing .master)).slots) ∧
    (∃ t, performAs .main (.rbRead (rxRing .pc) 1) (withRing (rxRing .pc) (ringOf 1) idle) = .next t ∧
      t.block.head (rxRing .pc) ≠
        (withRing (rxRing .pc) (ringOf 1) idle).block.head (rxRing .pc)) ∧
    (atW4.Inv ∧ atW4.mover = some .main ∧ ∃ t, step atW4 = .next t ∧
      (t.block.ring (txRing .pc)).slots ≠ (atW4.block.ring (txRing .pc)).slots) ∧
    (atW5.Inv ∧ ∃ t, step atW5 = .next t ∧ t.block.tail (txRing .pc) ≠ atW5.block.tail (txRing .pc)) ∧
    (atR5.Inv ∧ ∃ t, step atR5 = .next t ∧ t.block.head (rxRing .pc) ≠ atR5.block.head (rxRing .pc)) ∧
    (oneToSend.Inv ∧ ∃ t, step oneToSend = .next t ∧
      t.block.de .slave ≠ oneToSend.block.de .slave ∧
      t.block.wireOf .slave ≠ oneToSend.block.wireOf .slave) ∧
    (oneToFeed.Inv ∧ ∃ t, step oneToFeed = .next t ∧
      t.block.parser .pc ≠ oneToFeed.block.parser .pc) :=
  ⟨⟨_, rfl, by decide, by decide⟩, ⟨_, rfl, by decide⟩, ⟨atW4_inv, rfl, _, rfl, by decide⟩,
    ⟨atW5_inv, _, rfl, by decide⟩, ⟨atR5_inv, _, rfl, by decide⟩,
    ⟨oneToSend_inv, _, rfl, by decide, by decide⟩, ⟨oneToFeed_inv, _, rfl, by decide⟩⟩

theorem test_witness_IrqRxStoresByte :
    (withRing (rxRing .pc) (ringOf 127) idle).producer (rxRing .pc) = .irq .pc ∧
    (withRing (rxRing .pc) (ringOf 127) idle).block.cnt (rxRing .pc) ≠ 128 := by decide

theorem test_witness_IrqRxDropsByteWhenFull :
    (withRing (rxRing .pc) (ringOf 128) idle).producer (rxRing .pc) = .irq .pc ∧
    (withRing (rxRing .pc) (ringOf 128) idle).block.cnt (rxRing .pc) = 128 := by decide

theorem test_witness_IrqTxSendsOldestByte :
    let s := withRing (txRing .slave) (ringOf 1) idle
    s.consumer (txRing .slave) = .irq .slave ∧ s.block.cnt (txRing .slave) ≠ 0 ∧
    s.block.readSlot (txRing .slave) (s.block.head (txRing .slave)) = some 0#8 ∧
    Port.slave ≠ .pc := by decide

theorem test_witness_IrqTxOnEmptyRingDoesNothing :
    (withRing (txRing .pc) (bare 7 7) idle).consumer (txRing .pc) = .irq .pc ∧
    (withRing (txRing .pc) (bare 7 7) idle).block.cnt (txRing .pc) = 0 := by decide

theorem test_witness_IrqTxcReleasesDriver :
    idle.consumer (txRing .slave) = .irq .slave ∧
    ((withRing (txRing .slave) (bare 3 3) idle).block.cnt (txRing .slave) = 0 ∧ Port.slave ≠ .pc) ∧
    (withRing (txRing .slave) (bare 3 4) idle).block.cnt (txRing .slave) ≠ 0 := by decide

theorem test_witness_HandlersOfDifferentPortsCommute :
    Port.master ≠ .slave ∧ homeIface (.irqRx .master 0x11#8) = .event .master ∧
    homeIface (.irqRx .slave 0x22#8) = .event .slave ∧
    ∃ t u, exec (.irqRx .master 0x11#8) idle = .next t ∧
      exec (.irqRx .slave 0x22#8) t = .next u :=
  ⟨by decide, rfl, rfl, ⟨_, _, rfl, rfl⟩⟩

theorem test_witness_EventsLeaveMainAndOtherPortsAlone :
    (midCount [.request (.event .master) 0x4411#16]).block.cfg = some ⟨false, 9600#32⟩ ∧
    (midCount [.request (.event .master) 0x4411#16]).agenda =
      [.request (.event .master) 0x4411#16] ∧
    ∃ t, step (midCount [.request (.event .master) 0x4411#16]) = .next t := ⟨rfl, rfl, ⟨_, rfl⟩⟩

theorem test_witness_FeedStxStartsFrame :
    (idle.block.parser .pc).pstate = .waitSTX ∧ idle.fedByte 0x02#8 = 0x02#8 ∧
    (idleInvert.block.parser .pc).pstate = .waitSTX ∧ idleInvert.fedByte 0xFD#8 = 0x02#8 := by
  decide

theorem test_witness_FeedOutsideFrameDropsByte :
    (idle.block.parser .pc).pstate = .waitSTX ∧ idle.fedByte 0x03#8 ≠ 0x02#8 := by decide

theorem test_witness_FeedStxRestartsFrame :
    ((withParser .pc (parserOf 7) idle).block.parser .pc).pstate = .waitETX ∧
    (withParser .pc (parserOf 7) idle).fedByte 0x02#8 = 0x02#8 := by decide

theorem test_witness_FeedEtxEmitsFrame :
    ((withParser .pc (parserOf 511) idle).block.parser .pc).Inv ∧
    ((withParser .pc (parserOf 511) idle).block.parser .pc).pstate = .waitETX ∧
    (withParser .pc (parserOf 511) idle).fedByte 0x03#8 = 0x03#8 :=
  ⟨parserOf_inv (n := 511) (by decide), rfl, rfl⟩

theorem test_witness_FeedOtherByteAppendsOrFlushes :
    (parserOf 510).Inv ∧ (parserOf 510).clen.toNat < 511 ∧
    (parserOf 511).Inv ∧ (parserOf 511).clen.toNat = 511 ∧
    ((withParser .pc (parserOf 510) idle).block.parser .pc) = parserOf 510 ∧
    ((withParser .pc (parserOf 511) idle).block.parser .pc) = parserOf 511 ∧
    (parserOf 510).pstate = .waitETX ∧ (parserOf 511).pstate = .waitETX ∧
    (withParser .pc (parserOf 510) idle).fedByte 0x41#8 ≠ 0x02#8 ∧
    (withParser .pc (parserOf 511) idle).fedByte 0x41#8 ≠ 0x03#8 :=
  ⟨parserOf_inv (by decide), by decide, parserOf_inv (by decide), by decide, rfl, rfl, rfl, rfl,
    by decide, by decide⟩

theorem test_witness_InversionComplementsBeforeParsing :
    idleInvert.block.cfg = some ⟨true, 9600#32⟩ ∧
    ∃ t, exec (.fpFeed .pc 0xFD#8) idleInvert = .next t := ⟨rfl, ⟨_, rfl⟩⟩

theorem test_witness_FeedFrame :
    (∃ t, exec (.fpFeed .pc 0x02#8) idle = .next t) ∧
    (∃ t, exec (.fpFeed .pc 0x41#8) (withParser .pc parserStx idle) = .next t) ∧
    (∃ t, exec (.fpFeed .pc 0x03#8) idle = .next t) ∧
    (idle.block.parser .pc).pstate = .waitSTX ∧ idle.fedByte 0x03#8 ≠ 0x02#8 :=
  ⟨⟨_, rfl⟩, ⟨_, rfl⟩, ⟨_, rfl⟩, rfl, by decide⟩

theorem test_witness_EmittedFramesHaveFourShapes :
    parserStx.Inv ∧ cmdShape parserStx ∧
    ∃ q' f, feedParser .pc 0x03#8 parserStx = .ok (q', some f) :=
  ⟨parserStx_inv, Or.inl ⟨[], by decide, by simp [plain]⟩, ⟨_, _, rfl⟩⟩

theorem test_witness_LongPayloadFlushesOnce :
    idle.block.cfg = some ⟨false, 9600#32⟩ ∧ (idle.block.parser .master).Inv ∧
    (idle.block.parser .master).pstate = .waitSTX ∧ plain (List.replicate 513 0x55#8) ∧
    (List.replicate 513 0x55#8).length = 513 :=
  ⟨rfl, idle_block_inv.2.1 .master, rfl,
    fun x hx => by rw [List.eq_of_mem_replicate hx]; decide, List.length_replicate⟩

/-! ### Whole-machine statements -/

/-- MAIN inside RB.READ `rx[MASTER]`, 200 at `(0, 127)`, R1 taken, with two bytes to arrive (V33). -/
def midRead : State :=
  { withRing (rxRing .master) (ringOf 127) idle with
    mainOp := some ⟨.r2 (rxRing .master) 200 127#8, .harness⟩
    agenda := [.request (.event .master) 0x44EE#16, .request (.event .master) 0x44EF#16] }

theorem midRead_inv : midRead.Inv :=
  ⟨idle_block_inv.setRing (ringOf_inv (by decide)),
    mainOps rfl rfl ⟨rfl, by simp only [MicroFacts]; decide⟩, idle_loop_inv⟩

theorem test_witness_StepKeepsInvariant : midRead.Inv ∧ ∃ t, step midRead = .next t :=
  ⟨midRead_inv, ⟨_, rfl⟩⟩

theorem test_witness_StepNeverStops : midRead.Inv := midRead_inv

/-- `tx[PC]` holds one accepted byte, 41, and an IRQ.TX `PC` is to come. -/
def oneQueued : State :=
  { withRing (txRing .pc) ⟨0#8, 1#8, [(0, 0x41#8)]⟩ idle with
    answers := [⟨.main, some (.rbWrite (txRing .pc) 0x41#8), .ok true, none⟩]
    agenda := [.request (.event .pc) 0x5200#16] }

theorem oneQueued_inv : oneQueued.Inv :=
  ⟨idle_block_inv.setRing (by refine ⟨?_, ?_, ?_⟩ <;> decide), noOps rfl rfl, idle_loop_inv⟩

theorem oneQueued_fifo : FifoInv oneQueued := by
  rintro ⟨p, d⟩; cases p <;> cases d <;> decide

theorem test_witness_RingsAreFirstInFirstOut :
    oneQueued.Inv ∧ FifoInv oneQueued ∧ ∃ t, step oneQueued = .next t :=
  ⟨oneQueued_inv, oneQueued_fifo, ⟨_, rfl⟩⟩

theorem test_witness_WireCarriesAcceptedBytes :
    oneQueued.Inv ∧ oneQueued.wordsOnly ∧ FifoInv oneQueued ∧ WireInv oneQueued ∧
    ∃ t, step oneQueued = .next t :=
  ⟨oneQueued_inv, by unfold State.wordsOnly; decide, oneQueued_fifo,
    fun p => by cases p <;> decide, ⟨_, rfl⟩⟩

theorem test_witness_WireHistoryOnlyGrows :
    ∃ t, step oneQueued = .next t ∧ t.block.wireOf .pc = [0x41#8] := ⟨_, rfl, by decide⟩

/-- MAIN at L4 of a poll of `MASTER` with one byte counted, R1 taken, another byte arriving. -/
def midPoll : State :=
  { withRing (rxRing .master) (ringOf 1) idle with
    loop := ⟨.master, .l4, 1, [], none⟩
    mainOp := some ⟨.r2 (rxRing .master) 1 1#8, .loop⟩
    agenda := [.request (.event .master) 0x4411#16] }

theorem test_witness_ReadSizeMismatchNeverOccurs :
    RelayInv midPoll ∧ ∃ t, step midPoll = .next t :=
  ⟨⟨⟨idle_block_inv.setRing (ringOf_inv (by decide)),
      mainOps rfl rfl ⟨rfl, by simp only [MicroFacts]; decide⟩, ⟨by decide, by decide⟩⟩,
    by unfold State.systemOnly; decide,
    fun op h => by obtain rfl := Option.some.inj h; exact ⟨rfl, rfl⟩,
    fun _ => by decide,
    fun op h => by obtain rfl := Option.some.inj h; exact (by decide : 1 ≤ indexDiff 1#8 0#8),
    ⟨fun _ h => (nomatch h), fun _ h => (nomatch h)⟩⟩, ⟨_, rfl⟩⟩

/-- `rx[MASTER]` is full, MAIN is inside L1 of its poll, and one more byte arrives. -/
def fullPoll : State :=
  { withRing (rxRing .master) (ringOf 128) idle with
    mainOp := some ⟨.f2 (rxRing .master) 128#8, .loop⟩
    agenda := [.request (.event .master) 0x44AA#16] }

theorem test_witness_FullSourceRingStaysFull :
    FullInv .master fullPoll ∧ ∃ t, step fullPoll = .next t :=
  ⟨⟨by unfold State.systemOnly; decide,
    fun op h => by obtain rfl := Option.some.inj h; exact ⟨rfl, rfl⟩,
    by decide, fun _ => Or.inl rfl,
    fun op t h e => by obtain rfl := Option.some.inj h; cases e; decide⟩, ⟨_, rfl⟩⟩

theorem test_witness_Rs485PortsAreNeverDriven :
    QuietInv (withAgenda [.request (.event .slave) 0x5A00#16] idle) ∧
    ∃ t, step (withAgenda [.request (.event .slave) 0x5A00#16] idle) = .next t :=
  ⟨⟨by unfold State.systemOnly; decide, fun _ h => (nomatch h), fun _ _ h => (nomatch h),
    ⟨rfl, rfl, rfl⟩, ⟨rfl, rfl, rfl⟩⟩, ⟨_, rfl⟩⟩

theorem test_witness_MicroStepsMeetTheWholeOperation :
    (idle.block.cfg = some ⟨false, 9600#32⟩ ∧ idle.agenda = [] ∧ idle.mainOp = none ∧
      idle.mayIssue .main (.rbWrite (txRing .pc) 0x41#8) = true ∧
      firstMicro (.rbWrite (txRing .pc) 0x41#8) = some (.w1 (txRing .pc) 0x41#8) ∧
      ∃ t, exec (.rbWrite (txRing .pc) 0x41#8) idle = .next t) ∧
    ∃ f, exec (.rbRead (rxRing .pc) 1) (withRing (rxRing .pc) (bare 0 1) idle) = .fault f :=
  ⟨⟨rfl, rfl, rfl, by decide, rfl, ⟨_, rfl⟩⟩, ⟨_, rfl⟩⟩

/-- V32. -/
theorem test_witness_StaleHeadRejectsWrite :
    encode (.rbWrite (txRing .pc) 0x41#8) = 0x0241#16 ∧ encode (.irqTx .pc) = 0x5200#16 ∧
    let s := withAgenda [.issue (encode (.rbWrite (txRing .pc) 0x41#8)), .main,
      .request (.event .pc) (encode (.irqTx .pc)), .main, .main]
      (withRing (txRing .pc) (ringOf 128) idle)
    s.block.cfg = some ⟨false, 9600#32⟩ ∧ s.mainOp = none ∧ s.producer (txRing .pc) = .main ∧
    s.block.cnt (txRing .pc) = 128 ∧
    s.block.readSlot (txRing .pc) (s.block.head (txRing .pc)) = some 0x00#8 :=
  ⟨by decide, by decide, rfl, rfl, rfl, by decide, by decide⟩

/-- V33. -/
theorem test_witness_BatchReadIsNotAtomic :
    midRead.block.cfg = some ⟨false, 9600#32⟩ ∧ midRead.Inv ∧
    midRead.block.cnt (rxRing .master) = 127 ∧
    midRead.mainOp =
      some ⟨.r2 (rxRing .master) 200 (midRead.block.tail (rxRing .master)), .harness⟩ ∧
    midRead.agenda = [.request (.event .master) (encode (.irqRx .master 0xEE#8)),
      .request (.event .master) (encode (.irqRx .master 0xEF#8))] :=
  ⟨rfl, midRead_inv, by decide, rfl, by decide⟩

/-- One byte of a TX.BLOCK to `PC` left to write, `n` bytes in the ring. -/
def sending (n : Nat) : State :=
  atPoint (.tx ⟨.pc, [0x41#8], 0⟩ (.endPoll .success)) (withRing (txRing .pc) (ringOf n) idle)

theorem test_witness_TxBlockFillsRingInOrder :
    (sending 127).block.cfg = some ⟨false, 9600#32⟩ ∧ (sending 127).Inv ∧
    (sending 127).mainOp = none ∧ (sending 127).agenda = [] ∧
    (sending 127).loop.point = .tx ⟨.pc, [0x41#8], 0⟩ (.endPoll .success) ∧
    (sending 127).producer (txRing .pc) = .main ∧
    (sending 127).block.cnt (txRing .pc) + [0x41#8].length ≤ 128 :=
  ⟨rfl, ⟨idle_block_inv.setRing (ringOf_inv (by decide)), noOps rfl rfl, idle_loop_inv⟩, rfl, rfl,
    rfl, rfl, by decide⟩

theorem test_witness_HeldMainHangsForEver :
    ((sending 128).block.cfg = some ⟨false, 9600#32⟩ ∧ Hangs (sending 128)) ∧
    HangInv { sending 128 with mainOp := some ⟨.w3 (txRing .pc) 0x41#8 0#8 128#8, .loop⟩ } :=
  ⟨⟨rfl, ⟨_, _, rfl, by decide, by decide⟩, rfl, rfl⟩,
    rfl, _, _, 0x41#8, rfl, rfl, by decide, .inr ⟨_, rfl, rfl, rfl, rfl, rfl⟩⟩

/-- A full source ring and just room for the error frame. -/
def pollFull : State :=
  withRing (txRing .pc) (ringOf 104) (withRing (rxRing .master) (ringOf 128) idle)

theorem pollFull_inv : pollFull.Inv :=
  withRing_inv (withRing_inv idle_inv (ringOf_inv (by decide)) rfl rfl) (ringOf_inv (by decide)) rfl rfl

theorem test_witness_PollOfFullRingReportsOnce :
    pollFull.block.cfg = some ⟨false, 9600#32⟩ ∧ pollFull.Inv ∧ pollFull.mainOp = none ∧
    pollFull.agenda = [] ∧
    pollFull.loop.point = .l1 ∧ pollFull.consumer pollFull.loop.srcRing = .main ∧
    pollFull.producer (txRing .pc) = .main ∧ pollFull.block.cnt pollFull.loop.srcRing = 128 ∧
    pollFull.block.cnt (txRing .pc) + 24 ≤ 128 :=
  ⟨rfl, pollFull_inv, rfl, rfl, rfl, rfl, rfl, by decide, by decide⟩

/-- One byte to relay and room for one. -/
def pollPass : State :=
  withRing (txRing .pc) (ringOf 127) (withRing (rxRing .master) (ringOf 1) idle)

theorem pollPass_inv : pollPass.Inv :=
  withRing_inv (withRing_inv idle_inv (ringOf_inv (by decide)) rfl rfl) (ringOf_inv (by decide)) rfl rfl

theorem test_witness_PassthroughPollRelaysAllBytes :
    pollPass.block.cfg = some ⟨false, 9600#32⟩ ∧ pollPass.Inv ∧ pollPass.mainOp = none ∧
    pollPass.agenda = [] ∧
    pollPass.loop.point = .l1 ∧ pollPass.consumer pollPass.loop.srcRing = .main ∧
    pollPass.producer (txRing .pc) = .main ∧ pollPass.params.relayMode = .passthrough ∧
    pollPass.block.cnt pollPass.loop.srcRing ≠ 128 ∧
    pollPass.block.cnt (txRing .pc) + pollPass.block.cnt pollPass.loop.srcRing ≤ 128 :=
  ⟨rfl, pollPass_inv, rfl, rfl, rfl, rfl, rfl, rfl, by decide, by decide⟩

/-- A frame of two bytes to relay and room for two. -/
def pollFramed : State :=
  withRing (txRing .pc) (ringOf 126) (withRing (rxRing .master) ringFrame idleFramed)

theorem pollFramed_inv : pollFramed.Inv :=
  withRing_inv (withRing_inv idleFramed_inv ringFrame_inv rfl rfl) (ringOf_inv (by decide)) rfl rfl

theorem test_witness_FramedPollRelaysFrames :
    pollFramed.block.cfg = some ⟨false, 9600#32⟩ ∧ pollFramed.Inv ∧ pollFramed.mainOp = none ∧
    pollFramed.agenda = [] ∧
    pollFramed.loop.point = .l1 ∧ pollFramed.consumer pollFramed.loop.srcRing = .main ∧
    pollFramed.producer (txRing .pc) = .main ∧ pollFramed.params.relayMode = .framed ∧
    pollFramed.block.cnt pollFramed.loop.srcRing ≠ 128 ∧
    feedAll (sourcePort pollFramed.loop.src) false (pollFramed.block.content pollFramed.loop.srcRing)
      (pollFramed.block.parser (sourcePort pollFramed.loop.src)) =
        .ok (⟨.waitSTX, 0#10, [(0, 0x02#8), (1, 0x03#8)]⟩, [[0x02#8, 0x03#8]]) ∧
    pollFramed.block.cnt (txRing .pc) + [[0x02#8, 0x03#8]].flatten.length ≤ 128 :=
  ⟨rfl, pollFramed_inv, rfl, rfl, rfl, rfl, rfl, rfl, by decide, rfl, by decide⟩

theorem test_witness_PollsAlternate :
    let s := atPoint (.tx ⟨.pc, [], 0⟩ (.endPoll .success)) idle
    ∃ t, step s = .next t ∧ t.loop.src ≠ s.loop.src := ⟨_, rfl, by decide⟩

theorem test_witness_HarnessMicroStepsMeetTheWholeOperation :
    (idleHarness (rxRing .pc)).block.cfg = some ⟨false, 9600#32⟩ ∧
    (idleHarness (rxRing .pc)).agenda = [] ∧
    (idleHarness (rxRing .pc)).harnessOps.get .producer = none ∧
    (idleHarness (rxRing .pc)).mayIssue (.harness .producer) (.rbWrite (rxRing .pc) 0x41#8) = true ∧
    (∃ t, performAs (.harness .producer) (.rbWrite (rxRing .pc) 0x41#8)
      (idleHarness (rxRing .pc)) = .next t) ∧
    (∃ f, performAs (.harness .consumer) (.rbRead (rxRing .pc) 1)
      (withRing (rxRing .pc) (bare 0 1) (idleHarness (rxRing .pc))) = .fault f) ∧
    (idleHarness (rxRing .pc)).mayIssue (.harness .producer) (.rbRead (rxRing .pc) 1) = false :=
  ⟨rfl, rfl, rfl, rfl, ⟨_, rfl⟩, ⟨_, rfl⟩, rfl⟩

end Sys2Proof.Tests
end

section
/-! PROOFS. One operation run by its micro-steps alone, on the block: what it ends in is what the whole
operation gives, for whichever agent takes the micro-steps (40_ringbuffer.md rules R101 to R108). -/

namespace Sys2Proof.Machine

/-! ## Runs of micro-steps of one operation -/

/-- How an operation ends: its response, the condition it met, and the block it leaves. -/
structure OpEnd where
  resp : Response
  cond : Option Condition
  block : Block

/-- `MicroRun inv m k n res`: from micro-step `m` on the block `k`, exactly `n` micro-steps with nothing
between them end the operation in `res`. -/
inductive MicroRun (inv : Bool) : Micro → Block → Nat → Except Fault OpEnd → Prop
  | done {m : Micro} {k k' : Block} {resp : Response} {c : Option Condition}
      (e : microStep inv m k = .done resp c k') : MicroRun inv m k 1 (.ok ⟨resp, c, k'⟩)
  | fault {m : Micro} {k : Block} {f : Fault} (e : microStep inv m k = .fault f) :
      MicroRun inv m k 1 (.error f)
  | more {m m' : Micro} {k k' : Block} {n : Nat} {res : Except Fault OpEnd}
      (e : microStep inv m k = .more m' k') (h : MicroRun inv m' k' n res) :
      MicroRun inv m k (n + 1) res

/-- The outcome, for the issuing agent `a`, of an operation that ends in `res`. -/
def opOutcome (a : Agent) (i : Instr) (s : State) :
    Except Fault OpEnd → Host.Outcome State Fault Refusal
  | .ok x => .next ((s.withBlock x.block).answer a (some i) x.resp x.cond)
  | .error f => .fault f

/-- A micro-step that does not end the operation stays inside it and leaves `cfg`. -/
theorem microStep_more_keeps {inv : Bool} {m m' : Micro} {k k' : Block}
    (e : microStep inv m k = .more m' k') : microInstr m' = microInstr m ∧ k'.cfg = k.cfg := by
  have hread (r : RingId) (j : Nat) (h : Index) (n : Nat) (bs : List Byte) :
      microInstr (afterRead r j h n bs) = .rbRead r j := by
    unfold afterRead; split <;> rfl
  cases m with
  | w3 r b h t =>
    simp only [microStep] at e
    split at e <;> cases e
    exact ⟨rfl, rfl⟩
  | w4 r b h t => cases e; exact ⟨rfl, by simp [Block.writeSlot]⟩
  | r3 r j t h => cases e; exact ⟨hread .., rfl⟩
  | r4 r j h n bs =>
    simp only [microStep, readOne] at e
    split at e <;> cases e
    exact ⟨hread .., rfl⟩
  | feed p raw =>
    simp only [microStep, feedMicro] at e
    split at e <;> cases e
  | w5 r b h t => cases e
  | r5 r j h n bs => cases e
  | c2 r t => cases e
  | f2 r t => cases e
  | w1 r b => cases e; exact ⟨rfl, rfl⟩
  | w2 r b h => cases e; exact ⟨rfl, rfl⟩
  | r1 r j => cases e; exact ⟨rfl, rfl⟩
  | r2 r j t => cases e; exact ⟨rfl, rfl⟩
  | c1 r => cases e; exact ⟨rfl, rfl⟩
  | f1 r => cases e; exact ⟨rfl, rfl⟩

/-! ## The micro-steps of each operation (rules R101, R103, R105, R106, R135) -/

theorem microRun_rbWrite (inv : Bool) (r : RingId) (b : Byte) (k : Block) :
    ∃ n, MicroRun inv (.w1 r b) k n
      (.ok ⟨.ok (rbWrite r b k).2, writeCondition (rbWrite r b k).2, (rbWrite r b k).1⟩) := by
  by_cases hfull : indexFull (k.tail r) (k.head r) = true
  · have hw : rbWrite r b k = (k, false) := by simp [rbWrite, hfull]
    rw [hw]
    exact ⟨3, .more rfl <| .more rfl <| .done (by simp [microStep, hfull])⟩
  · have hw : rbWrite r b k = ((k.writeSlot r (k.tail r) b).setTail r (k.tail r + 1#8), true) := by
      simp [rbWrite, hfull]
    rw [hw]
    exact ⟨5, .more rfl <| .more rfl <|
      .more (m' := .w4 r b (k.head r) (k.tail r)) (k' := k) (by simp [microStep, hfull]) <|
      .more rfl <| .done rfl⟩

/-- The loop of micro-step R4 followed by R5, with `count` bytes left to read. -/
theorem microRun_reads (inv : Bool) (r : RingId) (m : Nat) (h : Index) (n : Nat) (k : Block)
    (count : Nat) : ∀ bytes : List Byte, bytes.length + count = n →
      ∃ j, MicroRun inv (afterRead r m h n bytes) k j
        ((readSlots k r h bytes.length count).map fun bs =>
          ⟨.read n (bytes ++ bs), none, k.setHead r (h + BitVec.ofNat 8 n)⟩) := by
  induction count with
  | zero =>
    intro bytes hl
    have hm : afterRead r m h n bytes = .r5 r m h n bytes := if_neg (by omega)
    rw [hm, readSlots, Except.map, List.append_nil]
    exact ⟨1, .done rfl⟩
  | succ count ih =>
    intro bytes hl
    have hm : afterRead r m h n bytes = .r4 r m h n bytes := if_pos (by omega)
    rw [hm, readSlots]
    cases hb : k.readSlot r (h + BitVec.ofNat 8 bytes.length) with
    | none => exact ⟨1, .fault (by simp only [microStep, readOne, hb])⟩
    | some b =>
      obtain ⟨j, hj⟩ := ih (bytes ++ [b]) (by simp; omega)
      refine ⟨j + 1, .more (m' := afterRead r m h n (bytes ++ [b])) (k' := k)
        (by simp only [microStep, readOne, hb]) ?_⟩
      rw [List.length_append, List.length_singleton] at hj
      cases hr : readSlots k r h (bytes.length + 1) count with
      | error f => rwa [hr] at hj
      | ok bs => simpa [hr, Except.map] using hj

theorem microRun_rbRead (inv : Bool) (r : RingId) (m : Nat) (k : Block) :
    ∃ n, MicroRun inv (.r1 r m) k n
      ((rbRead r m k).map fun x => ⟨.read x.2.length x.2, none, x.1⟩) := by
  obtain ⟨j, hj⟩ := microRun_reads inv r m (k.head r) (readCount m (k.tail r) (k.head r)) k
    (readCount m (k.tail r) (k.head r)) [] (by simp)
  refine ⟨j + 3, .more rfl <| .more rfl <| .more rfl ?_⟩
  simp only [rbRead]
  cases hr : readSlots k r (k.head r) 0 (readCount m (k.tail r) (k.head r)) with
  | error f => simpa [hr, Except.map] using hj
  | ok bs => simpa [hr, Except.map, (readSlots_ok _ hr).1] using hj

theorem microRun_rbCount (inv : Bool) (r : RingId) (k : Block) :
    MicroRun inv (.c1 r) k 2 (.ok ⟨.count (rbCount r k), none, k⟩) := .more rfl (.done rfl)

theorem microRun_rbIsfull (inv : Bool) (r : RingId) (k : Block) :
    MicroRun inv (.f1 r) k 2 (.ok ⟨.isFull (rbIsfull r k), none, k⟩) := .more rfl (.done rfl)

theorem microRun_fpFeed (inv : Bool) (p : Port) (raw : Byte) (k : Block) :
    MicroRun inv (.feed p raw) k 1 ((feedBlock p (feedByte inv raw) k).map fun x =>
      ⟨frameResponse x.2, feedCondition (feedByte inv raw) (k.parser p), x.1⟩) := by
  cases hf : feedBlock p (feedByte inv raw) k with
  | error f => exact .fault (by simp only [microStep, feedMicro, hf])
  | ok x => exact .done (by simp only [microStep, feedMicro, hf])

/-- An operation that an agent may issue and that is taken by micro-steps: with nothing between them they
end in the outcome of the operation run whole. -/
theorem exists_microRun_performAs {a : Agent} {i : Instr} {m : Micro} {s : State}
    (hmay : s.mayIssue a i = true) (hf : firstMicro i = some m) :
    ∃ n res, MicroRun s.activeCfg.bitInvert m s.block n res ∧
      performAs a i s = opOutcome a i s res := by
  cases i with
  | irqRx p b => cases hf
  | irqTx p => cases hf
  | irqTxc p => cases hf
  | rbWrite r b =>
    cases hf
    obtain ⟨n, h⟩ := microRun_rbWrite s.activeCfg.bitInvert r b s.block
    exact ⟨n, _, h, by simp only [performAs, rbWriteAs, hmay, if_true, opOutcome]⟩
  | rbRead r j =>
    cases hf
    obtain ⟨n, h⟩ := microRun_rbRead s.activeCfg.bitInvert r j s.block
    refine ⟨n, _, h, ?_⟩
    simp only [performAs, rbReadAs, hmay, if_true]
    cases rbRead r j s.block <;> rfl
  | rbCount r =>
    cases hf
    exact ⟨2, _, microRun_rbCount _ r s.block,
      by simp only [performAs, rbCountAs, hmay, if_true]; rfl⟩
  | rbIsfull r =>
    cases hf
    exact ⟨2, _, microRun_rbIsfull _ r s.block,
      by simp only [performAs, rbIsfullAs, hmay, if_true]; rfl⟩
  | fpFeed p raw =>
    cases hf
    refine ⟨1, _, microRun_fpFeed _ p raw s.block, ?_⟩
    simp only [performAs, fpFeedAs, hmay, if_true, State.fedByte]
    cases feedBlock p (feedByte s.activeCfg.bitInvert raw) s.block <;> rfl

end Sys2Proof.Machine
end

section
/-! PROOFS. A harness agent alone on the schedule (00_scope.md rule R14, log entry 28). -/

namespace Sys2Proof.Machine

/-- Every operation a harness agent may issue is one taken by micro-steps: the events are the handlers'. -/
theorem firstMicro_of_harness {s : State} {x : Role} {i : Instr}
    (h : s.mayIssue (.harness x) i = true) : ∃ m, firstMicro i = some m := by
  cases i with
  | irqRx p b => simp [State.mayIssue, mayIssue] at h
  | irqTx p => simp [State.mayIssue, mayIssue] at h
  | irqTxc p => simp [State.mayIssue, mayIssue] at h
  | rbWrite r b => exact ⟨_, rfl⟩
  | rbRead r m => exact ⟨_, rfl⟩
  | rbCount r => exact ⟨_, rfl⟩
  | rbIsfull r => exact ⟨_, rfl⟩
  | fpFeed p raw => exact ⟨_, rfl⟩

theorem beginOp_allowed {x : Role} {i : Instr} {m : Micro} {s : State}
    (h : s.mayIssue (.harness x) i = true) (hf : firstMicro i = some m) :
    beginOp x i s = s.setHarnessOp x (some m) := by
  simp [beginOp, h, hf]

/-- Without the role the operation is refused as it begins (40_ringbuffer.md rule R110). -/
theorem beginOp_refused {x : Role} {i : Instr} {s : State}
    (h : s.mayIssue (.harness x) i = false) : beginOp x i s = s.refuse (.harness x) i := by
  simp [beginOp, h]

/-- An idle agent whose operation has begun and ended is as it was. -/
theorem setHarnessOp_none_of_idle {s : State} {x : Role} (hn : s.harnessOps.get x = none)
    (m : Option Micro) : (s.setHarnessOp x m).setHarnessOp x none = s := by
  have hset : s.harnessOps.set x none = s.harnessOps := by rw [← hn, HarnessOps.set_get]
  simp only [State.setHarnessOp, HarnessOps.set_set, hset]

/-- The beginning of an operation of an idle harness agent. -/
theorem step_begin {s : State} {c : Config.Entry} {x : Role} {i : Instr} (rest : List Turn)
    (hc : s.block.cfg = some c) (hn : s.harnessOps.get x = none) :
    step { s with agenda := .begin x i :: rest } =
      .next (beginOp x i { s with agenda := rest }) :=
  step_turn (s := { s with agenda := .begin x i :: rest }) hc rfl
    (State.waitsFor_idle (t := .begin x i) (a := .harness x) rfl hn)

/-- A micro-step of a harness agent inside an operation. -/
theorem step_harnessMicro {s : State} {c : Config.Entry} {x : Role} {m : Micro} {rest : List Turn}
    (hc : s.block.cfg = some c) (ha : s.agenda = .micro x :: rest)
    (hm : s.harnessOps.get x = some m) :
    step s = continueHarness x m { s with agenda := rest } := by
  rw [step_turn hc ha rfl]
  simp only [takeTurn, harnessTurn, hm]

theorem continueHarness_more {x : Role} {m m' : Micro} {s : State} {k : Block}
    (e : microStep s.activeCfg.bitInvert m s.block = .more m' k) :
    continueHarness x m s = .next ((s.withBlock k).setHarnessOp x (some m')) := by
  simp only [continueHarness, e]

theorem continueHarness_done {x : Role} {m : Micro} {s : State} {resp : Response}
    {y : Option Condition} {k : Block}
    (e : microStep s.activeCfg.bitInvert m s.block = .done resp y k) :
    continueHarness x m s = .next
      (((s.withBlock k).setHarnessOp x none).answer (.harness x) (some (microInstr m)) resp y) := by
  simp only [continueHarness, e]

theorem continueHarness_fault {x : Role} {m : Micro} {s : State} {f : Fault}
    (e : microStep s.activeCfg.bitInvert m s.block = .fault f) :
    continueHarness x m s = .fault f := by
  simp only [continueHarness, e]

/-- On a schedule of just its micro-steps, a harness agent's operation ends as its micro-steps on the
block alone do, and the agent is idle again. -/
theorem runSteps_harnessMicros {inv : Bool} {m : Micro} {k : Block} {n : Nat}
    {res : Except Fault OpEnd} (h : MicroRun inv m k n res) {c : Config.Entry} {x : Role} :
    ∀ s : State, s.block = k → s.block.cfg = some c → s.activeCfg.bitInvert = inv →
      s.harnessOps.get x = some m → s.agenda = List.replicate n (.micro x) →
      runSteps n s = opOutcome (.harness x) (microInstr m)
        ({ s with agenda := [] }.setHarnessOp x none) res := by
  induction h with
  | done e =>
    rintro s rfl hc rfl hm ha
    exact runSteps_succ ((step_harnessMicro hc ha hm).trans (continueHarness_done e)) rfl
  | fault e =>
    rintro s rfl hc rfl hm ha
    have hs := (step_harnessMicro hc ha hm).trans (continueHarness_fault e)
    simp only [runSteps, hs, opOutcome]
  | @more m m' k k' n res e _ ih =>
    rintro s rfl hc rfl hm ha
    obtain ⟨hi, hk⟩ := microStep_more_keeps e
    refine runSteps_succ ((step_harnessMicro hc ha hm).trans (continueHarness_more e)) ?_
    rw [ih _ rfl (hk.trans hc) (by simp [State.activeCfg, hk]) (by simp) rfl, hi]
    cases res <;> simp [opOutcome, State.setHarnessOp, State.withBlock]

/-- An operation a harness agent may issue, begun and then taken by its micro-steps alone, has the
outcome of the operation run whole. -/
theorem exists_runSteps_harness {s : State} {c : Config.Entry} {x : Role} {i : Instr}
    (hc : s.block.cfg = some c) (ha : s.agenda = []) (hn : s.harnessOps.get x = none)
    (hmay : s.mayIssue (.harness x) i = true) :
    ∃ n, runSteps (n + 1) { s with agenda := .begin x i :: List.replicate n (.micro x) } =
      performAs (.harness x) i s := by
  obtain ⟨m, hf⟩ := firstMicro_of_harness hmay
  obtain ⟨n, res, hrun, hp⟩ := exists_microRun_performAs hmay hf
  have hbegin : step { s with agenda := .begin x i :: List.replicate n (.micro x) } =
      .next ({ s with agenda := List.replicate n (.micro x) }.setHarnessOp x (some m)) :=
    (step_begin _ hc hn).trans (congrArg _ (beginOp_allowed (by exact hmay) hf))
  refine ⟨n, runSteps_succ hbegin ?_⟩
  calc
    _ = opOutcome (.harness x) (microInstr m)
          (({ s with agenda := [] }.setHarnessOp x (some m)).setHarnessOp x none) res :=
      runSteps_harnessMicros hrun ({ s with agenda := List.replicate n (.micro x) }.setHarnessOp x
        (some m)) rfl hc rfl (HarnessOps.get_set_same ..) rfl
    _ = performAs (.harness x) i s := by
      rw [← ha, setHarnessOp_none_of_idle hn, firstMicro_instr hf, hp]

/-- Settles O60, by induction on the run of the operation's micro-steps on the block. -/
theorem harnessMicroStepsMeetTheWholeOperation :
    Obligations.HarnessMicroStepsMeetTheWholeOperation := by
  intro s c x i hc ha hn schedule
  refine ⟨fun hmay => ?_, fun hmay => ?_⟩
  · obtain ⟨n, hrun⟩ := exists_runSteps_harness hc ha hn hmay
    exact ⟨fun t e => ⟨n, hrun.trans e⟩, fun f e => ⟨n, hrun.trans e⟩⟩
  · refine (step_begin [] hc hn).trans ?_
    rw [← ha, beginOp_refused hmay]
    rfl

end Sys2Proof.Machine
end

section
/-! PROOFS. The invariant of the machine along every step: what each kind of turn does to it
(10_state.md rules R25 and R40), and that under it every turn has a next state (rules R24, R30). -/

namespace Sys2Proof.Machine

/-! ## Operations in progress -/

/-- MAIN's operation in progress is no other agent's. -/
theorem State.opOf_withMainOp_ne (s : State) (k : Block) (m : Option InFlight) {c : Agent}
    (hc : c ≠ .main) : ({ s with block := k, mainOp := m } : State).opOf c = s.opOf c := by
  cases c with
  | main => exact absurd rfl hc
  | irq p => rfl
  | harness x => rfl

@[simp] theorem State.opOf_setHarnessOp_same (s : State) (x : Role) (m : Option Micro) :
    (s.setHarnessOp x m).opOf (.harness x) = m := HarnessOps.get_set_same _ _ _

theorem State.opOf_setHarnessOp_ne (s : State) {x : Role} (m : Option Micro) {c : Agent}
    (hc : c ≠ .harness x) : (s.setHarnessOp x m).opOf c = s.opOf c := by
  cases c with
  | main => rfl
  | irq p => rfl
  | harness y => exact HarnessOps.get_set_ne _ _ fun h => hc (h ▸ rfl)

/-- Agent `a` begins an operation whose role it holds. -/
theorem opsInv.begins {s t : State} {a : Agent} {i : Instr} {m : Micro} (hs : opsInv s)
    (hmay : s.mayIssue a i = true) (hf : firstMicro i = some m) (hp : t.params = s.params)
    (hk : t.block = s.block) (ho : ∀ c, c ≠ a → t.opOf c = s.opOf c) (ha : t.opOf a = some m) :
    opsInv t := by
  refine hs.step hp ho (fun c _ => .of_rings fun r => by rw [hk]) fun m' hm' => ?_
  cases ha.symm.trans hm'
  exact .first hmay hf

/-- Agent `a` takes a micro-step after which its operation goes on. -/
theorem opsInv.goesOn {s t : State} {a : Agent} {inv : Bool} {m m' : Micro} (hk : s.block.Inv)
    (hs : opsInv s) (hop : s.opOf a = some m) (e : microStep inv m s.block = .more m' t.block)
    (hp : t.params = s.params) (ho : ∀ c, c ≠ a → t.opOf c = s.opOf c)
    (ha : t.opOf a = some m') : t.block.Inv ∧ opsInv t := by
  obtain ⟨hk', hm', hd⟩ := microStep_more hk (hs a m hop) e
  refine ⟨hk', hs.step hp ho hd fun m'' h => ?_⟩
  cases ha.symm.trans h
  exact hm'

/-- Agent `a` takes the micro-step that ends its operation. -/
theorem opsInv.ends {s t : State} {a : Agent} {inv : Bool} {m : Micro} {resp : Response}
    {c : Option Condition} (hk : s.block.Inv) (hs : opsInv s) (hop : s.opOf a = some m)
    (e : microStep inv m s.block = .done resp c t.block) (hp : t.params = s.params)
    (ho : ∀ c, c ≠ a → t.opOf c = s.opOf c) (ha : t.opOf a = none) : t.block.Inv ∧ opsInv t := by
  obtain ⟨hk', hd⟩ := microStep_done_inv hk (hs a m hop) e
  exact ⟨hk', hs.step hp ho hd fun m' h => nomatch ha.symm.trans h⟩

/-! ## The invariant under each kind of turn -/

/-- A response within its sizes, delivered. -/
theorem State.Inv.deliver {s : State} (hs : s.Inv) (o : Owner) {resp : Response}
    (hc : ∀ n, resp = .count n → n ≤ Config.capacity)
    (hr : ∀ n bs, resp = .read n bs → bs.length ≤ Config.scratchCap) : (s.deliver o resp).Inv := by
  cases o with
  | harness => exact hs
  | loop =>
    obtain ⟨hk, ho, hl⟩ := hs
    exact ⟨hk, ho, hl.advance s.params hc hr⟩

theorem cfgSelect_mem_cfgTable (code : BitVec 4) : cfgSelect code ∈ cfgTable := by
  revert code; decide

/-- CFG.SELECT chooses an entry of the table (43_environment_software.md rule R156). -/
theorem bootStep_inv {s : State} (hs : s.Inv) : (bootStep s).Inv := by
  obtain ⟨⟨hr, hp, -⟩, ho, hl⟩ := hs
  refine ⟨⟨hr, hp, fun e he => ?_⟩, fun a m h => (ho a m h).drift (.of_rings fun _ => rfl), hl⟩
  cases he
  exact cfgSelect_mem_cfgTable _

theorem performAs_inv {a : Agent} {i : Instr} {s t : State} (hs : s.Inv) (hn : s.opOf a = none)
    (e : performAs a i s = .next t) : t.Inv := by
  obtain ⟨hk, ho, hl⟩ := hs
  obtain ⟨hmain, hharness, hloop, hparams, -⟩ := performAs_sameUser e
  have hop := State.opOf_congr hmain hharness
  refine ⟨performAs_blockInv hk e, ?_, hloop ▸ hl⟩
  refine ho.step (b := a) hparams (fun c _ => hop c) (fun c hc => .of_performAs hk hc e) ?_
  intro m hm
  rw [hop, hn] at hm
  cases hm

theorem issueOp_inv {s : State} (hs : s.Inv) (o : Owner) (i : Instr) : (issueOp o i s).Inv := by
  rcases issueOp_cases o i s with ⟨m, hf, hmay, h⟩ | ⟨-, h⟩ <;> rw [h]
  · obtain ⟨hk, ho, hl⟩ := hs
    exact ⟨hk, ho.begins hmay hf rfl rfl (fun c => s.opOf_withMainOp_ne _ _) rfl, hl⟩
  · exact State.Inv.deliver (s := s.refuse .main i) hs o (fun _ h => nomatch h)
      (fun _ _ h => nomatch h)

theorem continueOp_inv {op : InFlight} {s t : State} (hs : s.Inv) (hm : s.mainOp = some op)
    (e : continueOp op s = .next t) : t.Inv := by
  obtain ⟨hk, ho, hl⟩ := hs
  have hop : s.opOf .main = some op.micro := by simp [hm]
  rcases continueOp_cases e with ⟨m, k, h, rfl⟩ | ⟨resp, c, k, h, -, rfl⟩
  · obtain ⟨hk', ho'⟩ := opsInv.goesOn
      (t := { s with block := k, mainOp := some { op with micro := m } }) hk ho hop h rfl
      (fun c => s.opOf_withMainOp_ne _ _) rfl
    exact ⟨hk', ho', hl⟩
  · obtain ⟨hk', ho'⟩ := opsInv.ends (t := { s with block := k, mainOp := none }) hk ho hop h rfl
      (fun c => s.opOf_withMainOp_ne _ _) rfl
    obtain ⟨hc, hr⟩ := microStep_done_size hk (ho _ _ hop) h
    exact State.Inv.deliver (s := ({ s with block := k, mainOp := none } : State).answer .main
      (some (microInstr op.micro)) resp c) ⟨hk', ho', hl⟩ op.owner hc hr

theorem beginOp_inv {s : State} (hs : s.Inv) (x : Role) (i : Instr) : (beginOp x i s).Inv := by
  rcases beginOp_cases x i s with ⟨m, hf, hmay, h⟩ | h <;> rw [h]
  · obtain ⟨hk, ho, hl⟩ := hs
    exact ⟨hk, ho.begins hmay hf rfl rfl (fun c => s.opOf_setHarnessOp_ne _)
      (s.opOf_setHarnessOp_same x _), hl⟩
  · exact hs

theorem continueHarness_inv {x : Role} {m : Micro} {s t : State} (hs : s.Inv)
    (hm : s.harnessOps.get x = some m) (e : continueHarness x m s = .next t) : t.Inv := by
  obtain ⟨hk, ho, hl⟩ := hs
  rcases continueHarness_cases e with ⟨m', k, h, rfl⟩ | ⟨resp, c, k, h, rfl⟩
  · obtain ⟨hk', ho'⟩ := opsInv.goesOn (t := (s.withBlock k).setHarnessOp x (some m')) hk ho
      (a := .harness x) hm h rfl (fun c => (s.withBlock k).opOf_setHarnessOp_ne _)
      (State.opOf_setHarnessOp_same _ x _)
    exact ⟨hk', ho', hl⟩
  · obtain ⟨hk', ho'⟩ := opsInv.ends (t := (s.withBlock k).setHarnessOp x none) hk ho
      (a := .harness x) hm h rfl (fun c => (s.withBlock k).opOf_setHarnessOp_ne _)
      (State.opOf_setHarnessOp_same _ x _)
    exact ⟨hk', ho', hl⟩

/-- Taking a turn off the agenda changes the agenda alone. -/
theorem Taken.exists_agenda {s u : State} (h : Taken s u) : ∃ l, u = { s with agenda := l } :=
  ⟨u.agenda, h.1⟩

theorem Taken.inv {s u : State} (h : Taken s u) (hs : s.Inv) : u.Inv := by
  obtain ⟨l, rfl⟩ := h.exists_agenda
  exact hs

theorem TurnResult.inv {s t : State} {a : Agent} (h : TurnResult s a t) (hs : s.Inv) : t.Inv := by
  cases h with
  | illegal u f hu => exact hu.inv hs
  | perform u t a i hu hm hsys hword e =>
    obtain ⟨l, rfl⟩ := hu.exists_agenda
    exact performAs_inv (s := { s with agenda := l }) hs hm e
  | issue u o i hu => exact issueOp_inv (hu.inv hs) o i
  | control u hu =>
    obtain ⟨l, rfl⟩ := hu.exists_agenda
    obtain ⟨hk, ho, hl⟩ := hs
    exact ⟨hk, ho, hl.control⟩
  | micro u t op hu hm e =>
    obtain ⟨l, rfl⟩ := hu.exists_agenda
    exact continueOp_inv (s := { s with agenda := l }) hs hm e
  | begin u x i hu => exact beginOp_inv (hu.inv hs) x i
  | harnessMicro u t x m hu hm hsys hword e =>
    obtain ⟨l, rfl⟩ := hu.exists_agenda
    exact continueHarness_inv (s := { s with agenda := l }) hs hm e
  | harnessIdle u x hu => exact hu.inv hs

/-- Settles O42: boot keeps the invariant, and so does the turn of whichever agent moves. -/
theorem stepKeepsInvariant : Obligations.StepKeepsInvariant := by
  intro s t hs e
  rcases step_cases e with ⟨-, -, rfl⟩ | ⟨_, a, -, -, h⟩
  · exact bootStep_inv hs
  · exact h.inv hs

/-! ## Under the invariant every turn has a next state -/

theorem continueOp_answers {op : InFlight} {s : State} (hs : s.Inv) (hm : s.mainOp = some op) :
    ∃ t, continueOp op s = .next t := by
  obtain ⟨hk, ho, -⟩ := hs
  have hop := ho .main op.micro (by simp [hm])
  cases h : microStep s.activeCfg.bitInvert op.micro s.block with
  | more m k =>
    exact ⟨{ s with block := k, mainOp := some { op with micro := m } }, by simp only [continueOp, h]⟩
  | done resp c k =>
    have hfit : scratchOverrun op.owner resp = none := by
      obtain ⟨-, hr⟩ := microStep_done_size hk hop h
      cases resp with
      | read n bs => exact scratchOverrun_le fun _ => hr n bs rfl
      | _ => cases op.owner <;> rfl
    exact ⟨finishOp op resp c k s, by simp only [continueOp, h, endOp, hfit]⟩
  | fault f => exact absurd h (microStep_ne_fault hk hop)

theorem continueHarness_answers {x : Role} {m : Micro} {s : State} (hs : s.Inv)
    (hm : s.harnessOps.get x = some m) : ∃ t, continueHarness x m s = .next t := by
  obtain ⟨hk, ho, -⟩ := hs
  cases h : microStep s.activeCfg.bitInvert m s.block with
  | more m' k => exact ⟨_, continueHarness_more h⟩
  | done resp c k => exact ⟨_, continueHarness_done h⟩
  | fault f => exact absurd h (microStep_ne_fault hk (ho (.harness x) m hm))

theorem mainTurn_answers {s : State} (hs : s.Inv) : ∃ t, mainTurn s = .next t := by
  cases hm : s.mainOp with
  | none => exact ⟨loopTurn s, by simp only [mainTurn, hm]⟩
  | some op =>
    obtain ⟨t, e⟩ := continueOp_answers hs hm
    exact ⟨t, by simp only [mainTurn, hm, e]⟩

theorem harnessTurn_answers {s : State} (hs : s.Inv) (x : Role) :
    ∃ t, harnessTurn x s = .next t := by
  cases hm : s.harnessOps.get x with
  | none => exact ⟨s, by simp only [harnessTurn, hm]⟩
  | some m =>
    obtain ⟨t, e⟩ := continueHarness_answers hs hm
    exact ⟨t, by simp only [harnessTurn, hm, e]⟩

theorem agentTurn_answers {s : State} (hs : s.Inv) (a : Agent) : ∃ t, agentTurn a s = .next t := by
  cases a with
  | main => exact mainTurn_answers hs
  | irq p => exact ⟨s, rfl⟩
  | harness x => exact harnessTurn_answers hs x

theorem serve_answers {s : State} (hk : s.block.Inv) (f : Iface) (w : Word) :
    ∃ t, serve f w s = .next t := by
  unfold serve
  split
  · exact ⟨_, rfl⟩
  · rw [exec_eq_performAs]
    exact performAs_answers hk

theorem takeTurn_answers {s : State} (hs : s.Inv) (turn : Turn) :
    ∃ t, takeTurn turn s = .next t := by
  cases turn with
  | request f w => exact serve_answers hs.1 f w
  | issue w => exact ⟨_, rfl⟩
  | main => exact mainTurn_answers hs
  | abstract a i => exact performAs_answers hs.1
  | begin x i => exact ⟨_, rfl⟩
  | micro x => exact harnessTurn_answers hs x

/-- Settles O43: boot always has a next state, and under the invariant no agent's turn faults. -/
theorem stepNeverStops : Obligations.StepNeverStops := by
  intro s hs
  cases hc : s.block.cfg with
  | none => exact ⟨bootStep s, by simp only [step, machineStep, hc]⟩
  | some c =>
    cases ha : s.agenda with
    | nil =>
      obtain ⟨t, e⟩ := mainTurn_answers hs
      exact ⟨t, by simp only [step, machineStep, hc, nextTurn, ha, e]⟩
    | cons turn rest =>
      cases hw : s.waitsFor turn with
      | some a => rw [step_waits hc ha hw]; exact agentTurn_answers hs a
      | none =>
        rw [step_turn hc ha hw]
        exact takeTurn_answers (s := { s with agenda := rest }) hs turn

/-! ## The invariants right after reset (10_state.md rule R41) -/

theorem Ring.reset_inv : Ring.reset.Inv :=
  ⟨Nat.zero_le _, fun _ hi => absurd hi (Nat.not_lt_zero _), Memory.wf_nil _⟩

theorem Parser.reset_inv : Parser.reset.Inv :=
  ⟨fun _ => rfl, by decide, fun _ hi => absurd hi (Nat.not_lt_zero _), Memory.wf_nil _⟩

@[simp] theorem Block.reset_ring (r : RingId) : Block.reset.ring r = Ring.reset := by
  obtain ⟨p, d⟩ := r
  cases d <;> exact PerPort.get_all _ p

@[simp] theorem Block.reset_parser (p : Port) : Block.reset.parser p = Parser.reset :=
  PerPort.get_all _ p

@[simp] theorem Block.reset_wireOf (p : Port) : Block.reset.wireOf p = [] := PerPort.get_all _ p

theorem Block.reset_inv : Block.reset.Inv :=
  ⟨fun r => by rw [Block.reset_ring]; exact Ring.reset_inv,
    fun p => by rw [Block.reset_parser]; exact Parser.reset_inv, fun _ h => nomatch h⟩

/-- No agent has an operation in progress. -/
theorem resetWith_opOf (q : Params) (a : Agent) : (State.resetWith q).opOf a = none := by
  cases a with
  | main => rfl
  | irq p => rfl
  | harness x => cases x <;> rfl

theorem resetWith_inv (q : Params) : (State.resetWith q).Inv :=
  ⟨Block.reset_inv, fun a _ h => (nomatch (resetWith_opOf q a).symm.trans h),
    Nat.zero_le _, Nat.zero_le _⟩

/-- Nothing was accepted, nothing returned, nothing is queued. -/
theorem resetWith_fifoInv (q : Params) : FifoInv (State.resetWith q) :=
  fun r => (congrArg Ring.content (Block.reset_ring r)).symm

theorem resetWith_wireInv (q : Params) : WireInv (State.resetWith q) :=
  fun p => Block.reset_wireOf p

theorem resetWith_systemOnly (q : Params) : (State.resetWith q).systemOnly :=
  fun _ h => absurd h List.not_mem_nil

theorem resetWith_ownOp (q : Params) : ownOp (State.resetWith q) := by
  intro op h
  cases h

theorem resetWith_noMismatch (q : Params) : noMismatch (State.resetWith q).loop := by
  constructor <;> intro _ h <;> cases h

theorem resetWith_relayInv (q : Params) : RelayInv (State.resetWith q) := by
  refine ⟨resetWith_inv q, resetWith_systemOnly q, resetWith_ownOp q, fun h => ?_, fun _ h => ?_,
    resetWith_noMismatch q⟩ <;> cases h

theorem resetWith_quietInv (q : Params) : QuietInv (State.resetWith q) := by
  refine ⟨resetWith_systemOnly q, resetWith_ownOp q, fun _ _ h => ?_, ⟨rfl, rfl, rfl⟩,
    ⟨rfl, rfl, rfl⟩⟩
  cases h

/-- Settles O41: every ring and parser is empty, no agent is inside an operation, nothing was answered. -/
theorem resetMeetsInvariant : Obligations.ResetMeetsInvariant := fun q =>
  ⟨resetWith_inv q, resetWith_fifoInv q, resetWith_wireInv q, resetWith_relayInv q,
    resetWith_quietInv q, fun p => by
      simp only [State.resetWith, Block.reset_parser]
      exact ⟨Parser.reset_inv, rfl⟩⟩

/-- Settles O1: every ring is `Ring.reset`, every parser `Parser.reset`. -/
theorem resetLeavesTheSpecsValues : Obligations.ResetLeavesTheSpecsValues := by
  intro q k
  refine ⟨fun r => ?_, fun p => ?_, rfl, rfl, rfl⟩
  · have hr : k.ring r = Ring.reset := Block.reset_ring r
    simp only [Block.head, Block.tail, Block.cnt, Block.content, hr]
    exact ⟨rfl, rfl, rfl, rfl, fun _ => rfl⟩
  · have hp : k.parser p = Parser.reset := Block.reset_parser p
    rw [hp]
    exact ⟨rfl, rfl, fun _ => rfl, Block.reset_wireOf p⟩

end Sys2Proof.Machine
end

section
/-! PROOFS. What each operation run whole leaves unchanged, and the fault of a read (10_state.md rules
R21, R24 and R42). -/

namespace Sys2Proof.Machine

/-! ## Moving `head` -/

theorem Block.setHead_head (k : Block) (r : RingId) : k.setHead r (k.head r) = k :=
  Block.setRing_ring k r

@[simp] theorem Block.setHead_parser (k : Block) (r : RingId) (v : Index) (p : Port) :
    (k.setHead r v).parser p = k.parser p := Block.setRing_parser ..
@[simp] theorem Block.setHead_de (k : Block) (r : RingId) (v : Index) (p : Port) :
    (k.setHead r v).de p = k.de p := Block.setRing_de ..
@[simp] theorem Block.setHead_wireOf (k : Block) (r : RingId) (v : Index) (p : Port) :
    (k.setHead r v).wireOf p = k.wireOf p := Block.setRing_wireOf ..
@[simp] theorem Block.setHead_cfg (k : Block) (r : RingId) (v : Index) :
    (k.setHead r v).cfg = k.cfg := Block.setRing_cfg ..

/-! ## The block after each operation run whole -/

/-- A word or an abstract operation: either way an agent performs the operation. -/
theorem exists_performAs {a : Agent} {i : Instr} {s t : State}
    (h : exec i s = .next t ∨ performAs a i s = .next t) : ∃ a', performAs a' i s = .next t := by
  rcases h with e | e
  · exact ⟨issuer i, exec_eq_performAs i s ▸ e⟩
  · exact ⟨a, e⟩

theorem performAs_rbWrite_block {a : Agent} {r : RingId} {b : Byte} {s t : State}
    (e : performAs a (.rbWrite r b) s = .next t) :
    t.block = s.block ∨ t.block = (rbWrite r b s.block).1 := by
  rcases rbWriteAs_next e with ⟨-, rfl⟩ | ⟨-, rfl⟩
  · exact .inl rfl
  · exact .inr rfl

theorem performAs_irqRx_block {a : Agent} {p : Port} {b : Byte} {s t : State}
    (e : performAs a (.irqRx p b) s = .next t) :
    t.block = s.block ∨ t.block = (rbWrite (rxRing p) b s.block).1 := by
  rcases irqRxAs_next e with ⟨-, rfl⟩ | ⟨-, -, e⟩
  · exact .inl rfl
  · exact performAs_rbWrite_block e

theorem performAs_rbRead_block {a : Agent} {r : RingId} {m : Nat} {s t : State}
    (e : performAs a (.rbRead r m) s = .next t) : ∃ v, t.block = s.block.setHead r v := by
  rcases rbReadAs_next e with ⟨-, rfl⟩ | ⟨-, k, bs, hr, rfl⟩
  · exact ⟨s.block.head r, (s.block.setHead_head r).symm⟩
  · obtain ⟨-, rfl, -⟩ := rbRead_ok hr
    exact ⟨_, rfl⟩

theorem performAs_irqTx_block {a : Agent} {p : Port} {s t : State}
    (e : performAs a (.irqTx p) s = .next t) :
    ∃ v bs, t.block = sendByte p bs (s.block.setHead (txRing p) v) := by
  rcases irqTxAs_next e with ⟨-, rfl⟩ | ⟨-, -, k, bs, hr, rfl⟩
  · exact ⟨s.block.head (txRing p), [], (s.block.setHead_head (txRing p)).symm⟩
  · obtain ⟨-, rfl, -⟩ := rbRead_ok hr
    exact ⟨_, bs, rfl⟩

theorem performAs_rbCount_block {a : Agent} {r : RingId} {s t : State}
    (e : performAs a (.rbCount r) s = .next t) : t.block = s.block := by
  rcases rbCountAs_next e with ⟨-, rfl⟩ | ⟨-, rfl⟩ <;> rfl

theorem performAs_rbIsfull_block {a : Agent} {r : RingId} {s t : State}
    (e : performAs a (.rbIsfull r) s = .next t) : t.block = s.block := by
  rcases rbIsfullAs_next e with ⟨-, rfl⟩ | ⟨-, rfl⟩ <;> rfl

theorem performAs_irqTxc_block {a : Agent} {p : Port} {s t : State}
    (e : performAs a (.irqTxc p) s = .next t) :
    t.block = s.block ∨ t.block = releaseDriver p (s.block.cnt (txRing p)) s.block := by
  rcases irqTxcAs_next e with ⟨-, rfl⟩ | ⟨-, -, rfl⟩
  · exact .inl rfl
  · exact .inr rfl

/-! ## The frames of the ring operations and the events -/

/-- What RB.WRITE to `r` may change of the block: `tail` and the slot it names. -/
theorem rbWrite_frame (r : RingId) (b : Byte) (k : Block) :
    let k' := (rbWrite r b k).1
    (∀ r', r' ≠ r → k'.ring r' = k.ring r') ∧ k'.head r = k.head r ∧
    (∀ a, a ≠ slotOf (k.tail r) →
      Memory.read (k'.ring r).slots a = Memory.read (k.ring r).slots a) ∧
    (∀ p, k'.parser p = k.parser p ∧ k'.de p = k.de p ∧ k'.wireOf p = k.wireOf p) ∧
    k'.cfg = k.cfg := by
  obtain ⟨g, hg, hhead, hslots⟩ := rbWrite_setRing r b k
  simp only [hg]
  exact ⟨fun _ h => Block.ring_setRing_ne k g h, by simpa [Block.head] using hhead,
    by simpa using hslots, by simp, by simp⟩

/-- Settles O21: each of the four either leaves the block or is RB.WRITE's change of it. -/
theorem storingOperationsFrame : Obligations.StoringOperationsFrame := by
  intro r b a s t h
  have hblock : (t.block = s.block ∨ t.block = (rbWrite r b s.block).1) ∧ sameUser s t := by
    rw [← or_assoc] at h
    rcases h with h | ⟨hd, h⟩ <;> obtain ⟨a', e⟩ := exists_performAs h
    · exact ⟨performAs_rbWrite_block e, performAs_sameUser e⟩
    · obtain ⟨p, d⟩ := r
      cases hd
      exact ⟨performAs_irqRx_block e, performAs_sameUser e⟩
  obtain ⟨hk | hk, hu⟩ := hblock <;> rw [hk]
  · exact ⟨fun _ _ => rfl, rfl, fun _ _ => rfl, fun _ => ⟨rfl, rfl, rfl⟩, rfl, hu⟩
  · obtain ⟨hring, hhead, hslots, hport, hcfg⟩ := rbWrite_frame r b s.block
    exact ⟨hring, hhead, hslots, hport, hcfg, hu⟩

/-- Settles O22: a read moves `head`, and IRQ.TX then sends on its own port. -/
theorem readingOperationsFrame : Obligations.ReadingOperationsFrame := by
  refine ⟨fun r m a s t h => ?_, fun p a s t h => ?_⟩ <;> obtain ⟨a', e⟩ := exists_performAs h
  · obtain ⟨v, hk⟩ := performAs_rbRead_block e
    rw [hk]
    exact ⟨fun _ => Block.ring_setHead_ne _ v, Block.tail_setHead .., by simp, by simp, by simp,
      performAs_sameUser e⟩
  · obtain ⟨v, bs, hk⟩ := performAs_irqTx_block e
    have hde q (hq : q ≠ p) := sendByte_de_ne bs (s.block.setHead (txRing p) v) hq
    have hwire q (hq : q ≠ p) := sendByte_wire_ne bs (s.block.setHead (txRing p) v) hq
    rw [hk]
    refine ⟨fun _ hr => ?_, by simp [Block.tail], by simp, by simp, fun q hq => ?_, by simp,
      performAs_sameUser e⟩
    · rw [sendByte_ring, Block.ring_setHead_ne _ v hr]
    · rw [hde q hq, hwire q hq]
      simp

/-- Settles O23: the two readers of indices only answer, and IRQ.TXC at most releases its driver. -/
theorem lookingOperationsFrame : Obligations.LookingOperationsFrame := by
  refine ⟨fun r a s t h => ?_, fun p a s t h => ?_⟩
  · rcases h with e | e | e | e
    · rw [exec_eq_performAs] at e; exact ⟨performAs_rbCount_block e, performAs_sameUser e⟩
    · rw [exec_eq_performAs] at e; exact ⟨performAs_rbIsfull_block e, performAs_sameUser e⟩
    · exact ⟨performAs_rbCount_block e, performAs_sameUser e⟩
    · exact ⟨performAs_rbIsfull_block e, performAs_sameUser e⟩
  · obtain ⟨a', e⟩ := exists_performAs h
    rcases performAs_irqTxc_block e with hk | hk <;> rw [hk]
    · exact ⟨fun _ => rfl, fun _ => ⟨rfl, rfl⟩, fun _ _ => rfl, rfl, performAs_sameUser e⟩
    · exact ⟨by simp, by simp, fun _ hq => releaseDriver_de_ne _ _ hq, by simp,
        performAs_sameUser e⟩

/-! ## RB.READ's fault (rule R24) -/

/-- RB.READ faults as the reading of its slots does. -/
theorem rbRead_error_iff {r : RingId} {m : Nat} {k : Block} {f : Fault} :
    rbRead r m k = .error f ↔ readSlots k r (k.head r) 0 (min m (k.cnt r)) = .error f := by
  have hn : readCount m (k.tail r) (k.head r) = min m (k.cnt r) := rfl
  rw [rbRead, hn]
  split <;> simp_all

/-- Settles O17: the fault of the first slot without a value is the fault of the whole operation. -/
theorem rbReadFaultsOnUnwrittenSlot : Obligations.RbReadFaultsOnUnwrittenSlot := by
  intro r m s unwritten
  have hperform :
      unwritten ↔ ∃ j, performAs (s.consumer r) (.rbRead r m) s = .fault (.slotUnwritten r j) := by
    have h := readSlots_error_iff (k := s.block) (r := r) (h := s.block.head r)
      (min m (s.block.cnt r)) (i := 0)
    simp only [Nat.zero_add] at h
    simp only [unwritten, h, performAs_rbRead_fault rfl, rbRead_error_iff]
  refine ⟨hperform, fun hmain => ?_⟩
  rw [exec_eq_performAs, hperform, hmain]
  rfl

/-! ## FP.FEED's frame (42_frame_parser.md rule R142) -/

theorem Parser.append_ok {p : Port} {x : Byte} {q q' : Parser} (e : q.append p x = .ok q') :
    q' = q.appended x := by
  unfold Parser.append at e
  split at e <;> cases e
  rfl

theorem feedEnd_cbuf {p : Port} {q q' : Parser} {o : Option (List Byte)}
    (e : feedEnd p q = .ok (q', o)) : ∃ x, q'.cbuf = Memory.write q.cbuf q.clen.toNat x := by
  unfold feedEnd at e
  split at e
  · cases e
  · next q₁ ha =>
    split at e <;> cases e
    exact ⟨_, congrArg Parser.cbuf (Parser.append_ok ha)⟩

theorem feedOther_cbuf {p : Port} {b : Byte} {q q' : Parser} {o : Option (List Byte)}
    (e : feedOther p b q = .ok (q', o)) : ∃ x, q'.cbuf = Memory.write q.cbuf q.clen.toNat x := by
  unfold feedOther at e
  split at e
  · cases e
  · next q₁ ha =>
    refine ⟨b, ?_⟩
    have hq : q₁.cbuf = Memory.write q.cbuf q.clen.toNat b :=
      congrArg Parser.cbuf (Parser.append_ok ha)
    split at e
    · split at e <;> cases e
      exact hq
    · cases e
      exact hq

/-- What a feed stores, of any parser: nothing in WaitSTX without an STX, else one byte, at 0 for an STX
and at `clen` for any other byte. -/
theorem feedParser_cbuf {p : Port} {b : Byte} {q q' : Parser} {o : Option (List Byte)}
    (e : feedParser p b q = .ok (q', o)) :
    (b = Config.stx ∧ ∃ x, q'.cbuf = Memory.write q.cbuf q.clear.clen.toNat x) ∨
    (b ≠ Config.stx ∧ q.pstate = .waitSTX ∧ q'.cbuf = q.cbuf) ∨
    (b ≠ Config.stx ∧ q.pstate = .waitETX ∧
      ∃ x, q'.cbuf = Memory.write q.cbuf q.clen.toNat x) := by
  by_cases hs : b = Config.stx
  · refine .inl ⟨hs, Config.stx, ?_⟩
    have hstart : feedStart p q = .ok (q', o) := by
      cases hp : q.pstate <;> simpa [feedParser, hp, hs] using e
    rw [feedStart_eq] at hstart
    cases hstart
    rfl
  · cases hp : q.pstate with
    | waitSTX =>
      simp only [feedParser, hp, hs, if_false] at e
      cases e
      exact .inr (.inl ⟨hs, rfl, rfl⟩)
    | waitETX =>
      refine .inr (.inr ⟨hs, rfl, ?_⟩)
      simp only [feedParser, hp, hs, if_false] at e
      split at e
      · exact feedEnd_cbuf e
      · exact feedOther_cbuf e

/-- Settles O38: MAIN's feed replaces its own parser, of whose buffer `feedParser_cbuf` says what is
stored. -/
theorem feedFrame : Obligations.FeedFrame := by
  intro p raw s t e
  rw [exec_eq_performAs] at e
  have hu := performAs_sameUser e
  rcases fpFeedAs_next e with ⟨h, -⟩ | ⟨-, q, o, hq, rfl⟩
  · cases h
  refine ⟨fun _ => rfl, fun _ => ⟨Block.setParser_de .., rfl⟩,
    fun _ hn => Block.parser_setParser_ne _ _ hn, rfl, hu, fun a h2 hne => ?_, fun hw hn => ?_⟩
  · simp only [State.answer_block, State.withBlock_block, Block.parser_setParser_same]
    rcases feedParser_cbuf hq with ⟨hs, x, hx⟩ | ⟨-, -, hx⟩ | ⟨hs, -, x, hx⟩ <;> rw [hx]
    · exact Memory.read_write_ne _ _ (h2 hs)
    · exact Memory.read_write_ne _ _ (hne hs)
  · simp only [State.answer_block, State.withBlock_block, Block.parser_setParser_same]
    rcases feedParser_cbuf hq with ⟨hs, -⟩ | ⟨-, -, hx⟩ | ⟨-, hp, -⟩
    · exact absurd hs hn
    · exact hx
    · rw [hw] at hp; cases hp

end Sys2Proof.Machine
end

section
/-! PROOFS. What a step changes of the block and who may change it: `cfg` and the histories of the wires
under every step, and the single writer of each part (10_state.md rules R22 to R24, R28, R31, R34). -/

namespace Sys2Proof.Machine

/-! ## What a turn does to the block -/

/-- A micro-step `m` leads from block `k` to block `k'`. -/
def MicroLeads (inv : Bool) (m : Micro) (k k' : Block) : Prop :=
  (∃ m', microStep inv m k = .more m' k') ∨ ∃ resp c, microStep inv m k = .done resp c k'

/-- The accesses of micro-steps: W4 writes a slot, W5 moves `tail`, R5 moves `head`, FP.FEED replaces a
parser, and the others change nothing (rules R101, R103, R105, R106, R135). -/
theorem MicroLeads.cases {inv : Bool} {m : Micro} {k k' : Block} (h : MicroLeads inv m k k') :
    k' = k ∨ (∃ r b i t, m = .w4 r b i t ∧ k' = k.writeSlot r t b) ∨
    (∃ r b i t, m = .w5 r b i t ∧ k' = k.setTail r (t + 1#8)) ∨
    (∃ r j i n bs, m = .r5 r j i n bs ∧ k' = k.setHead r (i + BitVec.ofNat 8 n)) ∨
    ∃ p raw q, m = .feed p raw ∧ k' = k.setParser p q := by
  rcases h with ⟨m', e⟩ | ⟨resp, c, e⟩
  · cases m with
    | w4 r b i t => cases e; exact .inr (.inl ⟨r, b, i, t, rfl, rfl⟩)
    | w3 r b i t => simp only [microStep] at e; split at e <;> cases e; exact .inl rfl
    | r4 r j i n bs => simp only [microStep, readOne] at e; split at e <;> cases e; exact .inl rfl
    | feed p raw => simp only [microStep, feedMicro] at e; split at e <;> cases e
    | w1 | w2 | r1 | r2 | r3 | c1 | f1 => cases e; exact .inl rfl
    | w5 | r5 | c2 | f2 => cases e
  · rcases microStep_done e with h | ⟨r, b, i, t, h⟩ | ⟨r, j, i, n, bs, h⟩ | ⟨p, raw, q, o, hm, -, h⟩
    · exact .inl h
    · exact .inr (.inr (.inl ⟨r, b, i, t, h⟩))
    · exact .inr (.inr (.inr (.inl ⟨r, j, i, n, bs, h⟩)))
    · exact .inr (.inr (.inr (.inr ⟨p, raw, q, hm, h⟩)))

theorem Taken.block {s u : State} (h : Taken s u) : u.block = s.block := by
  obtain ⟨l, rfl⟩ := h.exists_agenda
  rfl

theorem Taken.params {s u : State} (h : Taken s u) : u.params = s.params := by
  obtain ⟨l, rfl⟩ := h.exists_agenda
  rfl

/-- Beginning an operation touches neither the block nor the arguments. -/
theorem issueOp_frame (o : Owner) (i : Instr) (s : State) :
    (issueOp o i s).block = s.block ∧ (issueOp o i s).params = s.params := by
  rcases issueOp_cases o i s with ⟨m, -, -, h⟩ | ⟨-, h⟩ <;> simp [h]

theorem beginOp_frame (x : Role) (i : Instr) (s : State) :
    (beginOp x i s).block = s.block ∧ (beginOp x i s).params = s.params := by
  rcases beginOp_cases x i s with ⟨m, -, -, h⟩ | h <;> simp [h]

/-- A turn keeps the arguments. It changes the block by an operation run whole or by one micro-step of the
agent's operation in progress, or not at all. -/
theorem TurnResult.block_cases {s t : State} {a : Agent} (h : TurnResult s a t) :
    t.params = s.params ∧ (t.block = s.block ∨
    (∃ u i, u.block = s.block ∧ u.params = s.params ∧ performAs a i u = .next t) ∨
    ∃ m, s.opOf a = some m ∧ MicroLeads s.activeCfg.bitInvert m s.block t.block) := by
  cases h with
  | illegal u f hu => exact ⟨hu.params, .inl hu.block⟩
  | perform u t a i hu hm hsys hword e =>
    obtain ⟨-, -, -, hp, -⟩ := performAs_sameUser e
    exact ⟨hp.trans hu.params, .inr (.inl ⟨u, i, hu.block, hu.params, e⟩)⟩
  | issue u o i hu =>
    obtain ⟨hk, hp⟩ := issueOp_frame o i u
    exact ⟨hp.trans hu.params, .inl (hk.trans hu.block)⟩
  | control u hu => exact ⟨hu.params, .inl hu.block⟩
  | micro u t op hu hm e =>
    obtain ⟨l, rfl⟩ := hu.exists_agenda
    have hop : s.opOf .main = some op.micro := by simp [hm]
    rcases continueOp_cases e with ⟨m, k, h, rfl⟩ | ⟨resp, c, k, h, -, rfl⟩
    · exact ⟨rfl, .inr (.inr ⟨op.micro, hop, .inl ⟨m, h⟩⟩)⟩
    · rw [finishOp_params, finishOp_block]
      exact ⟨rfl, .inr (.inr ⟨op.micro, hop, .inr ⟨resp, c, h⟩⟩)⟩
  | begin u x i hu =>
    obtain ⟨hk, hp⟩ := beginOp_frame x i u
    exact ⟨hp.trans hu.params, .inl (hk.trans hu.block)⟩
  | harnessMicro u t x m hu hm hsys hword e =>
    obtain ⟨l, rfl⟩ := hu.exists_agenda
    rcases continueHarness_cases e with ⟨m', k, h, rfl⟩ | ⟨resp, c, k, h, rfl⟩
    · exact ⟨rfl, .inr (.inr ⟨m, hm, .inl ⟨m', h⟩⟩)⟩
    · exact ⟨rfl, .inr (.inr ⟨m, hm, .inr ⟨resp, c, h⟩⟩)⟩
  | harnessIdle u x hu => exact ⟨hu.params, .inl hu.block⟩

/-! ## What no turn takes back: `cfg` and what was sent -/

/-- From block `k` to block `k'`, `cfg` is the same and each wire's history at most longer. -/
structure Keeps (k k' : Block) : Prop where
  cfg : k'.cfg = k.cfg
  wire : ∀ p, k.wireOf p <+: k'.wireOf p

theorem Keeps.of_eq {k k' : Block} (hc : k'.cfg = k.cfg) (hw : ∀ p, k'.wireOf p = k.wireOf p) :
    Keeps k k' := ⟨hc, fun p => by rw [hw p]⟩

theorem Keeps.refl (k : Block) : Keeps k k := .of_eq rfl fun _ => rfl

theorem Keeps.setRing (k : Block) (r : RingId) (g : Ring) : Keeps k (k.setRing r g) :=
  .of_eq (by simp) (by simp)

/-- IRQ.TX sends at the end of its own wire's history (rule R122). -/
theorem Keeps.sendByte {k k' : Block} (h : Keeps k k') (p : Port) (bs : List Byte) :
    Keeps k (sendByte p bs k') := by
  obtain ⟨hc, hw⟩ := h
  refine ⟨by simpa using hc, fun q => ?_⟩
  cases bs with
  | nil => exact hw q
  | cons b bs =>
    by_cases hq : q = p
    · subst hq
      simp only [Machine.sendByte, Block.wireOf_pushWire_same, Block.setDe_wireOf]
      exact (hw q).trans (List.prefix_append _ _)
    · rw [sendByte_wire_ne _ _ hq]
      exact hw q

theorem Keeps.of_performAs {a : Agent} {i : Instr} {s t : State}
    (e : performAs a i s = .next t) : Keeps s.block t.block := by
  rcases performAs_cases e with ⟨-, h⟩ | ⟨r, b, -, -, h⟩ | ⟨r, m, k, bs, -, -, hr, h⟩ |
    ⟨r, ⟨-, h⟩ | ⟨-, h⟩⟩ | ⟨p, k, bs, -, -, -, hr, h⟩ | ⟨p, -, -, h⟩ | ⟨p, raw, q, o, -, -, -, h⟩ <;>
    subst h
  · exact .refl _
  · obtain ⟨g, hg, -⟩ := rbWrite_setRing r b s.block
    simp only [State.answer_block, State.withBlock_block, hg]
    exact .setRing ..
  · obtain ⟨-, rfl, -⟩ := rbRead_ok hr
    exact .setRing ..
  · exact .refl _
  · exact .refl _
  · obtain ⟨-, rfl, -⟩ := rbRead_ok hr
    exact (Keeps.setRing ..).sendByte p bs
  · exact .of_eq (by simp) (by simp)
  · exact .of_eq rfl fun _ => rfl

theorem Keeps.of_microLeads {inv : Bool} {m : Micro} {k k' : Block} (h : MicroLeads inv m k k') :
    Keeps k k' := by
  rcases h.cases with rfl | ⟨r, b, i, t, -, rfl⟩ | ⟨r, b, i, t, -, rfl⟩ |
    ⟨r, j, i, n, bs, -, rfl⟩ | ⟨p, raw, q, -, rfl⟩
  · exact .refl _
  · exact .setRing ..
  · exact .setRing ..
  · exact .setRing ..
  · exact .of_eq rfl fun _ => rfl

theorem TurnResult.keeps {s t : State} {a : Agent} (h : TurnResult s a t) :
    Keeps s.block t.block := by
  obtain ⟨-, hk | ⟨u, i, hk, -, e⟩ | ⟨m, -, hm⟩⟩ := h.block_cases
  · rw [hk]; exact .refl _
  · rw [← hk]; exact .of_performAs e
  · exact .of_microLeads hm

/-- Settles O4: boot runs only while `cfg` is not selected, and no turn changes it. -/
theorem configIsConstantAfterBoot : Obligations.ConfigIsConstantAfterBoot := by
  intro s t e
  rcases step_cases e with ⟨hc, -, rfl⟩ | ⟨_, a, -, -, h⟩
  · exact ⟨rfl, fun c h => nomatch hc.symm.trans h⟩
  · obtain ⟨hp, -⟩ := h.block_cases
    exact ⟨hp, fun c hs => h.keeps.cfg.trans hs⟩

/-- Settles O46: boot sends nothing, and a turn at most appends to a history. -/
theorem wireHistoryOnlyGrows : Obligations.WireHistoryOnlyGrows := by
  intro s t p e
  rcases step_cases e with ⟨-, -, rfl⟩ | ⟨_, a, -, -, h⟩
  · exact List.prefix_rfl
  · exact h.keeps.wire p

/-! ## The single writer of each part of the block -/

/-- What agent `a` leaves of the block, as the roles on it say (`h` is the harness's ring): each part of
which it is not the one writer. -/
structure WritesOwn (h : Option RingId) (a : Agent) (k k' : Block) : Prop where
  head : ∀ r, a ≠ consumer h r → k'.head r = k.head r
  tail : ∀ r, a ≠ producer h r → k'.tail r = k.tail r
  slots : ∀ r, a ≠ producer h r → (k'.ring r).slots = (k.ring r).slots
  de : ∀ p, a ≠ .irq p → k'.de p = k.de p
  wire : ∀ p, a ≠ .irq p → k'.wireOf p = k.wireOf p
  parser : a ≠ .main → ∀ p, k'.parser p = k.parser p

section Writers

variable {h : Option RingId} {a : Agent} {k k' : Block}

theorem WritesOwn.refl (k : Block) : WritesOwn h a k k :=
  ⟨fun _ _ => rfl, fun _ _ => rfl, fun _ _ => rfl, fun _ _ => rfl, fun _ _ => rfl, fun _ _ => rfl⟩

theorem WritesOwn.trans {k'' : Block} (w : WritesOwn h a k k') (w' : WritesOwn h a k' k'') :
    WritesOwn h a k k'' where
  head r n := (w'.head r n).trans (w.head r n)
  tail r n := (w'.tail r n).trans (w.tail r n)
  slots r n := (w'.slots r n).trans (w.slots r n)
  de p n := (w'.de p n).trans (w.de p n)
  wire p n := (w'.wire p n).trans (w.wire p n)
  parser n p := (w'.parser n p).trans (w.parser n p)

/-- A ring replaced, its consumer's register only by the consumer, the producer's only by the producer. -/
theorem WritesOwn.setRing {r : RingId} {g : Ring}
    (hc : a ≠ consumer h r → g.head = (k.ring r).head)
    (hp : a ≠ producer h r → g.tail = (k.ring r).tail ∧ g.slots = (k.ring r).slots) :
    WritesOwn h a k (k.setRing r g) := by
  have other (r') (e : r' ≠ r) := Block.ring_setRing_ne k g e
  refine ⟨fun r' n => ?_, fun r' n => ?_, fun r' n => ?_, fun p _ => by simp, fun p _ => by simp,
    fun _ p => by simp⟩ <;> by_cases e : r' = r
  · subst e; simpa [Block.head] using hc n
  · simp [Block.head, other r' e]
  · subst e; simpa [Block.tail] using (hp n).1
  · simp [Block.tail, other r' e]
  · subst e; simpa using (hp n).2
  · simp [other r' e]

theorem WritesOwn.setHead {r : RingId} (hc : a = consumer h r) (v : Index) :
    WritesOwn h a k (k.setHead r v) := .setRing (fun n => absurd hc n) fun _ => ⟨rfl, rfl⟩

theorem WritesOwn.setTail {r : RingId} (hp : a = producer h r) (v : Index) :
    WritesOwn h a k (k.setTail r v) := .setRing (fun _ => rfl) fun n => absurd hp n

theorem WritesOwn.writeSlot {r : RingId} (hp : a = producer h r) (i : Index) (b : Byte) :
    WritesOwn h a k (k.writeSlot r i b) := .setRing (fun _ => rfl) fun n => absurd hp n

theorem WritesOwn.rbWrite {r : RingId} (hp : a = producer h r) (b : Byte) :
    WritesOwn h a k (rbWrite r b k).1 := by
  obtain ⟨g, hg, hhead, -⟩ := rbWrite_setRing r b k
  rw [hg]
  exact .setRing (fun _ => hhead) fun n => absurd hp n

theorem WritesOwn.rbRead {r : RingId} {m : Nat} {bs : List Byte} (hc : a = consumer h r)
    (e : rbRead r m k = .ok (k', bs)) : WritesOwn h a k k' := by
  obtain ⟨-, rfl, -⟩ := rbRead_ok e
  exact .setHead hc _

theorem WritesOwn.setParser (ha : a = .main) (p : Port) (q : Parser) :
    WritesOwn h a k (k.setParser p q) :=
  ⟨fun _ _ => rfl, fun _ _ => rfl, fun _ _ => rfl, fun _ _ => Block.setParser_de .., fun _ _ => rfl,
    fun n => absurd ha n⟩

theorem ne_of_agent_ne_irq {p q : Port} (n : Agent.irq p ≠ .irq q) : q ≠ p :=
  fun e => n (e ▸ rfl)

theorem WritesOwn.sendByte (p : Port) (bs : List Byte) :
    WritesOwn h (.irq p) k (sendByte p bs k) where
  head r _ := by simp [Block.head]
  tail r _ := by simp [Block.tail]
  slots r _ := by simp
  de _ n := sendByte_de_ne bs k (ne_of_agent_ne_irq n)
  wire _ n := sendByte_wire_ne bs k (ne_of_agent_ne_irq n)
  parser _ _ := by simp

theorem WritesOwn.releaseDriver (p : Port) (c : Nat) :
    WritesOwn h (.irq p) k (releaseDriver p c k) where
  head r _ := by simp [Block.head]
  tail r _ := by simp [Block.tail]
  slots r _ := by simp
  de _ n := releaseDriver_de_ne c k (ne_of_agent_ne_irq n)
  wire _ _ := by simp
  parser _ _ := by simp

theorem WritesOwn.of_performAs {i : Instr} {s t : State} (e : performAs a i s = .next t) :
    WritesOwn s.params.harness a s.block t.block := by
  rcases performAs_cases e with ⟨-, h⟩ | ⟨r, b, hp, -, h⟩ | ⟨r, m, k, bs, hc, -, hr, h⟩ |
    ⟨r, ⟨-, h⟩ | ⟨-, h⟩⟩ | ⟨p, k, bs, ha, hc, -, hr, h⟩ | ⟨p, ha, -, h⟩ |
    ⟨p, raw, q, o, ha, -, -, h⟩ <;> subst h
  · exact .refl _
  · exact .rbWrite hp b
  · exact .rbRead hc hr
  · exact .refl _
  · exact .refl _
  · subst ha; exact (WritesOwn.rbRead hc hr).trans (.sendByte p bs)
  · subst ha; exact .releaseDriver p _
  · exact .setParser ha p q

theorem WritesOwn.of_microLeads {inv : Bool} {m : Micro} (hm : MicroInv h a k m)
    (e : MicroLeads inv m k k') : WritesOwn h a k k' := by
  rcases e.cases with rfl | ⟨r, b, i, t, rfl, rfl⟩ | ⟨r, b, i, t, rfl, rfl⟩ |
    ⟨r, j, i, n, bs, rfl, rfl⟩ | ⟨p, raw, q, rfl, rfl⟩
  · exact .refl _
  · exact .writeSlot (hm.producer_of_write rfl) t b
  · exact .setTail (hm.producer_of_write rfl) _
  · exact .setHead (hm.consumer_of_read rfl) _
  · exact .setParser (of_decide_eq_true hm.1) p q

theorem TurnResult.writesOwn {s t : State} (r : TurnResult s a t) (hs : opsInv s) :
    WritesOwn s.params.harness a s.block t.block := by
  obtain ⟨-, hk | ⟨u, i, hk, hp, e⟩ | ⟨m, hm, e⟩⟩ := r.block_cases
  · rw [hk]; exact .refl _
  · rw [← hk, ← hp]; exact .of_performAs e
  · exact .of_microLeads (hs a m hm) e

/-- MAIN leaves the registers and slots of the events, the drivers and the wires (60_exceptions.md rule
R195). -/
theorem WritesOwn.main (w : WritesOwn h .main k k') (p : Port) :
    k'.head (txRing p) = k.head (txRing p) ∧ k'.tail (rxRing p) = k.tail (rxRing p) ∧
      (k'.ring (rxRing p)).slots = (k.ring (rxRing p)).slots ∧ k'.de p = k.de p ∧
      k'.wireOf p = k.wireOf p := by
  have hc : Agent.main ≠ consumer h (txRing p) := fun e => nomatch (consumer_main e).1
  have hp : Agent.main ≠ producer h (rxRing p) := fun e => nomatch (producer_main e).1
  have hi : Agent.main ≠ .irq p := Agent.noConfusion
  exact ⟨w.head _ hc, w.tail _ hp, w.slots _ hp, w.de p hi, w.wire p hi⟩

end Writers

/-- Settles O24: an operation run whole and a turn of agent `a` write only what is `a`'s own. -/
theorem singleWriterDiscipline : Obligations.SingleWriterDiscipline := by
  refine ⟨fun a i s t r e => ?_, fun s t hs e => ?_⟩
  · have w := WritesOwn.of_performAs e
    exact ⟨not_imp_comm.1 (w.head r), not_imp_comm.1 (w.tail r), not_imp_comm.1 (w.slots r)⟩
  · rcases step_cases e with ⟨-, hm, rfl⟩ | ⟨_, a, -, hm, turn⟩
    · have hde p : (bootStep s).block.de p = s.block.de p := by cases p <;> rfl
      exact ⟨fun _ => ⟨absurd rfl, absurd rfl, absurd rfl⟩,
        fun p => ⟨absurd (hde p), absurd rfl, absurd rfl⟩, fun h => nomatch hm.symm.trans h⟩
    · obtain ⟨-, ho, -⟩ := hs
      have w := turn.writesOwn ho
      simp only [hm, Option.some.injEq]
      refine ⟨fun r => ⟨not_imp_comm.1 (w.head r), not_imp_comm.1 (w.tail r),
        not_imp_comm.1 (w.slots r)⟩, fun p => ⟨not_imp_comm.1 (w.de p), not_imp_comm.1 (w.wire p),
        not_imp_comm.1 fun n => w.parser n p⟩, ?_⟩
      rintro rfl p
      exact w.main p

end Sys2Proof.Machine
end

section
/-! PROOFS. Operations of several agents side by side: the turn that waits for a busy agent, and events of
different ports, which commute (20_memory.md rules R56, R64; 41_interrupt_gate.md rule R127). -/

namespace Sys2Proof.Machine

/-! ## A turn that waits (rule R56, log entry 9) -/

/-- A micro-step takes no turn off the agenda. -/
theorem continueOp_agenda {op : InFlight} {s u : State} (e : continueOp op s = .next u) :
    u.agenda = s.agenda := by
  rcases continueOp_cases e with ⟨m, k, -, rfl⟩ | ⟨resp, c, k, -, -, rfl⟩
  · rfl
  · simp [finishOp]

theorem continueHarness_agenda {x : Role} {m : Micro} {s u : State}
    (e : continueHarness x m s = .next u) : u.agenda = s.agenda := by
  rcases continueHarness_cases e with ⟨m', k, -, rfl⟩ | ⟨resp, c, k, -, rfl⟩ <;> rfl

theorem State.waitsFor_busy {s : State} {t : Turn} {a : Agent} {m : Micro}
    (h : t.needsIdle = some a) (ho : s.opOf a = some m) : s.waitsFor t = some a := by
  simp [State.waitsFor, h, ho]

/-- Settles O13: the turn waits for the busy agent, whose micro-step leaves the agenda. -/
theorem secondOperationWaits : Obligations.SecondOperationWaits := by
  intro s e t rest hc ha
  refine ⟨fun op hop ht => ?_, fun x m hm ht => ?_⟩
  · have hstep : step s = continueOp op s := by
      rw [step_waits hc ha (State.waitsFor_busy (m := op.micro) ht (by simp [hop]))]
      simp only [agentTurn, mainTurn, hop]
    exact ⟨hstep, fun u hu => continueOp_agenda (hstep ▸ hu)⟩
  · have hstep : step s = continueHarness x m s := by
      rw [step_waits hc ha (State.waitsFor_busy ht hm)]
      simp only [agentTurn, harnessTurn, hm]
    exact ⟨hstep, fun u hu => continueHarness_agenda (hstep ▸ hu)⟩

/-! ## The part of the block that belongs to one port (rule R64) -/

/-- What the events of a port read and write: its two rings, its driver and its wire. -/
structure PortPart where
  rx : Ring
  tx : Ring
  de : Option Bool
  wire : List Byte

/-- The part of the block of port `p`. -/
def Block.part (k : Block) (p : Port) : PortPart :=
  ⟨k.ring (rxRing p), k.ring (txRing p), k.de p, k.wireOf p⟩

theorem Block.part_eq_iff {k k' : Block} {p : Port} :
    k'.part p = k.part p ↔ k'.ring (rxRing p) = k.ring (rxRing p) ∧
      k'.ring (txRing p) = k.ring (txRing p) ∧ k'.de p = k.de p ∧ k'.wireOf p = k.wireOf p := by
  simp [Block.part]

/-- From block `k` to block `k'` nothing changes but the part of port `p`. -/
structure OnlyPart (p : Port) (k k' : Block) : Prop where
  part : ∀ q, q ≠ p → k'.part q = k.part q
  parser : ∀ q, k'.parser q = k.parser q
  cfg : k'.cfg = k.cfg

theorem PerPort.ext_get {α : Type} {v w : PerPort α} (h : ∀ p, v.get p = w.get p) : v = w := by
  obtain ⟨a, b, c⟩ := v
  have hpc : a = w.pc := h .pc
  have hmaster : b = w.master := h .master
  have hslave : c = w.slave := h .slave
  rw [hpc, hmaster, hslave]

/-- The parts of the ports, the parsers and `cfg` are the whole block. -/
theorem Block.ext_part {k k' : Block} (hpart : ∀ p, k'.part p = k.part p)
    (hparser : ∀ p, k'.parser p = k.parser p) (hcfg : k'.cfg = k.cfg) : k' = k := by
  simp only [Block.part_eq_iff] at hpart
  have hrx : k'.rx = k.rx := PerPort.ext_get fun p => (hpart p).1
  have htx : k'.tx = k.tx := PerPort.ext_get fun p => (hpart p).2.1
  have hwire : k'.wire = k.wire := PerPort.ext_get fun p => (hpart p).2.2.2
  have hps : k'.parsers = k.parsers := PerPort.ext_get hparser
  have hmaster : k'.deMaster = k.deMaster := Option.some.inj (hpart .master).2.2.1
  have hslave : k'.deSlave = k.deSlave := Option.some.inj (hpart .slave).2.2.1
  cases k
  cases k'
  simp_all

/-! ## Accesses see and change the part of their own port only -/

section Locality

variable {p : Port} {k k' : Block}

theorem Block.ring_of_part (h : k'.part p = k.part p) (d : Dir) : k'.ring ⟨p, d⟩ = k.ring ⟨p, d⟩ := by
  obtain ⟨hrx, htx, -, -⟩ := Block.part_eq_iff.1 h
  cases d
  · exact hrx
  · exact htx

theorem Block.part_setRing (h : k'.part p = k.part p) (d : Dir) (g : Ring) :
    (k'.setRing ⟨p, d⟩ g).part p = (k.setRing ⟨p, d⟩ g).part p := by
  obtain ⟨hrx, htx, hde, hwire⟩ := Block.part_eq_iff.1 h
  have hne : txRing p ≠ rxRing p := by simp
  refine Block.part_eq_iff.2 ⟨?_, ?_, by simpa using hde, by simpa using hwire⟩ <;> cases d <;>
    simp [Block.ring_setRing_ne _ _ hne, Block.ring_setRing_ne _ _ hne.symm, hrx, htx]

theorem Block.part_setDe (h : k'.part p = k.part p) (v : Bool) :
    (k'.setDe p v).part p = (k.setDe p v).part p := by
  obtain ⟨hrx, htx, -, hwire⟩ := Block.part_eq_iff.1 h
  refine Block.part_eq_iff.2 ⟨by simpa using hrx, by simpa using htx, ?_, by simpa using hwire⟩
  cases p <;> rfl

theorem Block.part_pushWire (h : k'.part p = k.part p) (b : Byte) :
    (k'.pushWire p b).part p = (k.pushWire p b).part p := by
  obtain ⟨hrx, htx, hde, hwire⟩ := Block.part_eq_iff.1 h
  exact Block.part_eq_iff.2 ⟨hrx, htx, by simpa using hde, by simp [hwire]⟩

/-- RB.WRITE's response and its effect on the port are a function of the port's part. -/
theorem rbWrite_part (h : k'.part p = k.part p) (d : Dir) (b : Byte) :
    (rbWrite ⟨p, d⟩ b k').2 = (rbWrite ⟨p, d⟩ b k).2 ∧
      (rbWrite ⟨p, d⟩ b k').1.part p = (rbWrite ⟨p, d⟩ b k).1.part p := by
  have hring := Block.ring_of_part h d
  by_cases hf : k.cnt ⟨p, d⟩ = Config.capacity
  · have hf' : k'.cnt ⟨p, d⟩ = Config.capacity := by rw [← hf, Block.cnt, hring, Block.cnt]
    rw [rbWrite_full hf, rbWrite_full hf']
    exact ⟨rfl, h⟩
  · have hf' : k'.cnt ⟨p, d⟩ ≠ Config.capacity := by rwa [Block.cnt, hring]
    rw [rbWrite_room hf, rbWrite_room hf']
    refine ⟨rfl, ?_⟩
    simp only [Block.setTail, Block.writeSlot, Block.ring_setRing_same, Block.setRing_setRing,
      Block.tail, hring]
    exact Block.part_setRing h d _

theorem readSlots_part (h : k'.part p = k.part p) (d : Dir) (v : Index) (n : Nat) :
    ∀ i, readSlots k' ⟨p, d⟩ v i n = readSlots k ⟨p, d⟩ v i n := by
  induction n with
  | zero => intro i; rfl
  | succ n ih => intro i; simp only [readSlots, Block.readSlot, Block.ring_of_part h d, ih]

/-- RB.READ's bytes and its effect on the port are a function of the port's part. -/
theorem rbRead_part (h : k'.part p = k.part p) {d : Dir} {m : Nat} {k₁ : Block} {bs : List Byte}
    (e : rbRead ⟨p, d⟩ m k = .ok (k₁, bs)) :
    ∃ k₁', rbRead ⟨p, d⟩ m k' = .ok (k₁', bs) ∧ k₁'.part p = k₁.part p := by
  have hring := Block.ring_of_part h d
  simp only [rbRead, readSlots_part h, Block.head, Block.tail, hring] at e ⊢
  split at e
  · cases e
  · next bs' hbs =>
    cases e
    refine ⟨_, rfl, ?_⟩
    simp only [Block.setHead, hring]
    exact Block.part_setRing h d _

theorem sendByte_part (h : k'.part p = k.part p) (bs : List Byte) :
    (sendByte p bs k').part p = (sendByte p bs k).part p := by
  cases bs with
  | nil => exact h
  | cons b bs => exact Block.part_pushWire (Block.part_setDe h true) b

theorem releaseDriver_part (h : k'.part p = k.part p) (c : Nat) :
    (releaseDriver p c k').part p = (releaseDriver p c k).part p := by
  unfold releaseDriver
  split
  · exact Block.part_setDe h false
  · exact h

end Locality

/-! ## Events see and change the part of their own port only (rule R64) -/

/-- The events of a port are the operations of its event interface (30_encoding.md rule R79). -/
theorem homeIface_event {i : Instr} {p : Port} (hi : homeIface i = .event p) :
    (∃ b, i = .irqRx p b) ∨ i = .irqTx p ∨ i = .irqTxc p := by
  cases i with
  | irqRx p' b => cases hi; exact .inl ⟨b, rfl⟩
  | irqTx p' => cases hi; exact .inr (.inl rfl)
  | irqTxc p' => cases hi; exact .inr (.inr rfl)
  | rbWrite | rbRead | rbCount | rbIsfull | fpFeed => cases hi

/-- The frame of an event, put together from those of the three event operations (rule R42). -/
theorem exec_event_onlyPart {i : Instr} {p : Port} {s t : State} (hi : homeIface i = .event p)
    (e : exec i s = .next t) : OnlyPart p s.block t.block := by
  rcases homeIface_event hi with ⟨b, rfl⟩ | rfl | rfl
  · obtain ⟨hring, -, -, hport, hcfg, -⟩ :=
      storingOperationsFrame (rxRing p) b .main s t (.inr (.inr ⟨rfl, .inl e⟩))
    refine ⟨fun q hq => ?_, fun q => (hport q).1, hcfg⟩
    exact Block.part_eq_iff.2 ⟨hring _ (by simp [hq]), hring _ (by simp), (hport q).2⟩
  · obtain ⟨hring, -, -, hparser, hport, hcfg, -⟩ :=
      readingOperationsFrame.2 p .main s t (.inl e)
    refine ⟨fun q hq => ?_, hparser, hcfg⟩
    exact Block.part_eq_iff.2 ⟨hring _ (by simp), hring _ (by simp [hq]), hport q hq⟩
  · obtain ⟨hring, hport, hde, hcfg, -⟩ := lookingOperationsFrame.2 p .main s t (.inl e)
    refine ⟨fun q hq => ?_, fun q => (hport q).1, hcfg⟩
    exact Block.part_eq_iff.2 ⟨hring _, hring _, hde q hq, (hport q).2⟩

theorem State.producer_congr {s s' : State} (h : s'.params = s.params) (r : RingId) :
    s'.producer r = s.producer r := by rw [State.producer, h, State.producer]

theorem State.consumer_congr {s s' : State} (h : s'.params = s.params) (r : RingId) :
    s'.consumer r = s.consumer r := by rw [State.consumer, h, State.consumer]

/-- From `s` the event `i` of port `p` answers its handler, which gives `t`; and from every state with the
same arguments and the same part of `p` it gives the same answer and leaves the same part. -/
def EventLocal (p : Port) (i : Instr) (s t : State) : Prop :=
  ∃ k op resp c, t = (s.withBlock k).answer (.irq p) op resp c ∧
    ∀ s' : State, s'.params = s.params → s'.block.part p = s.block.part p →
      ∃ k', k'.part p = k.part p ∧
        performAs (.irq p) i s' = .next ((s'.withBlock k').answer (.irq p) op resp c)

theorem EventLocal.refuse {p : Port} {i : Instr} {s : State}
    (hm : s.mayIssue (.irq p) i = false) : EventLocal p i s (s.refuse (.irq p) i) :=
  ⟨s.block, _, _, _, rfl, fun s' hp hk =>
    ⟨s'.block, hk, performAs_refused s' (by rw [State.mayIssue, hp]; exact hm)⟩⟩

theorem EventLocal.irqRx {p : Port} {b : Byte} {s t : State}
    (e : performAs (.irq p) (.irqRx p b) s = .next t) : EventLocal p (.irqRx p b) s t := by
  rcases irqRxAs_next e with ⟨hm, rfl⟩ | ⟨-, hprod, e⟩
  · exact .refuse hm
  · cases e.symm.trans (performAs_rbWrite hprod b)
    refine ⟨_, _, _, _, rfl, fun s' hp hk => ?_⟩
    have hprod' := hprod.trans (State.producer_congr hp (rxRing p)).symm
    obtain ⟨hresp, hpart⟩ := rbWrite_part hk .rx b
    refine ⟨_, hpart, ?_⟩
    rw [performAs_irqRx hprod'.symm, performAs_rbWrite hprod', hresp]

theorem EventLocal.irqTx {p : Port} {s t : State}
    (e : performAs (.irq p) (.irqTx p) s = .next t) : EventLocal p (.irqTx p) s t := by
  rcases irqTxAs_next e with ⟨hm, rfl⟩ | ⟨-, hcons, k, bs, hr, rfl⟩
  · exact .refuse hm
  · refine ⟨_, _, _, _, rfl, fun s' hp hk => ?_⟩
    have hcons' := (State.consumer_congr hp (txRing p)).trans hcons.symm
    obtain ⟨k', hr', hpart⟩ := rbRead_part hk hr
    exact ⟨_, sendByte_part hpart bs, performAs_irqTx hcons' hr'⟩

theorem EventLocal.irqTxc {p : Port} {s t : State}
    (e : performAs (.irq p) (.irqTxc p) s = .next t) : EventLocal p (.irqTxc p) s t := by
  rcases irqTxcAs_next e with ⟨hm, rfl⟩ | ⟨-, hcons, rfl⟩
  · exact .refuse hm
  · refine ⟨_, _, _, _, rfl, fun s' hp hk => ?_⟩
    have hcons' := (State.consumer_congr hp (txRing p)).trans hcons.symm
    have hcnt : s'.block.cnt (txRing p) = s.block.cnt (txRing p) := by
      rw [Block.cnt, Block.ring_of_part hk, Block.cnt]
    exact ⟨_, releaseDriver_part hk _, by rw [performAs_irqTxc hcons', hcnt]⟩

/-- The word of an event is the operation of its port's handler. -/
theorem exec_event {i : Instr} {p : Port} (hi : homeIface i = .event p) (s : State) :
    exec i s = performAs (.irq p) i s := by
  rw [exec_eq_performAs, issuer, hi, agentOf]

theorem EventLocal.of_exec {i : Instr} {p : Port} {s t : State} (hi : homeIface i = .event p)
    (e : exec i s = .next t) : EventLocal p i s t := by
  rw [exec_event hi] at e
  rcases homeIface_event hi with ⟨b, rfl⟩ | rfl | rfl
  · exact .irqRx e
  · exact .irqTx e
  · exact .irqTxc e

/-! ## Events of different ports commute (rules R64, R127) -/

/-- Two ways round that change the parts of `p` and `q` in either order end in the same block, when the
second change of each part leads to what the first did. -/
theorem OnlyPart.commute {p q : Port} {k k₁ k₂ k₁' k₂' : Block} (hpq : p ≠ q)
    (h₁ : OnlyPart p k k₁) (h₂ : OnlyPart q k₁ k₂) (h₁' : OnlyPart q k k₁')
    (h₂' : OnlyPart p k₁' k₂') (hq : k₁'.part q = k₂.part q) (hp : k₂'.part p = k₁.part p) :
    k₂' = k₂ := by
  refine Block.ext_part (fun r => ?_) (fun r => ?_) ?_
  · by_cases hrp : r = p
    · subst hrp; exact hp.trans (h₂.part r hpq).symm
    by_cases hrq : r = q
    · subst hrq; exact (h₂'.part r hrp).trans hq
    · rw [h₂'.part r hrp, h₁'.part r hrq, h₂.part r hrq, h₁.part r hrp]
  · rw [h₂'.parser, h₁'.parser, h₂.parser, h₁.parser]
  · rw [h₂'.cfg, h₁'.cfg, h₂.cfg, h₁.cfg]

/-- The order of two answers to different agents is seen by neither. -/
theorem filter_agent_swap {x y : Answer} (h : x.agent ≠ y.agent) (log : List Answer) (a : Agent) :
    ((log ++ [y]) ++ [x]).filter (fun e => decide (e.agent = a)) =
      ((log ++ [x]) ++ [y]).filter fun e => decide (e.agent = a) := by
  by_cases hx : x.agent = a
  · have hy : y.agent ≠ a := fun e => h (hx.trans e.symm)
    simp [hx, hy]
  · simp [List.filter_cons, hx]

/-- Settles O30: each event sees and changes the part of its own port only. -/
theorem handlersOfDifferentPortsCommute : Obligations.HandlersOfDifferentPortsCommute := by
  intro p q i j s t u hpq hi hj e₁ e₂
  have h₁ := exec_event_onlyPart hi e₁
  have h₂ := exec_event_onlyPart hj e₂
  obtain ⟨k₁, op, resp, c, rfl, hlocal⟩ := EventLocal.of_exec hi e₁
  obtain ⟨k₂, op', resp', c', rfl, hlocal'⟩ := EventLocal.of_exec hj e₂
  obtain ⟨k₁', hq, e₁'⟩ := hlocal' s rfl (h₁.part q hpq.symm).symm
  rw [← exec_event hj] at e₁'
  have h₁' := exec_event_onlyPart hj e₁'
  obtain ⟨k₂', hp, e₂'⟩ :=
    hlocal ((s.withBlock k₁').answer (.irq q) op' resp' c') rfl (h₁'.part p hpq)
  rw [← exec_event hi] at e₂'
  have h₂' := exec_event_onlyPart hi e₂'
  exact ⟨_, _, e₁', e₂', OnlyPart.commute hpq h₁ h₂ h₁' h₂' hq hp, ⟨rfl, rfl, rfl, rfl, rfl⟩,
    filter_agent_swap (x := ⟨.irq p, op, resp, c⟩) (y := ⟨.irq q, op', resp', c'⟩)
      (fun h => hpq (Agent.irq.inj h)) s.answers⟩

end Sys2Proof.Machine
end

section
/-! PROOFS. The decoder and the encoder are inverse to each other on well-formed operations, and what the
decoder rejects, read off the fields of the word (30_encoding.md rules R77, R83, R85). -/

namespace Sys2Proof

/-! ## Decoding the word of an operation -/

/-- A word put together with a reserved bit of 0 has a legal port, so only its row is left to read. -/
theorem decode_opWord {op : BitVec 4} (h : op.toNat < 8) (p : Port) (rg : BitVec 1) (imm : Byte) :
    decode (opWord op p rg imm) = decodeOp (opWord op p rg imm) p := by
  simp [decode, Nat.not_le.2 h]

/-- Settles O7: the row that the word's `op` selects takes every operand back from its field. -/
theorem decodeOfEncodeIsIdentity : Obligations.DecodeOfEncodeIsIdentity := by
  intro i hwf
  cases i with
  | rbWrite r b => simp [encode, decode_opWord, decodeOp]
  | rbRead r m =>
    have hm : m < 256 := of_decide_eq_true hwf
    simp [encode, decode_opWord, decodeOp, Nat.mod_eq_of_lt hm]
  | rbCount r => simp [encode, decode_opWord, decodeOp, needImmZero]
  | rbIsfull r => simp [encode, decode_opWord, decodeOp, needImmZero]
  | irqRx p b => simp [encode, decode_opWord, decodeOp, needRgZero]
  | irqTx p => simp [encode, decode_opWord, decodeOp, needRgOneImmZero, needImmZero]
  | irqTxc p => simp [encode, decode_opWord, decodeOp, needRgOneImmZero, needImmZero]
  | fpFeed p raw => simp [encode, decode_opWord, decodeOp, needRgZero]

/-- Settles O5: each word evaluated. -/
theorem publishedWordsDecode : Obligations.PublishedWordsDecode := by
  unfold Obligations.PublishedWordsDecode
  decide

/-! ## The operation of a word that decodes -/

theorem needImmZero_ok {w : Word} {i j : Instr} (e : needImmZero w i = .ok j) :
    immField w = 0#8 ∧ i = j := by
  unfold needImmZero at e
  split at e
  · next h => exact ⟨h, Except.ok.inj e⟩
  · cases e

theorem needRgZero_ok {w : Word} {i j : Instr} (e : needRgZero w i = .ok j) :
    rgField w = 0#1 ∧ i = j := by
  unfold needRgZero at e
  split at e
  · next h => exact ⟨h, Except.ok.inj e⟩
  · cases e

theorem needRgOneImmZero_ok {w : Word} {i j : Instr} (e : needRgOneImmZero w i = .ok j) :
    rgField w = 1#1 ∧ immField w = 0#8 ∧ i = j := by
  unfold needRgOneImmZero at e
  split at e
  · next h => exact ⟨h, needImmZero_ok e⟩
  · cases e

/-- A word that decodes has a legal port and a reserved bit of 0, and is of the row that `op` selects. -/
theorem decode_ok {w : Word} {i : Instr} (e : decode w = .ok i) :
    ∃ p, portField w = codeOfPort p ∧ zField w = 0#1 ∧ decodeOp w p = .ok i := by
  unfold decode at e
  split at e
  · cases e
  · split at e
    · cases e
    · next p hp =>
      split at e
      · next hz => exact ⟨p, (codeOfPort_of_portOfCode hp).symm, hz, e⟩
      · cases e

/-- The operation of a row is well formed, and its word has the fields that the row was read from. -/
theorem encode_of_decodeOp {w : Word} {p : Port} {i : Instr} (e : decodeOp w p = .ok i) :
    i.wf = true ∧ encode i = opWord (opField w) p (rgField w) (immField w) := by
  have hop {n : Nat} (h : (opField w).toNat = n) : opField w = BitVec.ofNat 4 n := by simp [← h]
  unfold decodeOp at e
  split at e
  · next h => cases e; exact ⟨rfl, by simp [encode, hop h]⟩
  · next h => cases e; exact ⟨decide_eq_true (immField w).isLt, by simp [encode, hop h]⟩
  · next h => obtain ⟨hi, rfl⟩ := needImmZero_ok e; exact ⟨rfl, by simp [encode, hop h, hi]⟩
  · next h => obtain ⟨hi, rfl⟩ := needImmZero_ok e; exact ⟨rfl, by simp [encode, hop h, hi]⟩
  · next h => obtain ⟨hr, rfl⟩ := needRgZero_ok e; exact ⟨rfl, by simp [encode, hop h, hr]⟩
  · next h =>
    obtain ⟨hr, hi, rfl⟩ := needRgOneImmZero_ok e
    exact ⟨rfl, by simp [encode, hop h, hr, hi]⟩
  · next h =>
    obtain ⟨hr, hi, rfl⟩ := needRgOneImmZero_ok e
    exact ⟨rfl, by simp [encode, hop h, hr, hi]⟩
  · next h => obtain ⟨hr, rfl⟩ := needRgZero_ok e; exact ⟨rfl, by simp [encode, hop h, hr]⟩
  · cases e

/-- Settles O8: the operation's word has the five fields of the word it was read from. -/
theorem encodeOfDecodeIsIdentity : Obligations.EncodeOfDecodeIsIdentity := by
  intro w i e
  obtain ⟨p, hp, hz, e⟩ := decode_ok e
  obtain ⟨hwf, henc⟩ := encode_of_decodeOp e
  exact ⟨hwf, henc.trans
    (word_ext (by simp) (by simp [hp]) (by simp) (by simp [hz]) (by simp))⟩

/-! ## The words that do not decode (rule R85) -/

theorem bit_toNat_eq_one {b : BitVec 1} (h : b ≠ 0#1) : b.toNat = 1 := by
  rw [(BitVec.eq_zero_or_eq_one b).resolve_left h]; rfl

theorem needImmZero_error_iff {w : Word} {i : Instr} :
    (∃ e, needImmZero w i = .error e) ↔ (immField w).toNat ≠ 0 := by
  unfold needImmZero
  split
  · next h => simp [h]
  · next h => simpa using (BitVec.toNat_ne_iff_ne (n := 8)).2 h

theorem needRgZero_error_iff {w : Word} {i : Instr} :
    (∃ e, needRgZero w i = .error e) ↔ (rgField w).toNat = 1 := by
  unfold needRgZero
  split
  · next h => simp [h]
  · next h => simp [bit_toNat_eq_one h]

theorem needRgOneImmZero_error_iff {w : Word} {i : Instr} :
    (∃ e, needRgOneImmZero w i = .error e) ↔
      (rgField w).toNat = 0 ∨ (immField w).toNat ≠ 0 := by
  unfold needRgOneImmZero
  split
  · next h => simp [needImmZero_error_iff, h]
  · next h => simp [(BitVec.eq_zero_or_eq_one _).resolve_right h]

/-- The conditions of R85 on the `rg` and the `imm8` of a word of row `op`. -/
def RowRejects (op rg imm : Nat) : Prop :=
  ((op = 2 ∨ op = 3 ∨ op = 5 ∨ op = 6) ∧ imm ≠ 0) ∨
    ((op = 4 ∨ op = 7) ∧ rg = 1) ∨ ((op = 5 ∨ op = 6) ∧ rg = 0)

theorem decodeOp_error_iff {w : Word} {p : Port} (h : (opField w).toNat < 8) :
    (∃ e, decodeOp w p = .error e) ↔
      RowRejects (opField w).toNat (rgField w).toNat (immField w).toNat := by
  unfold decodeOp RowRejects
  split
  · next ho => simp [ho]
  · next ho => simp [ho]
  · next ho => simp [ho, needImmZero_error_iff]
  · next ho => simp [ho, needImmZero_error_iff]
  · next ho => simp [ho, needRgZero_error_iff]
  · next ho => simp [ho, needRgOneImmZero_error_iff, or_comm]
  · next ho => simp [ho, needRgOneImmZero_error_iff, or_comm]
  · next ho => simp [ho, needRgZero_error_iff]
  · -- no other code is below 8
    grind

/-- Code 3 names no port (rule R76). -/
theorem portOfCode_eq_none_iff {c : BitVec 2} : portOfCode c = none ↔ c.toNat = 3 := by
  revert c; decide

/-- What the decoder rejects, condition by condition, in the order in which it tests them. -/
theorem decode_error_iff (w : Word) :
    (∃ e, decode w = .error e) ↔
      8 ≤ (opField w).toNat ∨ (portField w).toNat = 3 ∨ (zField w).toNat = 1 ∨
        RowRejects (opField w).toNat (rgField w).toNat (immField w).toNat := by
  unfold decode
  split
  · next hop => exact iff_of_true ⟨_, rfl⟩ (.inl hop)
  · next hop =>
    split
    · next hp => exact iff_of_true ⟨_, rfl⟩ (.inr (.inl (portOfCode_eq_none_iff.1 hp)))
    · next p hp =>
      have hport : (portField w).toNat ≠ 3 := fun h => by simp [portOfCode_eq_none_iff.2 h] at hp
      split
      · next hz => simp [hop, hport, hz, decodeOp_error_iff (Nat.not_le.1 hop)]
      · next hz => exact iff_of_true ⟨_, rfl⟩ (.inr (.inr (.inl (bit_toNat_eq_one hz))))

/-- Settles O6: the decoder's tests, with each field read by division. -/
theorem decodeRejectsExactlyIllegalWords : Obligations.DecodeRejectsExactlyIllegalWords := by
  intro w
  simpa only [opField_toNat, portField_toNat, rgField_toNat, zField_toNat, immField_toNat,
    RowRejects] using decode_error_iff w

end Sys2Proof
end

section
/-! PROOFS. What a step does with the turn it takes, one lemma for each kind of turn; words that are
refused as illegal, and the word placed for the next step (30_encoding.md rules R79, R83, R85;
20_memory.md rule R56; 00_scope.md rule R14). -/

namespace Sys2Proof.Machine

/-! ## Which words an interface takes (rules R79, R85) -/

theorem accepted_of_decode {f : Iface} {w : Word} {i : Instr} (e : decode w = .ok i)
    (hf : homeIface i = f) : accepted f w = some i := by
  simp [accepted, e, hf]

theorem accepted_eq_none {f : Iface} {w : Word}
    (h : (∃ e, decode w = .error e) ∨ ∃ i, decode w = .ok i ∧ homeIface i ≠ f) :
    accepted f w = none := by
  obtain ⟨e, he⟩ | ⟨i, hi, hf⟩ := h
  · simp [accepted, he]
  · simp [accepted, hi, hf]

/-- Settles O11: the cases of the two tables, and the operation word as the abstract operation. -/
theorem interfaceNamesTheIssuer : Obligations.InterfaceNamesTheIssuer :=
  ⟨fun _ _ => rfl, fun _ _ => rfl, fun _ => rfl, fun _ => rfl, fun _ _ => rfl, fun _ => rfl,
    fun _ => rfl, fun _ _ => rfl, rfl, fun _ => rfl, exec_eq_performAs⟩

/-! ## An agent's own turn -/

theorem mainTurn_of_op {s : State} {op : InFlight} (h : s.mainOp = some op) :
    mainTurn s = continueOp op s := by simp only [mainTurn, h]

theorem mainTurn_of_idle {s : State} (h : s.mainOp = none) : mainTurn s = .next (loopTurn s) := by
  simp only [mainTurn, h]

theorem harnessTurn_of_idle {s : State} {x : Role} (h : s.harnessOps.get x = none) :
    harnessTurn x s = .next s := by simp only [harnessTurn, h]

/-! ## The turn a step takes (log entry 1) -/

section Turns
variable {s : State} {c : Config.Entry} {rest : List Turn} (hc : s.block.cfg = some c)
include hc

/-- A word presented to an idle agent is served whole. -/
theorem step_request {f : Iface} {w : Word} (ha : s.agenda = .request f w :: rest)
    (hidle : f = .mainLoop → s.mainOp = none) : step s = serve f w { s with agenda := rest } :=
  step_turn hc ha (State.waitsFor_request hidle)

theorem step_abstract {a : Agent} {i : Instr} (ha : s.agenda = .abstract a i :: rest)
    (hidle : s.opOf a = none) : step s = performAs a i { s with agenda := rest } :=
  step_turn hc ha (State.waitsFor_idle rfl hidle)

theorem step_issue {w : Word} (ha : s.agenda = .issue w :: rest) (hidle : s.mainOp = none) :
    step s = .next (issueWord w { s with agenda := rest }) :=
  step_turn hc ha (State.waitsFor_idle (a := .main) rfl (by simp [hidle]))

/-- MAIN moves on its own turn, and when no turn is left. -/
theorem step_mainTurn (ha : s.agenda = .main :: rest ∨ s.agenda = [] ∧ rest = []) :
    step s = mainTurn { s with agenda := rest } := by
  obtain ha | ⟨ha, rfl⟩ := ha
  · exact step_turn hc ha rfl
  · have hs : { s with agenda := [] } = s := by rw [← ha]
    simp only [hs, step, machineStep, hc, nextTurn, ha]

end Turns

/-- Settles O10: the interface takes no such word, so its agent is answered `ILLEGAL`. -/
theorem illegalWordOnlyAnswered : Obligations.IllegalWordOnlyAnswered := by
  intro s c f w rest hc ha hidle hw
  rw [step_request hc ha hidle, serve, accepted_eq_none hw]
  rfl

/-- Settles O9: one lemma for each kind of turn. -/
theorem stepRunsDecodedOperation : Obligations.StepRunsDecodedOperation := by
  intro s c rest hc u answered
  refine ⟨fun f w i ha e hf hidle => ?request, fun a i ha hidle => step_abstract hc ha hidle,
    fun w i ha hidle e hf => ?issue, fun w ha hidle hw => ?illegal, fun x i ha hidle => ?begin,
    fun ha => ?main, fun x ha => ?micro⟩
  case request => rw [step_request hc ha hidle, serve, accepted_of_decode e hf]
  case issue =>
    rw [step_issue hc ha hidle, issueWord, accepted_of_decode e hf]
    obtain ⟨m, hm, hmay, h⟩ | ⟨hmay, h⟩ := issueOp_cases .harness i u
    · exact ⟨fun _ => ⟨m, hm, congrArg _ h⟩, fun h' => absurd (hmay.symm.trans h') nofun⟩
    · exact ⟨fun h' => absurd (hmay.symm.trans h') nofun, fun _ => congrArg _ h⟩
  case illegal =>
    rw [step_issue hc ha hidle, issueWord, accepted_eq_none hw]
    rfl
  case begin =>
    have hbegin : step s = .next (beginOp x i u) := by
      have h := step_begin (i := i) rest hc hidle
      rwa [← ha] at h
    rw [hbegin]
    refine ⟨fun hmay => ?_, fun hmay => congrArg _ (beginOp_refused hmay)⟩
    obtain ⟨m, hm⟩ := firstMicro_of_harness hmay
    exact ⟨m, hm, congrArg _ (beginOp_allowed hmay hm)⟩
  case main =>
    rw [step_mainTurn hc ha]
    exact ⟨fun op hop => mainTurn_of_op hop, fun hop => mainTurn_of_idle hop⟩
  case micro =>
    exact ⟨fun m hm => step_harnessMicro hc ha hm,
      fun hm => (step_turn hc ha rfl).trans (harnessTurn_of_idle hm)⟩

/-! ## The word placed for the next step (log entry 12) -/

@[simp] theorem tableWord_toNat (w : Word) : tableWord 16 w.toNat = w := by
  simp [tableWord, Nat.mod_eq_of_lt w.isLt]

/-- Boot leaves an entry selected (70_reset_and_hazards.md rule R207). -/
theorem exists_booted_cfg (s : State) : ∃ c, (booted s).block.cfg = some c := by
  cases hc : s.block.cfg with
  | none => exact ⟨cfgSelect s.params.selCode, by simp only [booted, hc]; rfl⟩
  | some c => exact ⟨c, by simp only [booted, hc]⟩

@[simp] theorem State.idleFor_block (s : State) (f : Iface) : (s.idleFor f).block = s.block := by
  cases f <;> rfl

theorem wordIface_of_decode {w : Word} {i : Instr} (e : decode w = .ok i) :
    wordIface w = homeIface i := by
  simp only [wordIface, e]

/-- Settles O12: the placed word stands first on the agenda, on its own interface, which is idle. -/
theorem placedWordRunsNext : Obligations.PlacedWordRunsNext := by
  intro s w i e
  obtain ⟨c, hc⟩ := exists_booted_cfg s
  have hstep : step (placeWord s w) =
      serve (wordIface w) w { (booted s).idleFor (wordIface w) with agenda := s.agenda } :=
    step_request (c := c) (by simpa [placeWord] using hc) rfl
      (fun hf => by simp only [placeWord, hf]; rfl)
  have hf := wordIface_of_decode e
  rw [State.withFetchWord, tableWord_toNat, hstep, serve, accepted_of_decode e hf.symm, hf]

end Sys2Proof.Machine
end

section
/-! PROOFS. The bytes of the error frames (30_encoding.md rule R74, 43_environment_software.md rule R160,
log entry 18). -/

namespace Sys2Proof.Machine

/-- The second terminator stands at the end of the frame (rule R160). -/
theorem errorFrame_two (text : List Byte) :
    errorFrame .two text = errorFrame .one text ++ [Config.etx] := by
  simp [errorFrame, etxBytes]

/-- Settles O53: the two frames with one terminator, evaluated, and the second terminator. -/
theorem errorFrameBytes : Obligations.ErrorFrameBytes :=
  ⟨rfl, rfl, errorFrame_two⟩

end Sys2Proof.Machine
end

section
/-! PROOFS. First in, first out: what each kind of turn adds to the histories of a ring and to its content
(40_ringbuffer.md rules R108, R111, R113). -/

namespace Sys2Proof.Machine

/-! ## The histories and the content of a ring -/

@[simp] theorem accepts_append (r : RingId) (l l' : List Answer) :
    accepts r (l ++ l') = accepts r l ++ accepts r l' := List.flatMap_append

@[simp] theorem retires_append (r : RingId) (l l' : List Answer) :
    retires r (l ++ l') = retires r l ++ retires r l' := List.flatMap_append

@[simp] theorem accepts_nil (r : RingId) : accepts r [] = [] := rfl
@[simp] theorem retires_nil (r : RingId) : retires r [] = [] := rfl

@[simp] theorem accepts_singleton (r : RingId) (e : Answer) : accepts r [e] = acceptedByte r e :=
  List.flatMap_singleton ..

@[simp] theorem retires_singleton (r : RingId) (e : Answer) : retires r [e] = retiredBytes r e :=
  List.flatMap_singleton ..

/-- The answers `log` account for what changed between the blocks `k` and `k'`: the bytes of each ring with
those accepted behind them are the bytes returned with those of the ring now behind them. -/
def Flows (k k' : Block) (log : List Answer) : Prop :=
  ∀ r, k.content r ++ accepts r log = retires r log ++ k'.content r

theorem FifoInv.flows {s t : State} {log : List Answer} (hs : FifoInv s)
    (ha : t.answers = s.answers ++ log) (hf : Flows s.block t.block log) : FifoInv t := by
  intro r
  calc
    accepts r t.answers = retires r s.answers ++ (s.block.content r ++ accepts r log) := by
      rw [ha, accepts_append, hs r, List.append_assoc]
    _ = retires r t.answers ++ t.block.content r := by
      rw [hf r, ha, retires_append, List.append_assoc]

/-! ## Answers that report no byte, one accepted, or some returned -/

/-- The answer reports no byte as accepted and none as returned. -/
def Answer.reportsNothing (e : Answer) : Prop := ∀ r, acceptedByte r e = [] ∧ retiredBytes r e = []

/-- Only the acceptance of a write and the response of a read report bytes. -/
theorem Answer.reportsNothing_of_resp {e : Answer} (hok : e.resp ≠ .ok true)
    (hread : ∀ n bs, e.resp ≠ .read n bs) : e.reportsNothing := by
  intro r
  constructor
  · unfold acceptedByte
    split
    · next h => exact absurd h hok
    · rfl
  · unfold retiredBytes
    split
    · next h => exact absurd h (hread _ _)
    · rfl

theorem frameResponse_reportsNothing (a : Agent) (op : Option Instr) (o : Option (List Byte))
    (c : Option Condition) : (⟨a, op, frameResponse o, c⟩ : Answer).reportsNothing := by
  cases o <;> exact Answer.reportsNothing_of_resp nofun nofun

section Flow

variable {k k' : Block} {r : RingId} {a : Agent} {c : Option Condition}

theorem Flows.silent (h : ∀ r, k'.content r = k.content r) : Flows k k' [] := fun r => by simp [h]

theorem Flows.nothing {e : Answer} (he : e.reportsNothing) (h : ∀ r, k'.content r = k.content r) :
    Flows k k' [e] := fun r => by simp [h, (he r).1, (he r).2]

theorem Flows.accept {b : Byte} (h : k'.content r = k.content r ++ [b])
    (hne : ∀ r', r' ≠ r → k'.ring r' = k.ring r') :
    Flows k k' [⟨a, some (.rbWrite r b), .ok true, c⟩] := by
  intro r'
  by_cases e : r' = r
  · subst e; simp [acceptedByte, retiredBytes, h]
  · simp [acceptedByte, retiredBytes, Ne.symm e, Block.content_congr (hne r' e)]

theorem Flows.retire {m n : Nat} {bs : List Byte} (h : k.content r = bs ++ k'.content r)
    (hne : ∀ r', r' ≠ r → k'.ring r' = k.ring r') :
    Flows k k' [⟨a, some (.rbRead r m), .read n bs, c⟩] := by
  intro r'
  by_cases e : r' = r
  · subst e; simp [acceptedByte, retiredBytes, h]
  · simp [acceptedByte, retiredBytes, Ne.symm e, Block.content_congr (hne r' e)]

/-! ## The operations run whole -/

/-- A read returns the first `m` bytes of the content and leaves the rest (rule R108). -/
theorem rbRead_content (hk : k.Inv) {m : Nat} {bs : List Byte} (e : rbRead r m k = .ok (k', bs)) :
    bs = (k.content r).take m ∧ k'.content r = (k.content r).drop m := by
  have hitems := (hk.1 r).2.1
  cases (rbRead_eq m hitems).symm.trans e
  refine ⟨rfl, ?_⟩
  rw [setHead_content (Nat.min_le_right _ _) hitems, ← hk.content_length r]
  rcases Nat.le_total m (k.content r).length with h | h
  · rw [Nat.min_eq_left h]
  · rw [Nat.min_eq_right h, List.drop_length, List.drop_of_length_le h]

/-- RB.WRITE: the byte it appends is the one its answer reports. -/
theorem Flows.rbWrite (hk : k.Inv) (b : Byte) :
    Flows k (rbWrite r b k).1 [⟨a, some (.rbWrite r b), .ok (rbWrite r b k).2, c⟩] := by
  by_cases hf : k.cnt r = Config.capacity
  · rw [rbWrite_full hf]
    exact .nothing (Answer.reportsNothing_of_resp nofun nofun) fun _ => rfl
  · have hok : (Machine.rbWrite r b k).2 = true := by rw [rbWrite_room hf]
    rw [hok]
    exact .accept (rbWrite_room_content (hk.1 r) hf) fun _ => rbWrite_ring_ne b k

/-- RB.READ: the bytes it drops are those its answer reports. -/
theorem Flows.rbRead (hk : k.Inv) {m m' n : Nat} {bs : List Byte} (e : rbRead r m k = .ok (k', bs)) :
    Flows k k' [⟨a, some (.rbRead r m'), .read n bs, c⟩] := by
  obtain ⟨hbs, hcontent⟩ := rbRead_content hk e
  obtain ⟨-, rfl, -⟩ := rbRead_ok e
  refine .retire ?_ fun _ => Block.ring_setHead_ne k _
  rw [hbs, hcontent, List.take_append_drop]

theorem Flows.congr {k'' : Block} {log : List Answer} (hf : Flows k k' log)
    (h : ∀ r, k''.ring r = k'.ring r) : Flows k k'' log := fun r => by
  rw [hf r, Block.content_congr (h r)]

/-- An operation of any agent run whole. -/
theorem performAs_flows {a : Agent} {i : Instr} {s t : State} (hk : s.block.Inv)
    (e : performAs a i s = .next t) :
    ∃ log, t.answers = s.answers ++ log ∧ Flows s.block t.block log := by
  rcases performAs_cases e with ⟨-, h⟩ | ⟨r, b, -, -, h⟩ | ⟨r, m, k, bs, -, -, hr, h⟩ |
    ⟨r, ⟨-, h⟩ | ⟨-, h⟩⟩ | ⟨p, k, bs, -, -, -, hr, h⟩ | ⟨p, -, -, h⟩ |
    ⟨p, raw, q, o, -, -, -, h⟩ <;> subst h <;> refine ⟨_, rfl, ?_⟩
  · exact .nothing (Answer.reportsNothing_of_resp nofun nofun) fun _ => rfl
  · exact .rbWrite hk b
  · exact .rbRead hk hr
  · exact .nothing (Answer.reportsNothing_of_resp nofun nofun) fun _ => rfl
  · exact .nothing (Answer.reportsNothing_of_resp nofun nofun) fun _ => rfl
  · exact (Flows.rbRead hk hr).congr fun r => sendByte_ring ..
  · exact .nothing (Answer.reportsNothing_of_resp nofun nofun) fun r =>
      Block.content_congr (releaseDriver_ring ..)
  · exact .nothing (frameResponse_reportsNothing _ _ _ _) fun _ => rfl

/-! ## The operations taken by micro-steps -/

/-- A micro-step that does not end its operation leaves every content: only W4 writes, to the free slot that
`tail` names. -/
theorem microStep_more_content {inv : Bool} {m m' : Micro} {h : Option RingId} (hm : MicroInv h a k m)
    (e : microStep inv m k = .more m' k') (r : RingId) : k'.content r = k.content r := by
  rcases MicroLeads.cases (.inl ⟨m', e⟩) with rfl | ⟨r', b, i, t, rfl, rfl⟩ | ⟨r', b, i, t, rfl, -⟩ |
    ⟨r', j, i, n, bs, rfl, -⟩ | ⟨p, raw, q, -, rfl⟩
  · rfl
  · obtain ⟨-, rfl, hlt, hle⟩ := hm
    by_cases hr : r = r'
    · subst hr
      rw [Block.content, Block.ring_writeSlot]
      exact Ring.content_writeTail b (lt_of_le_of_lt hle hlt)
    · exact Block.content_congr (Block.ring_writeSlot_ne k _ b hr)
  · cases e
  · cases e
  · rfl

/-- The micro-step that ends an operation: the byte W5 appends and the bytes R5 drops are those that the
answer reports. -/
theorem microStep_done_flows {inv : Bool} {m : Micro} {h : Option RingId} {a' : Agent}
    {resp : Response} {x : Option Condition} (hk : k.Inv) (hm : MicroInv h a k m)
    (e : microStep inv m k = .done resp x k') :
    Flows k k' [⟨a', some (microInstr m), resp, x⟩] := by
  cases m with
  | w3 r b i t =>
    simp only [microStep] at e
    split at e <;> cases e
    exact .nothing (Answer.reportsNothing_of_resp nofun nofun) fun _ => rfl
  | w5 r b i t =>
    cases e
    obtain ⟨-, rfl, hlt, hle, hb⟩ := hm
    refine .accept ?_ fun _ => Block.ring_setTail_ne k _
    rw [Block.content, Block.ring_setTail]
    exact Ring.content_moveTail (lt_of_le_of_lt hle hlt) hb
  | r5 r j i n bs =>
    cases e
    obtain ⟨-, rfl, hn, -, hbs⟩ := hm
    refine .retire ?_ fun _ => Block.ring_setHead_ne k _
    rw [setHead_content hn (hk.1 r).2.1, hbs, List.take_append_drop]
  | r4 r j i n bs => simp only [microStep, readOne] at e; split at e <;> cases e
  | c2 | f2 => cases e; exact .nothing (Answer.reportsNothing_of_resp nofun nofun) fun _ => rfl
  | feed p raw =>
    simp only [microStep, feedMicro] at e
    split at e
    · cases e
    · next k₁ o hf =>
      cases e
      obtain ⟨q, -, rfl⟩ := feedBlock_ok hf
      exact .nothing (frameResponse_reportsNothing _ _ _ _) fun _ => rfl
  | w1 | w2 | w4 | r1 | r2 | r3 | c1 | f1 => cases e

end Flow

/-! ## Every kind of turn -/

theorem refuse_flows (a : Agent) (i : Instr) (s : State) :
    Flows s.block s.block [⟨a, some i, .refused, some .refused⟩] :=
  .nothing (Answer.reportsNothing_of_resp nofun nofun) fun _ => rfl

theorem continueOp_flows {op : InFlight} {s t : State} (hs : s.Inv) (hm : s.mainOp = some op)
    (e : continueOp op s = .next t) :
    ∃ log, t.answers = s.answers ++ log ∧ Flows s.block t.block log := by
  obtain ⟨hk, ho, -⟩ := hs
  have hop := ho .main op.micro (by simp [hm])
  rcases continueOp_cases e with ⟨m, k, h, rfl⟩ | ⟨resp, c, k, h, -, rfl⟩
  · exact ⟨[], (List.append_nil _).symm, .silent (microStep_more_content hop h)⟩
  · rw [finishOp_block, finishOp_answers]
    exact ⟨_, rfl, microStep_done_flows hk hop h⟩

theorem continueHarness_flows {x : Role} {m : Micro} {s t : State} (hs : s.Inv)
    (hm : s.harnessOps.get x = some m) (e : continueHarness x m s = .next t) :
    ∃ log, t.answers = s.answers ++ log ∧ Flows s.block t.block log := by
  obtain ⟨hk, ho, -⟩ := hs
  have hop := ho (.harness x) m hm
  rcases continueHarness_cases e with ⟨m', k, h, rfl⟩ | ⟨resp, c, k, h, rfl⟩
  · exact ⟨[], (List.append_nil _).symm, .silent (microStep_more_content hop h)⟩
  · exact ⟨_, rfl, microStep_done_flows hk hop h⟩

/-- A turn of any agent. -/
theorem TurnResult.flows {s t : State} {a : Agent} (h : TurnResult s a t) (hs : s.Inv) :
    ∃ log, t.answers = s.answers ++ log ∧ Flows s.block t.block log := by
  have unchanged : Flows s.block s.block [] := .silent fun _ => rfl
  cases h with
  | illegal u f hu =>
    obtain ⟨l, rfl⟩ := hu.exists_agenda
    exact ⟨_, rfl, .nothing (Answer.reportsNothing_of_resp nofun nofun) fun _ => rfl⟩
  | perform u t a i hu hm hsys hword e =>
    obtain ⟨l, rfl⟩ := hu.exists_agenda
    obtain ⟨hk, -, -⟩ := hs
    exact performAs_flows (s := { s with agenda := l }) hk e
  | issue u o i hu =>
    obtain ⟨l, rfl⟩ := hu.exists_agenda
    rcases issueOp_cases o i { s with agenda := l } with ⟨m, -, -, h⟩ | ⟨-, h⟩ <;> rw [h]
    · exact ⟨[], (List.append_nil _).symm, unchanged⟩
    · rw [State.deliver_answers, State.deliver_block]
      exact ⟨_, rfl, refuse_flows .main i s⟩
  | control u hu =>
    obtain ⟨l, rfl⟩ := hu.exists_agenda
    exact ⟨[], (List.append_nil _).symm, unchanged⟩
  | micro u t op hu hm e =>
    obtain ⟨l, rfl⟩ := hu.exists_agenda
    exact continueOp_flows (s := { s with agenda := l }) hs hm e
  | begin u x i hu =>
    obtain ⟨l, rfl⟩ := hu.exists_agenda
    rcases beginOp_cases x i { s with agenda := l } with ⟨m, -, -, h⟩ | h <;> rw [h]
    · exact ⟨[], (List.append_nil _).symm, unchanged⟩
    · exact ⟨_, rfl, refuse_flows (.harness x) i s⟩
  | harnessMicro u t x m hu hm hsys hword e =>
    obtain ⟨l, rfl⟩ := hu.exists_agenda
    exact continueHarness_flows (s := { s with agenda := l }) hs hm e
  | harnessIdle u x hu =>
    obtain ⟨l, rfl⟩ := hu.exists_agenda
    exact ⟨[], (List.append_nil _).symm, unchanged⟩

/-- Settles O44: boot leaves rings and answers, and what a turn answers accounts for what it does to the
rings. -/
theorem ringsAreFirstInFirstOut : Obligations.RingsAreFirstInFirstOut := by
  intro s t hs hfifo e
  rcases step_cases e with ⟨-, -, rfl⟩ | ⟨_, a, -, -, h⟩
  · exact hfifo
  · obtain ⟨log, ha, hf⟩ := h.flows hs
    exact hfifo.flows ha hf

end Sys2Proof.Machine
end

section
/-! PROOFS. The four ring operations run whole, by an agent with the role and by one without it, as an
abstract operation and as MAIN's word (40_ringbuffer.md rules R101 to R110). -/

namespace Sys2Proof.Machine

/-! ## The roles the operations need (rules R110, R135, R171) -/

section Roles

variable (s : State) (a : Agent) (r : RingId) (p : Port)

@[simp] theorem State.mayIssue_rbWrite (b : Byte) :
    s.mayIssue a (.rbWrite r b) = decide (a = s.producer r) := rfl

@[simp] theorem State.mayIssue_rbRead (m : Nat) :
    s.mayIssue a (.rbRead r m) = decide (a = s.consumer r) := rfl

@[simp] theorem State.mayIssue_rbCount :
    s.mayIssue a (.rbCount r) = (decide (a = s.producer r) || decide (a = s.consumer r)) := rfl

@[simp] theorem State.mayIssue_rbIsfull :
    s.mayIssue a (.rbIsfull r) = (decide (a = s.producer r) || decide (a = s.consumer r)) := rfl

@[simp] theorem State.mayIssue_irqRx (b : Byte) : s.mayIssue a (.irqRx p b) =
    (decide (a = .irq p) && decide (a = s.producer (rxRing p))) := rfl

@[simp] theorem State.mayIssue_irqTx : s.mayIssue a (.irqTx p) =
    (decide (a = .irq p) && decide (a = s.consumer (txRing p))) := rfl

@[simp] theorem State.mayIssue_irqTxc : s.mayIssue a (.irqTxc p) =
    (decide (a = .irq p) && decide (a = s.consumer (txRing p))) := rfl

@[simp] theorem State.mayIssue_fpFeed (raw : Byte) :
    s.mayIssue a (.fpFeed p raw) = decide (a = .main) := rfl

end Roles

/-- MAIN neither produces for a receive ring nor consumes from a transmit ring. -/
theorem main_ne_producer_rxRing (s : State) (p : Port) : Agent.main ≠ s.producer (rxRing p) :=
  fun e => nomatch (producer_main e).1

theorem main_ne_consumer_txRing (s : State) (p : Port) : Agent.main ≠ s.consumer (txRing p) :=
  fun e => nomatch (consumer_main e).1

/-- Settles O19: the role table read off the harness's ring, and each operation without its role. -/
theorem roleViolationsAreRefused : Obligations.RoleViolationsAreRefused := by
  intro s refusal
  have refused {a : Agent} {i : Instr} (h : s.mayIssue a i = false) :
      performAs a i s = refusal a i := performAs_refused s h
  refine ⟨fun p h => ⟨producer_system h, consumer_system h⟩,
    fun p h => ⟨producer_system h, consumer_system h⟩, fun r h => ?harness,
    fun a r b h => refused (by simpa using h), fun a r m h => refused (by simpa using h),
    fun a r h h' => ⟨refused (by simp [h, h']), refused (by simp [h, h'])⟩,
    fun a p b h => refused (by simpa [← not_and_or] using h),
    fun a p h => ⟨refused (by simpa [← not_and_or] using h),
      refused (by simpa [← not_and_or] using h)⟩,
    fun a p raw h => refused (by simpa using h), fun p b => ?write, fun p m => ?read⟩
  case harness =>
    rw [State.producer, State.consumer, h]
    exact ⟨producer_harness r, consumer_harness r⟩
  case write => exact refused (i := .rbWrite (rxRing p) b) (by simpa using main_ne_producer_rxRing s p)
  case read => exact refused (i := .rbRead (txRing p) m) (by simpa using main_ne_consumer_txRing s p)

/-! ## An operation of the main-loop interface, as an abstract operation and as MAIN's word -/

theorem performAs_and_exec {a : Agent} {i : Instr} {s : State}
    {x : Host.Outcome State Fault Refusal} (hi : homeIface i = .mainLoop)
    (e : performAs a i s = x) : performAs a i s = x ∧ (a = .main → exec i s = x) := by
  refine ⟨e, ?_⟩
  rintro rfl
  rw [exec_eq_performAs, issuer, hi]
  exact e

/-! ## RB.WRITE (rules R101, R102) -/

/-- The whole change of the block by an accepted RB.WRITE. -/
theorem rbWrite_room_block {r : RingId} {b : Byte} {k : Block} (h : k.cnt r ≠ Config.capacity) :
    (rbWrite r b k).1 = k.setRing r {
      head := k.head r
      tail := k.tail r + 1#8
      slots := Memory.write (k.ring r).slots (slotOf (k.tail r)) b } := by
  rw [rbWrite_room h]
  simp [Block.setTail, Block.writeSlot, Block.head]

theorem performAs_rbWrite_room {a : Agent} {r : RingId} {b : Byte} {s : State}
    (ha : a = s.producer r) (h : s.block.cnt r ≠ Config.capacity) :
    performAs a (.rbWrite r b) s =
      .next ((s.withBlock (rbWrite r b s.block).1).answer a (some (.rbWrite r b)) (.ok true) none) := by
  have hok : (rbWrite r b s.block).2 = true := by rw [rbWrite_room h]
  rw [performAs_rbWrite ha, hok]
  rfl

theorem performAs_rbWrite_full {a : Agent} {r : RingId} {b : Byte} {s : State}
    (ha : a = s.producer r) (h : s.block.cnt r = Config.capacity) :
    performAs a (.rbWrite r b) s =
      .next (s.answer a (some (.rbWrite r b)) (.ok false) (some .writeRejected)) := by
  rw [performAs_rbWrite ha, rbWrite_full h]
  rfl

/-- Settles O14: the slot write and the move of `tail` are one replacement of the ring. -/
theorem rbWriteAcceptsWhenNotFull : Obligations.RbWriteAcceptsWhenNotFull := by
  intro r b s h t
  refine performAs_and_exec rfl ((performAs_rbWrite_room rfl h).trans ?_)
  rw [rbWrite_room_block h]
  rfl

/-- Settles O15: the indices say full, so the write answers and leaves the block. -/
theorem rbWriteRejectsWhenFull : Obligations.RbWriteRejectsWhenFull :=
  fun _ _ _ h => performAs_and_exec rfl (performAs_rbWrite_full rfl h)

/-! ## RB.COUNT and RB.ISFULL (rules R105, R106, R107) -/

/-- Settles O18: the answers are `cnt` and `full`, computed from the indices. -/
theorem countAndIsFullAnswer : Obligations.CountAndIsFullAnswer := by
  intro r s a h t u
  have hcount := performAs_and_exec rfl (performAs_rbCount h)
  have hfull := performAs_and_exec rfl (performAs_rbIsfull h)
  exact ⟨hcount.1, hfull.1, fun ha => ⟨hcount.2 ha, hfull.2 ha⟩⟩

/-! ## RB.READ (rules R103, R104) -/

/-- The slot at distance `i` from an index, across the wrap (rule R24). -/
theorem slotOf_add (h : Index) (i : Nat) :
    slotOf (h + BitVec.ofNat 8 i) = (h.toNat + i) % Config.capacity := by
  simp only [slotOf, BitVec.toNat_add, BitVec.toNat_ofNat, Config.capacity]
  omega

/-- Settles O16: the bytes are the first of the content, which stand in the slots from `head` on. -/
theorem rbReadReturnsOldestBytes : Obligations.RbReadReturnsOldestBytes := by
  intro r m s hslots n
  have e := rbRead_eq m (r := r) hslots
  obtain ⟨hlen, -, hget⟩ := rbRead_ok e
  refine ⟨(s.block.content r).take m, hlen, fun i hi => ?_, performAs_and_exec rfl ?_⟩
  · rw [hget i hi, Ring.item, slotOf_add]
    rfl
  · rw [performAs_rbRead rfl e, hlen]
    rfl

/-! ## The operations as functions of the content (rule R108) -/

/-- Settles O20: under the invariant the count is the length of the content. -/
theorem ringOperationsOnContent : Obligations.RingOperationsOnContent := by
  intro s r a hk runs
  have hlen := hk.content_length r
  refine ⟨?write, ?read, fun h => ⟨⟨_, performAs_and_exec rfl (performAs_rbCount h), rfl, ?count⟩,
    ⟨_, performAs_and_exec rfl (performAs_rbIsfull h), rfl, ?isfull⟩⟩⟩
  case write =>
    rintro rfl
    rw [hlen]
    refine ⟨fun b hroom => ?_, fun b hfull =>
      ⟨_, performAs_and_exec rfl (performAs_rbWrite_full rfl hfull), rfl, rfl⟩⟩
    exact ⟨_, performAs_and_exec rfl (performAs_rbWrite_room rfl hroom.ne),
      rbWrite_room_content (hk.1 r) hroom.ne, rfl⟩
  case read =>
    rintro rfl m
    have e := rbRead_eq m (hk.1 r).2.1
    obtain ⟨-, hcontent⟩ := rbRead_content hk e
    refine ⟨_, performAs_and_exec rfl (performAs_rbRead rfl e), hcontent, ?_⟩
    rw [State.answer_answers, List.length_take]
    rfl
  case count => rw [hlen]; rfl
  case isfull => rw [hlen]; rfl

end Sys2Proof.Machine
end

section
/-! PROOFS. MAIN's operation taken micro-step by micro-step: alone it meets the operation run whole, and two
schedules in which events come between its micro-steps (40_ringbuffer.md rules R101 (c), R108, R109). -/

namespace Sys2Proof.Machine

/-! ## MAIN alone on the schedule (rule R108) -/

/-- MAIN's operation for a word from outside, on a schedule of nothing else, ends as its micro-steps on the
block alone do. -/
theorem runSteps_mainMicros {inv : Bool} {m : Micro} {k : Block} {n : Nat}
    {res : Except Fault OpEnd} (h : MicroRun inv m k n res) {c : Config.Entry} :
    ∀ s : State, s.block = k → s.block.cfg = some c → s.activeCfg.bitInvert = inv →
      s.mainOp = some ⟨m, .harness⟩ → s.agenda = [] →
      runSteps n s = opOutcome .main (microInstr m) { s with mainOp := none } res := by
  induction h with
  | done e =>
    rintro s rfl hc rfl hm ha
    exact runSteps_succ (step_done hc ha hm e rfl) rfl
  | @fault m k f e =>
    rintro s rfl hc rfl hm ha
    have hs : step s = .fault f := by simp only [step_micro hc ha hm, continueOp, e]
    simp only [runSteps, hs, opOutcome]
  | @more m m' k k' n res e _ ih =>
    rintro s rfl hc rfl hm ha
    obtain ⟨hi, hk⟩ := microStep_more_keeps e
    refine runSteps_succ (step_more hc ha hm e) ?_
    refine (ih { s with block := k', mainOp := some ⟨m', .harness⟩ } rfl (hk.trans hc)
      (by simp [State.activeCfg, hk]) rfl ha).trans ?_
    rw [hi]
    cases res <;> rfl

/-- Settles O50: the run of MAIN's micro-steps on the block ends in the outcome of the whole operation. -/
theorem microStepsMeetTheWholeOperation : Obligations.MicroStepsMeetTheWholeOperation := by
  intro s c i m hc ha hn hmay hf
  obtain ⟨n, res, hrun, hp⟩ := exists_microRun_performAs hmay hf
  have hmain : homeIface i = .mainLoop := by
    cases i with
    | irqRx | irqTx | irqTxc => cases hf
    | rbWrite | rbRead | rbCount | rbIsfull | fpFeed => rfl
  have hsteps : runSteps n { s with mainOp := some ⟨m, .harness⟩ } = exec i s := by
    rw [runSteps_mainMicros hrun { s with mainOp := some ⟨m, .harness⟩ } rfl hc rfl rfl ha,
      (performAs_and_exec hmain hp).2 rfl, firstMicro_instr hf, ← hn]
  exact ⟨fun t e => ⟨n, hsteps.trans e⟩, fun f e => ⟨n, hsteps.trans e⟩⟩

/-! ## Events between MAIN's micro-steps -/

/-- The word of an event is its handler's operation, run whole whatever MAIN is inside. -/
theorem step_eventWord {s : State} {c : Config.Entry} {p : Port} {i : Instr} {rest : List Turn}
    (hc : s.block.cfg = some c) (ha : s.agenda = .request (.event p) (encode i) :: rest)
    (hi : homeIface i = .event p) (hwf : i.wf = true) :
    step s = performAs (.irq p) i { s with agenda := rest } := by
  rw [step_request hc ha nofun, serve, accepted_of_decode (decodeOfEncodeIsIdentity i hwf) hi]
  exact exec_event hi _

/-- A step that takes an event's word, read off what the handler's operation does. -/
theorem exists_step_event {s : State} {c : Config.Entry} {p : Port} {i : Instr} {rest : List Turn}
    {k : Block} {op : Option Instr} {resp : Response} {x : Option Condition}
    (hc : s.block.cfg = some c) (ha : s.agenda = .request (.event p) (encode i) :: rest)
    (hi : homeIface i = .event p) (hwf : i.wf = true)
    (e : ∀ l, performAs (.irq p) i { s with agenda := l } =
      .next (({ s with agenda := l } : State).withBlock k |>.answer (.irq p) op resp x)) :
    ∃ u, step s = .next u ∧ u.block = k ∧ u.mainOp = s.mainOp ∧ u.params = s.params ∧
      u.agenda = rest ∧ u.answers = s.answers ++ [⟨.irq p, op, resp, x⟩] :=
  ⟨_, (step_eventWord hc ha hi hwf).trans (e rest), rfl, rfl, rfl, rfl, rfl⟩

/-- MAIN begins the operation of a word of its own, whose role it holds. -/
theorem step_issueWord {s : State} {c : Config.Entry} {i : Instr} {m : Micro} {rest : List Turn}
    (hc : s.block.cfg = some c) (ha : s.agenda = .issue (encode i) :: rest) (hn : s.mainOp = none)
    (hi : homeIface i = .mainLoop) (hwf : i.wf = true) (hmay : s.mayIssue .main i = true)
    (hf : firstMicro i = some m) :
    step s = .next { s with mainOp := some ⟨m, .harness⟩, agenda := rest } := by
  rw [step_issue hc ha hn, issueWord, accepted_of_decode (decodeOfEncodeIsIdentity i hwf) hi]
  obtain ⟨m', hf', -, h⟩ | ⟨hno, -⟩ := issueOp_cases .harness i { s with agenda := rest }
  · cases hf.symm.trans hf'
    exact congrArg _ h
  · exact nomatch hmay.symm.trans hno

/-- MAIN's turn while it is inside an operation. -/
theorem step_mainOp {s : State} {c : Config.Entry} {op : InFlight} {rest : List Turn}
    (hc : s.block.cfg = some c) (ha : s.agenda = .main :: rest) (hm : s.mainOp = some op) :
    step s = continueOp op { s with agenda := rest } :=
  (step_mainTurn hc (.inl ha)).trans (mainTurn_of_op hm)

/-- A read of one byte takes the byte at `head`. -/
theorem rbRead_one {r : RingId} {k : Block} {x : Byte} (hne : k.cnt r ≠ 0)
    (hx : k.readSlot r (k.head r) = some x) :
    rbRead r 1 k = .ok (k.setHead r (k.head r + 1#8), [x]) := by
  have hn : readCount 1 (k.tail r) (k.head r) = 1 := Nat.min_eq_left (Nat.pos_of_ne_zero hne)
  have hx' : k.readSlot r (k.head r + BitVec.ofNat 8 0) = some x := by simpa using hx
  simp only [rbRead, hn, readSlots, hx']

/-- MAIN produces for the transmit rings and the handlers consume from them, off the harness's ring. -/
theorem consumer_txRing_of_producer {s : State} {p : Port} (h : s.producer (txRing p) = .main) :
    s.consumer (txRing p) = .irq p :=
  consumer_system (producer_main h.symm).2

theorem producer_rxRing_of_consumer {s : State} {p : Port} (h : s.consumer (rxRing p) = .main) :
    s.producer (rxRing p) = .irq p :=
  producer_system (consumer_main h.symm).2

/-- Runs follow one another. -/
theorem runSteps_add {n m : Nat} {s t : State} {x : Host.Outcome State Fault Refusal}
    (h : runSteps n s = .next t) (h' : runSteps m t = x) : runSteps (m + n) s = x := by
  induction n generalizing s with
  | zero => cases h; exact h'
  | succ n ih =>
    simp only [runSteps] at h
    split at h
    · next e => exact runSteps_succ e (ih h)
    · cases h
    · cases h

/-- MAIN begins a write and reads `head`: the issue and W1 (rule R101). -/
theorem runSteps_issueWrite {s : State} {c : Config.Entry} {r : RingId} {b : Byte}
    {rest : List Turn} (hc : s.block.cfg = some c) (hn : s.mainOp = none)
    (hprod : s.producer r = .main)
    (ha : s.agenda = .issue (encode (.rbWrite r b)) :: .main :: rest) :
    runSteps 2 s = .next
      { s with mainOp := some ⟨.w2 r b (s.block.head r), .harness⟩, agenda := rest } := by
  have hissue := step_issueWord hc ha hn rfl rfl (by simp [hprod]) rfl
  refine runSteps_succ hissue (runSteps_succ ?_ rfl)
  exact step_mainOp (s := { s with mainOp := some ⟨.w1 r b, .harness⟩, agenda := .main :: rest })
    hc rfl rfl

/-- W2 and W3 of a write whose `head` says full: it is rejected, whatever `head` is by now. -/
theorem runSteps_rejectWrite {s : State} {c : Config.Entry} {r : RingId} {b : Byte} {h : Index}
    {rest : List Turn} (hc : s.block.cfg = some c) (hm : s.mainOp = some ⟨.w2 r b h, .harness⟩)
    (ha : s.agenda = .main :: .main :: rest) (hfull : indexFull (s.block.tail r) h = true) :
    runSteps 2 s = .next (({ s with mainOp := none, agenda := rest } : State).answer .main
      (some (.rbWrite r b)) (.ok false) (some .writeRejected)) := by
  refine runSteps_succ (step_mainOp hc ha hm) (runSteps_succ (Eq.trans (step_mainOp
    (s := { s with mainOp := some ⟨.w3 r b h (s.block.tail r), .harness⟩, agenda := .main :: rest })
    hc rfl rfl) ?_) rfl)
  simp only [continueOp, microStep, hfull, if_true]
  rfl

/-- Settles O51: the issue and W1, the event, W2 and W3, which compares with the `head` of W1. -/
theorem staleHeadRejectsWrite : Obligations.StaleHeadRejectsWrite := by
  intro s c p b x hc hn hprod hfull hx ha
  have hread := rbRead_one (hfull.trans_ne (by decide)) hx
  have hbegin := runSteps_issueWrite hc hn hprod ha
  obtain ⟨u, hstep, hblock, hop, -, hagenda, hanswers⟩ := exists_step_event (s := { s with
      mainOp := some ⟨.w2 (txRing p) b (s.block.head (txRing p)), .harness⟩
      agenda := [.request (.event p) (encode (.irqTx p)), .main, .main] }) hc rfl rfl rfl
    fun _ => performAs_irqTx (consumer_txRing_of_producer hprod) hread
  have hcfg : u.block.cfg = some c := by simpa [hblock] using hc
  have htail : u.block.tail (txRing p) = s.block.tail (txRing p) := by simp [hblock, Block.tail]
  have hend := runSteps_rejectWrite hcfg hop hagenda (by rw [htail]; exact indexFull_iff.2 hfull)
  refine ⟨_, runSteps_add (runSteps_add (m := 1) hbegin (runSteps_succ hstep rfl)) hend, rfl, ?_, ?_⟩
  · have hcnt : u.block.cnt (txRing p) =
        indexDiff (s.block.tail (txRing p)) (s.block.head (txRing p) + 1#8) := by
      rw [hblock, Block.cnt, sendByte_ring, Block.ring_setHead]
      rfl
    refine hcnt.trans ((indexDiff_add_head (n := 1) ?_).trans (congrArg (· - 1) hfull))
    exact (by decide : 1 ≤ 128).trans_eq hfull.symm
  · rw [State.answer_answers, hanswers, List.append_assoc]
    rfl

/-! ## A read that more bytes arrive behind (rule R109) -/

/-- A read past R1 takes the bytes that were queued at R1, whatever has been queued behind them. -/
theorem reaches_readFromR2 {s : State} {c : Config.Entry} {r : RingId} {m : Nat} {t : Index}
    (hc : s.block.cfg = some c) (ha : s.agenda = [])
    (hm : s.mainOp = some ⟨.r2 r m t, .harness⟩) (hr : (s.block.ring r).Inv)
    (hle : readCount m t (s.block.head r) ≤ s.block.cnt r) :
    let n := readCount m t (s.block.head r)
    ∃ u, Reaches s u ∧ u.mainOp = none ∧ u.block.content r = (s.block.content r).drop n ∧
      u.answers = s.answers ++
        [⟨.main, some (.rbRead r m), .read n ((s.block.content r).take n), none⟩] := by
  intro n
  obtain ⟨-, hitems, -⟩ := hr
  obtain ⟨j, hrun⟩ := microRun_reads s.activeCfg.bitInvert r m (s.block.head r) n s.block n []
    (by simp)
  have hslots : readSlots s.block r (s.block.head r) 0 n = .ok ((s.block.content r).take n) := by
    rw [readSlots_eq n 0 fun i hi => by simpa using hitems i (hi.trans_le hle)]
    simp only [Nat.zero_add]
    exact congrArg _ (filterMap_range_take _ n _ (fun i hi => hitems i (hi.trans_le hle)) hle)
  simp only [List.length_nil, hslots, List.nil_append, Except.map] at hrun
  exact ⟨_, ⟨j + 2, runSteps_mainMicros (.more rfl (.more rfl hrun)) s rfl hc rfl hm ha⟩, rfl,
    setHead_content hle hitems, rfl⟩

/-- IRQ.RX with room stores its byte. -/
theorem performAs_irqRx_room {p : Port} {b : Byte} {s : State}
    (hprod : s.producer (rxRing p) = .irq p) (h : s.block.cnt (rxRing p) ≠ Config.capacity) :
    performAs (.irq p) (.irqRx p b) s =
      .next ((s.withBlock (rbWrite (rxRing p) b s.block).1).answer (.irq p)
        (some (.rbWrite (rxRing p) b)) (.ok true) none) :=
  (performAs_irqRx hprod b).trans (performAs_rbWrite_room hprod.symm h)

/-- IRQ.RX of a full ring drops its byte. -/
theorem performAs_irqRx_full {p : Port} {b : Byte} {s : State}
    (hprod : s.producer (rxRing p) = .irq p) (h : s.block.cnt (rxRing p) = Config.capacity) :
    performAs (.irq p) (.irqRx p b) s =
      .next (s.answer (.irq p) (some (.rbWrite (rxRing p) b)) (.ok false) (some .writeRejected)) :=
  (performAs_irqRx hprod b).trans (performAs_rbWrite_full hprod.symm h)

/-- RB.WRITE leaves `head` and `cfg`. -/
theorem rbWrite_head_cfg (r : RingId) (b : Byte) (k : Block) :
    (rbWrite r b k).1.head r = k.head r ∧ (rbWrite r b k).1.cfg = k.cfg := by
  obtain ⟨-, hhead, -, -, hcfg⟩ := rbWrite_frame r b k
  exact ⟨hhead, hcfg⟩

/-- Settles O52: the first event fills the ring, the second meets it full, and the read goes on from the
`tail` of its R1. -/
theorem batchReadIsNotAtomic : Obligations.BatchReadIsNotAtomic := by
  intro s c p x y hc hs hcnt hm ha
  obtain ⟨hk, ho, -⟩ := hs
  have hread := ho .main (.r2 (rxRing p) 200 (s.block.tail (rxRing p))) (by simp [hm])
  have hprod := producer_rxRing_of_consumer (hread.consumer_of_read rfl).symm
  have hroom : s.block.cnt (rxRing p) ≠ Config.capacity := hcnt.trans_ne (by decide)
  obtain ⟨u, hu, hublock, huop, huparams, huagenda, huanswers⟩ :=
    exists_step_event (k := (rbWrite (rxRing p) x s.block).1) hc ha rfl rfl
      fun l => performAs_irqRx_room (s := { s with agenda := l }) hprod hroom
  obtain ⟨hhead, hcfg⟩ := rbWrite_head_cfg (rxRing p) x s.block
  have hk' := hk.rbWrite (rxRing p) x
  have hcontent := rbWrite_room_content (b := x) (hk.1 (rxRing p)) hroom
  simp only [← hublock] at hhead hcfg hk' hcontent
  have hlen : (s.block.content (rxRing p)).length = 127 := (hk.content_length _).trans hcnt
  have hfull : u.block.cnt (rxRing p) = Config.capacity := by
    rw [← hk'.content_length, hcontent, List.length_append, hlen]
    rfl
  have hprod' := (State.producer_congr huparams (rxRing p)).trans hprod
  obtain ⟨v, hv, hvblock, hvop, -, hvagenda, hvanswers⟩ :=
    exists_step_event (k := u.block) (hcfg.trans hc) huagenda rfl rfl
      fun l => performAs_irqRx_full (s := { u with agenda := l }) hprod' hfull
  have hn : readCount 200 (s.block.tail (rxRing p)) (v.block.head (rxRing p)) = 127 := by
    rw [hvblock, hhead]
    exact congrArg (min 200) hcnt
  obtain ⟨t, ht, hidle, htcontent, htanswers⟩ := reaches_readFromR2
    (by rw [hvblock]; exact hcfg.trans hc) hvagenda (hvop.trans (huop.trans hm))
    (by rw [hvblock]; exact hk'.1 _) (by rw [hn, hvblock, hfull]; decide)
  rw [hn, hvblock, hcontent] at htcontent htanswers
  refine ⟨t, .head hu (.head hv ht), hidle, ?_, ?_⟩
  · rw [htcontent, List.drop_left' hlen]
  · rw [htanswers, hvanswers, huanswers, List.take_left' hlen, List.append_assoc, List.append_assoc]
    rfl

end Sys2Proof.Machine
end

section
/-! PROOFS. The three handlers run whole (41_interrupt_gate.md rules R121, R122, R124). -/

namespace Sys2Proof.Machine

/-! ## IRQ.RX (rule R121) -/

/-- Settles O25: the RB.WRITE inside has room, and replaces its ring. -/
theorem irqRxStoresByte : Obligations.IrqRxStoresByte := by
  intro p b s hprod hroom
  rw [exec_event rfl, performAs_irqRx_room hprod hroom, rbWrite_room_block hroom]
  rfl

/-- Settles O26: the RB.WRITE inside is rejected, and its response discarded. -/
theorem irqRxDropsByteWhenFull : Obligations.IrqRxDropsByteWhenFull := by
  intro p b s hprod hfull
  have e := performAs_irqRx_full (b := b) hprod hfull
  exact ⟨_, e, rfl, performAs_sameUser e⟩

/-! ## IRQ.TX (rule R122) -/

/-- A read of an empty ring returns no byte and leaves `head`. -/
theorem rbRead_empty {r : RingId} {k : Block} (m : Nat) (h : k.cnt r = 0) :
    rbRead r m k = .ok (k, []) := by
  have hn : readCount m (k.tail r) (k.head r) = 0 := Nat.le_zero.1 ((readCount_le m _ _).trans_eq h)
  have hhead : k.head r + BitVec.ofNat 8 0 = k.head r := BitVec.add_zero _
  simp only [rbRead, hn, readSlots, hhead, Block.setHead_head]

/-- Settles O27: the read inside takes the byte at `head`, which is then sent. -/
theorem irqTxSendsOldestByte : Obligations.IrqTxSendsOldestByte := by
  intro p b s hcons hne hb
  refine ⟨_, performAs_irqTx hcons (rbRead_one hne hb), ?_, fun hp => ?_, rfl, ?_, rfl⟩
  · simp [Block.head]
  · simp [sendByte, Block.de_setDe_same _ p true hp]
  · simp [sendByte]

/-- Settles O28: the read inside returns no byte, so none is sent. -/
theorem irqTxOnEmptyRingDoesNothing : Obligations.IrqTxOnEmptyRingDoesNothing := by
  intro p s hcons hempty
  have e := performAs_irqTx hcons (rbRead_empty 1 hempty)
  exact ⟨_, e, rfl, performAs_sameUser e⟩

/-! ## IRQ.TXC (rule R124) -/

/-- Settles O29: the count inside decides whether Z2 releases the driver. -/
theorem irqTxcReleasesDriver : Obligations.IrqTxcReleasesDriver := by
  intro p s hcons
  refine ⟨_, performAs_irqTxc hcons, fun hempty hp => ?_, fun h => ?_, rfl⟩
  · simp only [State.answer_block, State.withBlock_block, releaseDriver, hempty, if_true]
    exact Block.de_setDe_same _ p false hp
  · simp only [State.answer_block, State.withBlock_block]
    obtain hne | rfl := h
    · simp only [releaseDriver, hne, if_false]
    · unfold releaseDriver
      split <;> rfl

end Sys2Proof.Machine
end

section
/-! PROOFS. What is sent on each wire is what the handler's reads of its transmit ring return
(41_interrupt_gate.md rule R123). -/

namespace Sys2Proof.Machine

/-! ## What a micro-step leaves of the block -/

section Leads

variable {inv : Bool} {m : Micro} {k k' : Block}

/-- No micro-step drives a port or sends on a wire. -/
theorem MicroLeads.de_wireOf (e : MicroLeads inv m k k') (p : Port) :
    k'.de p = k.de p ∧ k'.wireOf p = k.wireOf p := by
  rcases e.cases with rfl | ⟨r, b, i, t, -, rfl⟩ | ⟨r, b, i, t, -, rfl⟩ |
    ⟨r, j, i, n, bs, -, rfl⟩ | ⟨p', raw, q, -, rfl⟩
  · exact ⟨rfl, rfl⟩
  · exact ⟨Block.setRing_de .., Block.setRing_wireOf ..⟩
  · exact ⟨Block.setRing_de .., Block.setRing_wireOf ..⟩
  · exact ⟨Block.setRing_de .., Block.setRing_wireOf ..⟩
  · exact ⟨Block.setParser_de .., rfl⟩

/-- A micro-step changes no ring but one that its operation writes or reads. -/
theorem MicroLeads.ring_eq {r : RingId} (e : MicroLeads inv m k k')
    (hwrite : ∀ b, microInstr m ≠ .rbWrite r b) (hread : ∀ n, microInstr m ≠ .rbRead r n) :
    k'.ring r = k.ring r := by
  rcases e.cases with rfl | ⟨r', b, i, t, rfl, rfl⟩ | ⟨r', b, i, t, rfl, rfl⟩ |
    ⟨r', j, i, n, bs, rfl, rfl⟩ | ⟨p, raw, q, -, rfl⟩
  · rfl
  · exact Block.ring_writeSlot_ne k t b fun h => hwrite b (h ▸ rfl)
  · exact Block.ring_setTail_ne k _ fun h => hwrite b (h ▸ rfl)
  · exact Block.ring_setHead_ne k _ fun h => hread j (h ▸ rfl)
  · rfl

end Leads

/-! ## The bytes sent and the bytes returned -/

/-- The answers `log` report the bytes sent between the blocks `k` and `k'`: each wire is longer by what was
returned from its transmit ring. -/
def Sends (k k' : Block) (log : List Answer) : Prop :=
  ∀ p, k'.wireOf p = k.wireOf p ++ retires (txRing p) log

theorem WireInv.sends {s t : State} {log : List Answer} (hs : WireInv s)
    (ha : t.answers = s.answers ++ log) (h : Sends s.block t.block log) : WireInv t := by
  intro p
  rw [h p, hs p, ha, retires_append]

/-- Only the answer to a read of the ring reports bytes returned from it. -/
theorem retiredBytes_of_not_read {r : RingId} {e : Answer} (h : ∀ m, e.op ≠ some (.rbRead r m)) :
    retiredBytes r e = [] := by
  unfold retiredBytes
  split
  · next r' m n bs hop hresp =>
    refine if_neg fun hr => ?_
    subst hr
    exact h m hop
  · rfl

section Sending

variable {k k' : Block} {e : Answer}

theorem Sends.silent (h : ∀ p, k'.wireOf p = k.wireOf p) : Sends k k' [] :=
  fun p => (h p).trans (List.append_nil _).symm

/-- An operation that sends nothing and reads no transmit ring. -/
theorem Sends.nothing (h : ∀ p, k'.wireOf p = k.wireOf p)
    (he : ∀ p, retiredBytes (txRing p) e = []) : Sends k k' [e] := by
  intro p
  rw [h p, retires_singleton, he p, List.append_nil]

/-- A request that is refused or illegal. -/
theorem Sends.rejected (k : Block) (h : e.resp = .refused ∨ e.resp = .illegal) : Sends k k [e] := by
  have he : e.reportsNothing := by
    obtain h | h := h <;> exact Answer.reportsNothing_of_resp (by simp [h]) (by simp [h])
  exact .nothing (fun _ => rfl) fun p => (he (txRing p)).2

/-- IRQ.TX sends the one byte its read returns, if any, on its own wire (rule R122). -/
theorem Sends.irqTx {p : Port} {bs : List Byte} {a : Agent} {m n : Nat} {c : Option Condition}
    (e : rbRead (txRing p) 1 k = .ok (k', bs)) :
    Sends k (sendByte p bs k') [⟨a, some (.rbRead (txRing p) m), .read n bs, c⟩] := by
  obtain ⟨hlen, rfl, -⟩ := rbRead_ok e
  intro q
  by_cases hq : q = p
  · subst hq
    rw [sendByte_wire _ (hlen.trans_le (Nat.min_le_left ..)), Block.setHead_wireOf]
    simp [retiredBytes]
  · rw [sendByte_wire_ne _ _ hq, Block.setHead_wireOf]
    simp [retiredBytes, Ne.symm hq]

end Sending

/-- An operation run whole by the agent of its word: of the words that read, MAIN's reads no transmit
ring. -/
theorem performAs_sends {i : Instr} {s t : State} (e : performAs (issuer i) i s = .next t) :
    ∃ log, t.answers = s.answers ++ log ∧ Sends s.block t.block log := by
  rcases performAs_cases e with ⟨-, h⟩ | ⟨r, b, -, -, h⟩ | ⟨r, m, k, bs, hc, rfl, hr, h⟩ |
    ⟨r, ⟨-, h⟩ | ⟨-, h⟩⟩ | ⟨p, k, bs, -, -, -, hr, h⟩ | ⟨p, -, -, h⟩ |
    ⟨p, raw, q, o, -, -, -, h⟩ <;> subst h <;> refine ⟨_, rfl, ?_⟩
  · exact .rejected _ (.inl rfl)
  · obtain ⟨-, -, -, hport, -⟩ := rbWrite_frame r b s.block
    exact .nothing (fun p => (hport p).2.2) fun p => retiredBytes_of_not_read nofun
  · obtain ⟨-, rfl, -⟩ := rbRead_ok hr
    refine .nothing (fun p => Block.setHead_wireOf ..) fun p => retiredBytes_of_not_read fun j hj => ?_
    cases hj
    exact main_ne_consumer_txRing s p hc
  · exact .nothing (fun _ => rfl) fun p => retiredBytes_of_not_read nofun
  · exact .nothing (fun _ => rfl) fun p => retiredBytes_of_not_read nofun
  · exact .irqTx hr
  · exact .nothing (fun p => releaseDriver_wireOf ..) fun p => retiredBytes_of_not_read nofun
  · exact .nothing (fun _ => rfl) fun p => retiredBytes_of_not_read nofun

/-- MAIN's micro-steps send nothing, and MAIN reads no transmit ring. -/
theorem continueOp_sends {op : InFlight} {s t : State} (ho : opsInv s) (hm : s.mainOp = some op)
    (e : continueOp op s = .next t) :
    ∃ log, t.answers = s.answers ++ log ∧ Sends s.block t.block log := by
  have hop := ho .main op.micro (by simp [hm])
  rcases continueOp_cases e with ⟨m, k, h, rfl⟩ | ⟨resp, c, k, h, -, rfl⟩
  · exact ⟨[], (List.append_nil _).symm, .silent fun p => (MicroLeads.de_wireOf (.inl ⟨m, h⟩) p).2⟩
  · rw [finishOp_block, finishOp_answers]
    refine ⟨_, rfl, .nothing (fun p => (MicroLeads.de_wireOf (.inr ⟨resp, c, h⟩) p).2) fun p =>
      retiredBytes_of_not_read fun j hj => ?_⟩
    exact main_ne_consumer_txRing s p (hop.consumer_of_read (Option.some.inj hj))

/-- A turn of any agent, while each issues only what its interface takes. -/
theorem TurnResult.sends {s t : State} {a : Agent} (h : TurnResult s a t) (ho : opsInv s)
    (hw : s.wordsOnly) : ∃ log, t.answers = s.answers ++ log ∧ Sends s.block t.block log := by
  have unchanged : Sends s.block s.block [] := .silent fun _ => rfl
  cases h with
  | illegal u f hu =>
    obtain ⟨l, rfl⟩ := hu.exists_agenda
    exact ⟨_, rfl, .rejected _ (.inr rfl)⟩
  | perform u t a i hu hm hsys hword e =>
    obtain ⟨l, rfl⟩ := hu.exists_agenda
    rw [hword hw] at e
    exact performAs_sends (s := { s with agenda := l }) e
  | issue u o i hu =>
    obtain ⟨l, rfl⟩ := hu.exists_agenda
    rcases issueOp_cases o i { s with agenda := l } with ⟨m, -, -, h⟩ | ⟨-, h⟩ <;> rw [h]
    · exact ⟨[], (List.append_nil _).symm, unchanged⟩
    · rw [State.deliver_answers, State.deliver_block]
      exact ⟨_, rfl, .rejected _ (.inl rfl)⟩
  | control u hu =>
    obtain ⟨l, rfl⟩ := hu.exists_agenda
    exact ⟨[], (List.append_nil _).symm, unchanged⟩
  | micro u t op hu hm e =>
    obtain ⟨l, rfl⟩ := hu.exists_agenda
    exact continueOp_sends (s := { s with agenda := l }) ho hm e
  | begin u x i hu hm hsys hword => exact absurd hw hword
  | harnessMicro u t x m hu hm hsys hword => exact absurd hw hword
  | harnessIdle u x hu =>
    obtain ⟨l, rfl⟩ := hu.exists_agenda
    exact ⟨[], (List.append_nil _).symm, unchanged⟩

/-- Settles O45: what a turn sends its answers report, and with first in, first out what was sent and what is
queued is what was accepted. -/
theorem wireCarriesAcceptedBytes : Obligations.WireCarriesAcceptedBytes := by
  intro s t hs hwords hfifo hwire e
  have hwire' : WireInv t := by
    rcases step_cases e with ⟨-, -, rfl⟩ | ⟨_, a, -, -, h⟩
    · exact hwire
    · obtain ⟨-, ho, -⟩ := hs
      obtain ⟨log, ha, hsends⟩ := h.sends ho hwords
      exact hwire.sends ha hsends
  refine ⟨step_wordsOnly e hwords, hwire', fun p => ?_⟩
  rw [hwire' p, ringsAreFirstInFirstOut s t hs hfifo e (txRing p)]

end Sys2Proof.Machine
end

section
/-! PROOFS. MAIN on a schedule of events and its own moves: the operation it is inside is its position's, it
transmits to `PC` only, and the RS-485 ports stay quiet (41_interrupt_gate.md rule R125). -/

namespace Sys2Proof.Machine

/-! ## MAIN's operation and its position -/

theorem ownOp.of_idle {s : State} (h : s.mainOp = none) : ownOp s :=
  fun _ hop => nomatch h.symm.trans hop

theorem ownOp.congr {s t : State} (hs : ownOp s) (hop : t.mainOp = s.mainOp)
    (hl : t.loop = s.loop) : ownOp t := by
  intro op h
  rw [hl]
  exact hs op (hop ▸ h)

/-- While MAIN runs only its loop, the operation it is inside is the one of its position. -/
theorem TurnResult.keeps_ownOp {s t : State} {a : Agent} (h : TurnResult s a t) (hs : ownOp s)
    (hsystem : s.systemOnly) : ownOp t := by
  cases h with
  | illegal u f hu =>
    obtain ⟨l, rfl⟩ := hu.exists_agenda
    exact hs
  | perform u t a i hu hm hsys hword e =>
    obtain ⟨l, rfl⟩ := hu.exists_agenda
    obtain ⟨hop, -, hl, -, -⟩ := performAs_sameUser e
    exact hs.congr hop hl
  | issue u o i hu hm hsys hloop =>
    obtain ⟨l, rfl⟩ := hu.exists_agenda
    rcases issueOp_cases o i { s with agenda := l } with ⟨m, hf, -, h⟩ | ⟨-, h⟩ <;> rw [h]
    · have ho := hsys hsystem
      rintro op ⟨⟩
      exact ⟨ho, by rw [firstMicro_instr hf]; exact hloop ho⟩
    · exact .of_idle (by simpa using hm)
  | control u hu hm =>
    obtain ⟨l, rfl⟩ := hu.exists_agenda
    exact .of_idle hm
  | micro u t op hu hm e =>
    obtain ⟨l, rfl⟩ := hu.exists_agenda
    rcases continueOp_cases e with ⟨m, k, h, rfl⟩ | ⟨resp, c, k, -, -, rfl⟩
    · obtain ⟨howner, hnext⟩ := hs op hm
      obtain ⟨hinstr, -⟩ := microStep_more_keeps h
      rintro op' ⟨⟩
      exact ⟨howner, by rw [hinstr]; exact hnext⟩
    · exact .of_idle (finishOp_mainOp ..)
  | begin u x i hu hm hsys => exact absurd hsystem hsys
  | harnessMicro u t x m hu hm hsys => exact absurd hsystem hsys
  | harnessIdle u x hu =>
    obtain ⟨l, rfl⟩ := hu.exists_agenda
    exact hs

theorem State.deliver_loop_cases (s : State) (o : Owner) (resp : Response) :
    (s.deliver o resp).loop = s.loop ∨ (s.deliver o resp).loop = s.loop.advance s.params resp := by
  cases o with
  | harness => exact .inl rfl
  | loop => exact .inr rfl

/-- MAIN's position moves on with the response of an operation or by a local step, if at all. -/
theorem TurnResult.loop_cases {s t : State} {a : Agent} (h : TurnResult s a t) :
    t.loop = s.loop ∨ (∃ resp, t.loop = s.loop.advance s.params resp) ∨ t.loop = s.loop.control := by
  cases h with
  | illegal u f hu =>
    obtain ⟨l, rfl⟩ := hu.exists_agenda
    exact .inl rfl
  | perform u t a i hu hm hsys hword e =>
    obtain ⟨l, rfl⟩ := hu.exists_agenda
    obtain ⟨-, -, hl, -, -⟩ := performAs_sameUser e
    exact .inl hl
  | issue u o i hu =>
    obtain ⟨l, rfl⟩ := hu.exists_agenda
    rcases issueOp_cases o i { s with agenda := l } with ⟨m, -, -, h⟩ | ⟨-, h⟩ <;> rw [h]
    · exact .inl rfl
    · exact (State.deliver_loop_cases _ o .refused).imp_right fun hl => .inl ⟨_, hl⟩
  | control u hu =>
    obtain ⟨l, rfl⟩ := hu.exists_agenda
    exact .inr (.inr rfl)
  | micro u t op hu hm e =>
    obtain ⟨l, rfl⟩ := hu.exists_agenda
    rcases continueOp_cases e with ⟨m, k, -, rfl⟩ | ⟨resp, c, k, -, -, rfl⟩
    · exact .inl rfl
    · exact (State.deliver_loop_cases _ op.owner resp).imp_right fun hl => .inl ⟨_, hl⟩
  | begin u x i hu =>
    obtain ⟨l, rfl⟩ := hu.exists_agenda
    rcases beginOp_cases x i { s with agenda := l } with ⟨m, -, -, h⟩ | h <;> rw [h] <;> exact .inl rfl
  | harnessMicro u t x m hu hm hsys hword e =>
    obtain ⟨l, rfl⟩ := hu.exists_agenda
    rcases continueHarness_cases e with ⟨m', k, -, rfl⟩ | ⟨resp, c, k, -, rfl⟩ <;> exact .inl rfl
  | harnessIdle u x hu =>
    obtain ⟨l, rfl⟩ := hu.exists_agenda
    exact .inl rfl

/-! ## MAIN transmits to `PC` only -/

theorem sendsToPc.of_tx {l : MainLoop} {blk : TxBlock} {a : AfterTx} (h : l.point = .tx blk a)
    (hd : blk.dest = .pc) : sendsToPc l := by
  intro blk' a' h'
  cases h.symm.trans h'
  exact hd

theorem sendsToPc.of_not_tx {l : MainLoop} (h : ∀ blk a, l.point ≠ .tx blk a) : sendsToPc l :=
  fun blk a h' => absurd h' (h blk a)

/-- The blocks that L6, L7 and ERR.SEND begin go to `PC`, and a block in progress keeps its
destination. -/
theorem sendsToPc.advance {l : MainLoop} (hl : sendsToPc l) (q : Params) (resp : Response) :
    sendsToPc (l.advance q resp) := by
  unfold MainLoop.advance
  split
  · exact .of_tx rfl rfl
  · exact .of_not_tx nofun
  · split <;> exact .of_not_tx nofun
  · unfold MainLoop.afterRead
    split
    · split
      · exact .of_tx rfl rfl
      · exact .of_not_tx nofun
    · exact .of_tx rfl rfl
  · exact .of_not_tx nofun
  · exact .of_tx rfl rfl
  · next blk a hp => exact .of_tx rfl (hl blk a hp)
  · exact hl
  · exact hl

theorem sendsToPc.control {l : MainLoop} (hl : sendsToPc l) : sendsToPc l.control := by
  unfold MainLoop.control
  split
  · exact .of_not_tx nofun
  · exact .of_not_tx nofun
  · exact .of_not_tx nofun
  · exact hl
  · exact hl
  · exact hl

theorem TurnResult.keeps_sendsToPc {s t : State} {a : Agent} (h : TurnResult s a t)
    (hs : sendsToPc s.loop) : sendsToPc t.loop := by
  obtain hl | ⟨resp, hl⟩ | hl := h.loop_cases <;> rw [hl]
  · exact hs
  · exact hs.advance _ _
  · exact hs.control

/-- The operation of MAIN's position, while it transmits to `PC` only: it neither writes nor reads another
port's transmit ring. -/
theorem sendsToPc.nextOp_ne {l : MainLoop} (hl : sendsToPc l) {i : Instr} (hi : l.nextOp = some i)
    {p : Port} (hp : p ≠ .pc) :
    (∀ b, i ≠ .rbWrite (txRing p) b) ∧ ∀ n, i ≠ .rbRead (txRing p) n := by
  unfold MainLoop.nextOp at hi
  split at hi
  · cases hi; exact ⟨nofun, nofun⟩
  · cases hi; exact ⟨nofun, nofun⟩
  · cases hi; exact ⟨nofun, nofun⟩
  · obtain ⟨x, -, rfl⟩ := Option.map_eq_some_iff.1 hi
    exact ⟨nofun, nofun⟩
  · next blk a hpoint =>
    obtain ⟨x, -, rfl⟩ := Option.map_eq_some_iff.1 hi
    refine ⟨fun b hb => ?_, nofun⟩
    cases hb
    exact hp (hl blk a hpoint)

/-! ## The RS-485 ports stay quiet -/

section Quiet

variable {k k' : Block} {p : Port}

/-- `PC` has no driver to be off. -/
theorem txQuiet.ne_pc (h : txQuiet k p) : p ≠ .pc := by
  rintro rfl
  obtain ⟨-, hde, -⟩ := h
  cases hde

theorem txQuiet.cnt (h : txQuiet k p) : k.cnt (txRing p) = 0 := indexDiff_eq_zero.2 h.1

theorem txQuiet.congr (h : txQuiet k p) (hring : k'.ring (txRing p) = k.ring (txRing p))
    (hport : k'.de p = k.de p ∧ k'.wireOf p = k.wireOf p) : txQuiet k' p := by
  simpa [txQuiet, Block.head, Block.tail, hring, hport] using h

/-- An event finds nothing to send for a quiet port, and at most switches its driver off. -/
theorem txQuiet.event {q : Port} {i : Instr} {s t : State} (h : txQuiet s.block p)
    (hi : homeIface i = .event q) (e : performAs (.irq q) i s = .next t) : txQuiet t.block p := by
  by_cases hq : p = q
  · subst hq
    rcases homeIface_event hi with ⟨b, rfl⟩ | rfl | rfl
    · rcases performAs_irqRx_block e with hk | hk <;> rw [hk]
      · exact h
      · obtain ⟨hring, -, -, hport, -⟩ := rbWrite_frame (rxRing p) b s.block
        exact h.congr (hring _ (by simp)) (hport p).2
    · rcases irqTxAs_next e with ⟨-, rfl⟩ | ⟨-, -, k, bs, hr, rfl⟩
      · exact h
      · cases (rbRead_empty 1 h.cnt).symm.trans hr
        exact h
    · rcases performAs_irqTxc_block e with hk | hk <;> rw [hk]
      · exact h
      · have hne := h.ne_pc
        rw [h.cnt]
        obtain ⟨hempty, -, hwire⟩ := h
        refine ⟨by simpa [Block.head, Block.tail] using hempty, ?_, by simpa using hwire⟩
        exact Block.de_setDe_same _ p false hne
  · rw [← exec_event hi] at e
    obtain ⟨-, hring, hport⟩ := Block.part_eq_iff.1 ((exec_event_onlyPart hi e).part p hq)
    exact h.congr hring hport

/-- MAIN's micro-step in an operation of its loop. -/
theorem txQuiet.continueOp {op : InFlight} {s t : State} (h : txQuiet s.block p)
    (hl : sendsToPc s.loop) (hnext : s.loop.nextOp = some (microInstr op.micro))
    (e : continueOp op s = .next t) : txQuiet t.block p := by
  obtain ⟨hwrite, hread⟩ := hl.nextOp_ne hnext h.ne_pc
  have quiet {k : Block} (hk : MicroLeads s.activeCfg.bitInvert op.micro s.block k) : txQuiet k p :=
    h.congr (hk.ring_eq hwrite hread) (hk.de_wireOf p)
  rcases continueOp_cases e with ⟨m, k, hm, rfl⟩ | ⟨resp, c, k, hm, -, rfl⟩
  · exact quiet (.inl ⟨m, hm⟩)
  · rw [finishOp_block]
    exact quiet (.inr ⟨resp, c, hm⟩)

end Quiet

theorem TurnResult.keeps_txQuiet {s t : State} {a : Agent} {p : Port} (h : TurnResult s a t)
    (hsystem : s.systemOnly) (hown : ownOp s) (hl : sendsToPc s.loop)
    (hs : txQuiet s.block p) : txQuiet t.block p := by
  cases h with
  | illegal u f hu => rw [State.answerIllegal_block, hu.block]; exact hs
  | perform u t a i hu hm hsys hword e =>
    obtain ⟨q, rfl, hi⟩ := hsys hsystem
    exact txQuiet.event (hu.block ▸ hs) hi e
  | issue u o i hu => rw [(issueOp_frame o i u).1, hu.block]; exact hs
  | control u hu => rw [hu.block]; exact hs
  | micro u t op hu hm e =>
    obtain ⟨l, rfl⟩ := hu.exists_agenda
    obtain ⟨-, hnext⟩ := hown op hm
    exact txQuiet.continueOp (s := { s with agenda := l }) hs hl hnext e
  | begin u x i hu hm hsys => exact absurd hsystem hsys
  | harnessMicro u t x m hu hm hsys => exact absurd hsystem hsys
  | harnessIdle u x hu => rw [hu.block]; exact hs

/-- Settles O49: boot touches none of it, events find nothing to send, and MAIN writes to `PC` only. -/
theorem rs485PortsAreNeverDriven : Obligations.Rs485PortsAreNeverDriven := by
  rintro s t ⟨hsystem, hown, hl, hmaster, hslave⟩ e
  refine ⟨step_systemOnly e hsystem, ?_⟩
  rcases step_cases e with ⟨-, -, rfl⟩ | ⟨_, a, -, -, h⟩
  · exact ⟨hown, hl, hmaster, hslave⟩
  · exact ⟨h.keeps_ownOp hown hsystem, h.keeps_sendsToPc hl, h.keeps_txQuiet hsystem hown hl hmaster,
      h.keeps_txQuiet hsystem hown hl hslave⟩

end Sys2Proof.Machine
end

section
/-! PROOFS. What FP.FEED does to its parser and answers, for one byte and for a list of them
(42_frame_parser.md rules R136 to R145). -/

namespace Sys2Proof.Machine

/-! ## The transitions (rules R137 to R141) -/

/-- The parser that has just begun a frame: its buffer holds the STX alone. -/
def Parser.started (q : Parser) : Parser := { q.clear.appended Config.stx with pstate := .waitETX }

@[simp] theorem Parser.started_clen (q : Parser) : q.started.clen = 1#10 := rfl
@[simp] theorem Parser.started_pstate (q : Parser) : q.started.pstate = .waitETX := rfl
@[simp] theorem Parser.started_cmd (q : Parser) : q.started.cmd = [Config.stx] :=
  Parser.appended_cmd (q := q.clear) (by simp [Config.cmdCap])

theorem feedParser_stx (p : Port) (q : Parser) :
    feedParser p Config.stx q = .ok (q.started, none) := by
  cases hp : q.pstate <;> simp [feedParser, hp, feedStart_eq, Parser.started]

theorem feedParser_outside {p : Port} {b : Byte} {q : Parser} (hp : q.pstate = .waitSTX)
    (hb : b ≠ Config.stx) : feedParser p b q = .ok (q, none) := by
  simp [feedParser, hp, hb]

theorem feedParser_etx {p : Port} {q : Parser} (h : q.Inv) (hp : q.pstate = .waitETX) :
    feedParser p Config.etx q = .ok ({ (q.appended Config.etx).clear with pstate := .waitSTX },
      some (q.cmd ++ [Config.etx])) := by
  simp [feedParser, hp, feedEnd_eq h, show Config.etx ≠ Config.stx by decide]

/-- In WaitETX a byte that is no delimiter goes to `feedOther`. -/
theorem feedParser_other {p : Port} {b : Byte} {q : Parser} (hp : q.pstate = .waitETX)
    (hs : b ≠ Config.stx) (he : b ≠ Config.etx) : feedParser p b q = feedOther p b q := by
  simp [feedParser, hp, hs, he]

theorem feedCondition_other {b : Byte} {q : Parser} (hp : q.pstate = .waitETX)
    (hs : b ≠ Config.stx) (he : b ≠ Config.etx) :
    feedCondition b q =
      if q.clen.toNat + 1 = Config.cmdCap then some .frameBufferOverflow else none := by
  simp [feedCondition, hp, hs, he]

/-- The content fills less than the buffer. -/
theorem Parser.Inv.cmd_length {q : Parser} (h : q.Inv) :
    q.cmd.length = q.clen.toNat ∧ q.cmd.length ≤ 511 := by
  obtain ⟨-, hc, hf, -⟩ := h
  have hl := Parser.cmd_length hf
  simp only [Config.cmdCap] at hc
  omega

/-- The invariant of the parser a known transition leads to. -/
theorem Parser.Inv.of_feedParser {p : Port} {b : Byte} {q q' : Parser} {o : Option (List Byte)}
    (h : q.Inv) (e : feedParser p b q = .ok (q', o)) : q'.Inv := by
  obtain ⟨_, _, e', h'⟩ := feedParser_inv (p := p) (b := b) h
  cases e.symm.trans e'
  exact h'

/-! ## FP.FEED of one byte -/

@[simp] theorem Block.setParser_parser (k : Block) (p : Port) :
    k.setParser p (k.parser p) = k := by simp [Block.setParser, Block.parser]

/-- FP.FEED, issued by MAIN, puts the transition's parser back and answers what it emitted. -/
theorem exec_fpFeed {p : Port} {raw : Byte} {s : State} {q : Parser} {o : Option (List Byte)}
    (e : feedParser p (s.fedByte raw) (s.block.parser p) = .ok (q, o)) :
    exec (.fpFeed p raw) s =
      .next ((s.withBlock (s.block.setParser p q)).answer .main (some (.fpFeed p raw))
        (frameResponse o) (feedCondition (s.fedByte raw) (s.block.parser p))) :=
  (exec_eq_performAs _ _).trans (performAs_fpFeed e)

/-- What the next state of a feed holds: the transition's parser, one more answer, the same `cfg`. -/
theorem exec_fpFeed_next {p : Port} {raw : Byte} {s : State} {q : Parser} {o : Option (List Byte)}
    (e : feedParser p (s.fedByte raw) (s.block.parser p) = .ok (q, o)) :
    ∃ t, exec (.fpFeed p raw) s = .next t ∧ t.block.parser p = q ∧
      t.answers = s.answers ++ [⟨.main, some (.fpFeed p raw), frameResponse o,
        feedCondition (s.fedByte raw) (s.block.parser p)⟩] ∧
      t.activeCfg = s.activeCfg :=
  ⟨_, exec_fpFeed e, by simp, rfl, rfl⟩

/-- STX starts a frame in either state; the state tells which condition is recorded. -/
theorem exec_fpFeed_stx {p : Port} {raw : Byte} {s : State} (hb : s.fedByte raw = Config.stx) :
    ∃ t, exec (.fpFeed p raw) s = .next t ∧ (t.block.parser p).cmd = [Config.stx] ∧
      (t.block.parser p).clen = 1#10 ∧ (t.block.parser p).pstate = .waitETX ∧
      t.answers = s.answers ++ [⟨.main, some (.fpFeed p raw), .noFrame,
        feedCondition Config.stx (s.block.parser p)⟩] := by
  obtain ⟨t, e, hq, ha, -⟩ := exec_fpFeed_next (hb ▸ feedParser_stx p (s.block.parser p))
  rw [hb] at ha
  exact ⟨t, e, by simp [hq], by simp [hq], by simp [hq], ha⟩

/-- Settles O32: in WaitSTX an STX meets no condition. -/
theorem feedStxStartsFrame : Obligations.FeedStxStartsFrame := by
  intro p raw s hp hb
  have hcond : feedCondition Config.stx (s.block.parser p) = none := by simp [feedCondition, hp]
  exact hcond ▸ exec_fpFeed_stx hb

/-- Settles O34: in WaitETX an STX aborts the frame under way. -/
theorem feedStxRestartsFrame : Obligations.FeedStxRestartsFrame := by
  intro p raw s hp hb
  have hcond : feedCondition Config.stx (s.block.parser p) = some .frameAbort := by
    simp [feedCondition, hp]
  exact hcond ▸ exec_fpFeed_stx hb

/-- Settles O33: the transition gives back the parser, and putting it back changes nothing. -/
theorem feedOutsideFrameDropsByte : Obligations.FeedOutsideFrameDropsByte := by
  intro p raw s hp hb
  have hcond : feedCondition (s.fedByte raw) (s.block.parser p) = some .byteDropped := by
    simp [feedCondition, hp, hb]
  rw [exec_fpFeed (feedParser_outside hp hb), hcond, Block.setParser_parser]
  rfl

/-- Settles O35: the invariant bounds the content, and `feedParser_etx` emits it. -/
theorem feedEtxEmitsFrame : Obligations.FeedEtxEmitsFrame := by
  intro p raw s h hp hb
  obtain ⟨hlen, hmax⟩ := h.cmd_length
  have hcond : feedCondition Config.etx (s.block.parser p) = none := by
    simp [feedCondition, hp, show Config.etx ≠ Config.stx by decide]
  replace hb : s.fedByte raw = Config.etx := hb
  obtain ⟨t, e, hq, ha, -⟩ := exec_fpFeed_next (hb ▸ feedParser_etx (p := p) h hp)
  rw [hb, hcond] at ha
  exact ⟨t, e, by simp [hq], by rw [hq], hlen, Nat.succ_le_succ hmax, ha⟩

/-- Settles O36: below 511 bytes the byte is appended, at 511 it fills the buffer. -/
theorem feedOtherByteAppendsOrFlushes : Obligations.FeedOtherByteAppendsOrFlushes := by
  intro p raw s h hp hs he
  obtain ⟨hlen, hmax⟩ := h.cmd_length
  have hfeed := feedParser_other (p := p) hp hs he
  have hcond := feedCondition_other hp hs he
  rcases (hlen ▸ hmax).lt_or_eq with hc | hc
  · have hcap : (s.block.parser p).clen.toNat < Config.cmdCap := Nat.lt_succ_of_lt hc
    obtain ⟨t, e, hq, ha, -⟩ := exec_fpFeed_next (hfeed.trans (feedOther_append hc))
    rw [hcond, if_neg (by simp only [Config.cmdCap]; omega)] at ha
    exact ⟨t, e, by rw [hq]; exact hp,
      fun _ => ⟨by rw [hq, Parser.appended_cmd hcap], by rw [hq, Parser.appended_clen hcap], ha⟩,
      fun h => absurd h hc.ne⟩
  · obtain ⟨t, e, hq, ha, -⟩ := exec_fpFeed_next (hfeed.trans (feedOther_flush h hc))
    rw [hcond, if_pos (congrArg (· + 1) hc)] at ha
    exact ⟨t, e, by rw [hq]; exact hp, fun h => absurd hc h.ne,
      fun _ => ⟨by rw [hq]; rfl, by rw [List.length_append, hlen, hc]; rfl, ha⟩⟩

/-! ## Inversion (rule R136) -/

theorem feedByte_complement (raw : Byte) : feedByte false (raw ^^^ 0xFF#8) = feedByte true raw :=
  BitVec.xor_allOnes

theorem fedByte_of_cfg {s : State} {c : Config.Entry} (h : s.block.cfg = some c) (raw : Byte) :
    s.fedByte raw = feedByte c.bitInvert raw := by
  simp [State.fedByte, State.activeCfg, h]

/-- Settles O37: the parser is fed the same byte. -/
theorem inversionComplementsBeforeParsing : Obligations.InversionComplementsBeforeParsing := by
  intro p raw rate rate' s t hc e
  have hbyte : State.fedByte { s with block := { s.block with cfg := some ⟨false, rate'⟩ } }
      (raw ^^^ 0xFF#8) = s.fedByte raw := by
    rw [fedByte_of_cfg rfl, fedByte_of_cfg hc, feedByte_complement]
  rw [exec_eq_performAs] at e
  rcases fpFeedAs_next e with ⟨h, -⟩ | ⟨-, q, o, hq, rfl⟩
  · cases h
  refine ⟨_, exec_fpFeed (hbyte ▸ hq), rfl, ?_⟩
  simp only [State.answer_answers, State.withBlock_answers, List.map_append, hbyte]
  rfl

/-! ## The shapes of emitted frames (rule R143) -/

/-- What the command buffer holds in WaitETX: a payload, after an STX or without one. -/
def CmdPayload (c : List Byte) : Prop := (∃ pl, c = Config.stx :: pl ∧ plain pl) ∨ plain c

theorem cmdShape_waitETX {q : Parser} (hp : q.pstate = .waitETX) :
    cmdShape q ↔ CmdPayload q.cmd := by simp only [cmdShape, hp, CmdPayload]

theorem plain_nil : plain [] := List.forall_mem_nil _

theorem plain.concat {xs : List Byte} {b : Byte} (h : plain xs) (hs : b ≠ Config.stx)
    (he : b ≠ Config.etx) : plain (xs ++ [b]) :=
  List.forall_mem_append.2 ⟨h, List.forall_mem_singleton.2 ⟨hs, he⟩⟩

theorem CmdPayload.concat {c : List Byte} {b : Byte} (h : CmdPayload c) (hs : b ≠ Config.stx)
    (he : b ≠ Config.etx) : CmdPayload (c ++ [b]) := by
  rcases h with ⟨pl, rfl, hpl⟩ | h
  · exact .inl ⟨pl ++ [b], rfl, hpl.concat hs he⟩
  · exact .inr (h.concat hs he)

/-- A payload ended by an ETX is a frame of shape (a) or (d). -/
theorem CmdPayload.frameShape_etx {c : List Byte} (h : CmdPayload c) (hl : c.length ≤ 511) :
    FrameShape (c ++ [Config.etx]) := by
  rcases h with ⟨pl, rfl, hpl⟩ | h
  · exact .inl ⟨pl, rfl, hpl, Nat.le_of_succ_le_succ hl⟩
  · exact .inr (.inr (.inr ⟨c, rfl, h, hl⟩))

/-- A payload that fills the buffer is a frame of shape (b) or (c). -/
theorem CmdPayload.frameShape_full {c : List Byte} (h : CmdPayload c) (hl : c.length = 512) :
    FrameShape c := by
  rcases h with ⟨pl, rfl, hpl⟩ | h
  · exact .inr (.inl ⟨pl, rfl, hpl, Nat.succ.inj hl⟩)
  · exact .inr (.inr (.inl ⟨h, hl⟩))

/-- Settles O39: `feedParser_cases` names the transitions, and each emits what `CmdPayload` says. -/
theorem emittedFramesHaveFourShapes : Obligations.EmittedFramesHaveFourShapes := by
  intro p b q q' o h hshape e
  obtain ⟨hlen, hmax⟩ := h.cmd_length
  refine ⟨h.of_feedParser e, ?_⟩
  rcases feedParser_cases (p := p) (b := b) h with
    ⟨-, e₁⟩ | ⟨-, -, e₁⟩ | ⟨-, hp, e₁⟩ | ⟨hs, he, hp, -, e₁⟩ | ⟨hs, he, hp, hfull, e₁⟩ <;>
    cases e.symm.trans e₁
  · exact ⟨.inl ⟨[], q.started_cmd, plain_nil⟩, nofun⟩
  · exact ⟨hshape, nofun⟩
  · have hc := (cmdShape_waitETX hp).1 hshape
    exact ⟨rfl, fun f hf => Option.some.inj hf ▸ hc.frameShape_etx hmax⟩
  · have hc := ((cmdShape_waitETX hp).1 hshape).concat hs he
    refine ⟨(cmdShape_waitETX (by simp [hp])).2 ?_, nofun⟩
    rwa [Parser.appended_cmd h.2.1]
  · have hc := ((cmdShape_waitETX hp).1 hshape).concat hs he
    have hlen512 : (q.cmd ++ [b]).length = 512 := by rw [List.length_append, hlen, hfull]; rfl
    exact ⟨(cmdShape_waitETX (by simp [hp])).2 (.inr plain_nil),
      fun f hf => Option.some.inj hf ▸ hc.frameShape_full hlen512⟩

/-! ## FP.FEED of a list of bytes (rule R145) -/

theorem feedAll_cons {p : Port} {inv : Bool} {raw : Byte} {rest : List Byte} {q q' q'' : Parser}
    {o : Option (List Byte)} {fs : List (List Byte)}
    (e : feedParser p (feedByte inv raw) q = .ok (q', o))
    (erest : feedAll p inv rest q' = .ok (q'', fs)) :
    feedAll p inv (raw :: rest) q = .ok (q'', o.toList ++ fs) := by
  simp only [feedAll, e, erest]

theorem feedAll_cons_ok {p : Port} {inv : Bool} {raw : Byte} {rest : List Byte} {q q'' : Parser}
    {fs : List (List Byte)} (e : feedAll p inv (raw :: rest) q = .ok (q'', fs)) :
    ∃ q' o fs', feedParser p (feedByte inv raw) q = .ok (q', o) ∧
      feedAll p inv rest q' = .ok (q'', fs') ∧ fs = o.toList ++ fs' := by
  unfold feedAll at e
  split at e
  · cases e
  · next q' o h =>
    split at e
    · cases e
    · next q'' fs' hrest => cases e; exact ⟨q', o, fs', h, hrest, rfl⟩

theorem feedAll_append {p : Port} {inv : Bool} {ys : List Byte} {q' q'' : Parser}
    {gs : List (List Byte)} (eys : feedAll p inv ys q' = .ok (q'', gs)) :
    ∀ {xs : List Byte} {q : Parser} {fs : List (List Byte)},
      feedAll p inv xs q = .ok (q', fs) → feedAll p inv (xs ++ ys) q = .ok (q'', fs ++ gs)
  | [], _, _, exs => by cases exs; exact eys
  | _ :: _, _, _, exs => by
    obtain ⟨q₁, o, fs', h, hrest, rfl⟩ := feedAll_cons_ok exs
    rw [List.append_assoc]
    exact feedAll_cons h (feedAll_append eys hrest)

/-- The frame that the answer of a feed reports. -/
theorem emittedFrame_fpFeed (p : Port) (raw : Byte) (o : Option (List Byte))
    (c : Option Condition) :
    emittedFrame p ⟨.main, some (.fpFeed p raw), frameResponse o, c⟩ = o.toList := by
  cases o <;> simp [emittedFrame, frameResponse]

/-- Feeding a list to the machine is feeding it to the parser: the frames are the ones answered. -/
theorem execAll_fpFeed {p : Port} : ∀ {raws : List Byte} {s : State} {q : Parser}
    {fs : List (List Byte)},
    feedAll p s.activeCfg.bitInvert raws (s.block.parser p) = .ok (q, fs) →
    ∃ t, execAll (raws.map (Instr.fpFeed p)) s = .next t ∧ t.block.parser p = q ∧
      framesOf p t.answers = framesOf p s.answers ++ fs
  | [], s, _, _, e => by cases e; exact ⟨s, rfl, rfl, (List.append_nil _).symm⟩
  | raw :: rest, s, _, _, e => by
    obtain ⟨q₁, o, fs', h, hrest, rfl⟩ := feedAll_cons_ok e
    obtain ⟨s₁, e₁, rfl, ha, hcfg⟩ := exec_fpFeed_next h
    obtain ⟨t, et, hq, hframes⟩ := execAll_fpFeed (hcfg ▸ hrest)
    refine ⟨t, by simp only [List.map_cons, execAll, e₁, et], hq, ?_⟩
    rw [hframes, ha, framesOf, List.flatMap_append, List.flatMap_singleton, emittedFrame_fpFeed,
      List.append_assoc, framesOf]

/-- A parser inside a frame, whose command buffer holds `c`. -/
def Parser.Holds (q : Parser) (c : List Byte) : Prop :=
  q.Inv ∧ q.pstate = .waitETX ∧ q.cmd = c

theorem Parser.Inv.started {q : Parser} (h : q.Inv) : q.started.Holds [Config.stx] :=
  ⟨h.of_feedParser (feedParser_stx .pc q), rfl, q.started_cmd⟩

section Holds

variable {p : Port} {b : Byte} {q : Parser} {c : List Byte}

theorem Parser.Holds.append (h : q.Holds c) (hs : b ≠ Config.stx) (he : b ≠ Config.etx)
    (hl : c.length < 511) :
    ∃ q', feedParser p b q = .ok (q', none) ∧ q'.Holds (c ++ [b]) := by
  obtain ⟨hi, hp, rfl⟩ := h
  rw [hi.cmd_length.1] at hl
  have e := (feedParser_other hp hs he).trans (feedOther_append (p := p) hl)
  exact ⟨_, e, hi.of_feedParser e, hp, Parser.appended_cmd hi.2.1⟩

theorem Parser.Holds.flush (h : q.Holds c) (hs : b ≠ Config.stx) (he : b ≠ Config.etx)
    (hl : c.length = 511) :
    ∃ q', feedParser p b q = .ok (q', some (c ++ [b])) ∧ q'.Holds [] := by
  obtain ⟨hi, hp, rfl⟩ := h
  rw [hi.cmd_length.1] at hl
  have e := (feedParser_other hp hs he).trans (feedOther_flush (p := p) hi hl)
  exact ⟨_, e, hi.of_feedParser e, hp, Parser.clear_cmd _⟩

end Holds

/-- Plain bytes that leave room in the buffer are appended to it, and nothing is emitted. -/
theorem Parser.Holds.feedAll_plain {p : Port} : ∀ {xs : List Byte} {q : Parser} {c : List Byte},
    q.Holds c → plain xs → c.length + xs.length ≤ 511 →
    ∃ q', feedAll p false xs q = .ok (q', []) ∧ q'.Holds (c ++ xs)
  | [], q, c, h, _, _ => ⟨q, rfl, (List.append_nil c).symm ▸ h⟩
  | x :: xs, q, c, h, hx, hl => by
    obtain ⟨⟨hs, he⟩, hxs⟩ := List.forall_mem_cons.1 hx
    rw [List.length_cons] at hl
    obtain ⟨q₁, e₁, h₁⟩ := h.append (p := p) hs he (by omega)
    obtain ⟨q', e', h'⟩ := h₁.feedAll_plain (p := p) hxs (by simp; omega)
    exact ⟨q', feedAll_cons e₁ e', by simpa using h'⟩

/-- A frame of which 511 plain bytes follow the STX is flushed at the last of them; the bytes after it
stay in the buffer. -/
theorem Parser.Inv.feedAll_flush {p : Port} {q : Parser} {pre post : List Byte} {b : Byte}
    (h : q.Inv) (hplain : plain (pre ++ b :: post)) (hpre : pre.length = 510)
    (hpost : post.length ≤ 511) :
    ∃ q', feedAll p false (Config.stx :: (pre ++ b :: post)) q =
        .ok (q', [Config.stx :: (pre ++ [b])]) ∧ q'.Holds post := by
  obtain ⟨hp, hb⟩ := List.forall_mem_append.1 hplain
  obtain ⟨⟨hs, he⟩, hpost'⟩ := List.forall_mem_cons.1 hb
  obtain ⟨q₁, e₁, h₁⟩ := h.started.feedAll_plain (p := p) hp (by simp [hpre])
  obtain ⟨q₂, e₂, h₂⟩ := h₁.flush (p := p) hs he (by simp [hpre])
  obtain ⟨q₃, e₃, h₃⟩ := h₂.feedAll_plain (p := p) hpost' (by simpa using hpost)
  exact ⟨q₃, feedAll_cons (feedParser_stx p q) (feedAll_append (feedAll_cons e₂ e₃) e₁), h₃⟩

/-- Settles O40: the list is cut at its 511th byte, which flushes the buffer. -/
theorem longPayloadFlushesOnce : Obligations.LongPayloadFlushesOnce := by
  intro p rate xs s hc h _ hplain hlen
  have hcut : xs.take 510 ++ xs[510] :: xs.drop 511 = xs := by
    rw [List.getElem_cons_drop, List.take_append_drop]
  obtain ⟨q, e, hq⟩ := h.feedAll_flush (p := p) (hcut.symm ▸ hplain) (by simp [hlen])
    (by simp [hlen])
  rw [hcut, List.take_append_getElem] at e
  have hinvert : s.activeCfg.bitInvert = false := by simp [State.activeCfg, hc]
  obtain ⟨t, et, rfl, hframes⟩ := execAll_fpFeed (hinvert ▸ e)
  obtain ⟨-, hp, hcmd⟩ := hq
  exact ⟨t, et, hframes, by simp [hlen], hp, hcmd⟩

end Sys2Proof.Machine
end

section
/-! PROOFS. CFG.SELECT, what MAIN's position in its loop says, and MAIN's part in every turn
(43_environment_software.md rules R156, R164, R166). -/

namespace Sys2Proof.Machine

/-- Settles O3: the table's ten entries, and the fallback entry for every code above 9. -/
theorem configSelectFollowsTable : Obligations.ConfigSelectFollowsTable :=
  ⟨rfl, rfl, rfl, rfl, rfl, rfl, rfl, rfl, rfl, rfl, fun _ h => if_neg (Nat.not_le.2 h)⟩

/-! ## MAIN's position -/

/-- The operation that each position issues (rules R158, R164). -/
theorem MainLoop.nextOp_cases {l : MainLoop} {i : Instr} (h : l.nextOp = some i) :
    (l.point = .l1 ∧ i = .rbIsfull l.srcRing) ∨ (l.point = .l2 ∧ i = .rbCount l.srcRing) ∨
    (l.point = .l4 ∧ i = .rbRead l.srcRing l.snapshot) ∨
    (∃ j b, l.point = .l7 j ∧ i = .fpFeed (sourcePort l.src) b) ∨
    ∃ blk a b, l.point = .tx blk a ∧ i = .rbWrite (txRing blk.dest) b := by
  unfold nextOp at h
  split at h
  · next hp => cases h; exact .inl ⟨hp, rfl⟩
  · next hp => cases h; exact .inr (.inl ⟨hp, rfl⟩)
  · next hp => cases h; exact .inr (.inr (.inl ⟨hp, rfl⟩))
  · next j hp =>
    obtain ⟨b, -, rfl⟩ := Option.map_eq_some_iff.1 h
    exact .inr (.inr (.inr (.inl ⟨j, b, hp, rfl⟩)))
  · next blk a hp =>
    obtain ⟨b, -, rfl⟩ := Option.map_eq_some_iff.1 h
    exact .inr (.inr (.inr (.inr ⟨blk, a, b, hp, rfl⟩)))

/-- From position `l` to position `l'` the poll has returned `res`, and the other source's poll begins. -/
def PollReturns (l : MainLoop) (res : PollResult) (l' : MainLoop) : Prop :=
  l'.src = nextSource l.src ∧ l'.point = .l1 ∧ l'.lastPoll = some (l.src, res)

theorem MainLoop.endPoll_returns (l : MainLoop) (res : PollResult) :
    PollReturns l res (l.endPoll res) := ⟨rfl, rfl, rfl⟩

/-- A response leaves the polled source, or ends the poll: the count 0 at L2. -/
theorem MainLoop.advance_src (l : MainLoop) (q : Params) (resp : Response) :
    (l.advance q resp).src = l.src ∨ ∃ res, PollReturns l res (l.advance q resp) := by
  unfold advance
  split
  · exact .inl rfl
  · exact .inl rfl
  · split
    · exact .inr ⟨_, endPoll_returns ..⟩
    · exact .inl rfl
  · unfold afterRead
    split
    · split <;> exact .inl rfl
    · exact .inl rfl
  · exact .inl rfl
  · exact .inl rfl
  · exact .inl rfl
  · exact .inl rfl
  · exact .inl rfl

/-- A local step leaves the polled source, or ends the poll: L8, and after the last TX.BLOCK. -/
theorem MainLoop.control_src (l : MainLoop) :
    l.control.src = l.src ∨ ∃ res, PollReturns l res l.control := by
  unfold control
  split
  · exact .inr ⟨_, endPoll_returns ..⟩
  · exact .inr ⟨_, endPoll_returns ..⟩
  · exact .inl rfl
  · exact .inl rfl
  · exact .inl rfl
  · exact .inl rfl

/-- Settles O59: MAIN's position moves by a response or a local step, if at all. -/
theorem pollsAlternate : Obligations.PollsAlternate := by
  intro s t e hne
  rcases step_cases e with ⟨-, -, rfl⟩ | ⟨_, a, -, -, h⟩
  · exact absurd rfl hne
  · have hsrc : t.loop.src = s.loop.src ∨ ∃ res, PollReturns s.loop res t.loop := by
      obtain hl | ⟨resp, hl⟩ | hl := h.loop_cases <;> rw [hl]
      · exact .inl rfl
      · exact s.loop.advance_src s.params resp
      · exact s.loop.control_src
    obtain ⟨res, hnext, hpoint, hlast⟩ := hsrc.resolve_left hne
    exact ⟨hnext, hpoint, res, hlast⟩

/-! ## MAIN's part in a turn -/

/-- A refused operation leaves MAIN where it is (log entry 28). -/
theorem MainLoop.advance_refused (l : MainLoop) (q : Params) : l.advance q .refused = l := by
  unfold advance
  split <;> trivial

theorem State.deliver_refused_loop (s : State) (o : Owner) : (s.deliver o .refused).loop = s.loop := by
  cases o with
  | loop => exact s.loop.advance_refused s.params
  | harness => rfl

/-- What a turn can do to MAIN, its operation in progress and its position. -/
inductive MainMove (s t : State) : Prop
  /-- Another agent's turn, or an operation of MAIN that is refused. -/
  | still (hop : t.mainOp = s.mainOp) (hl : t.loop = s.loop)
  | begins {i : Instr} {m : Micro} {o : Owner} (hf : firstMicro i = some m)
      (hop : t.mainOp = some ⟨m, o⟩) (hl : t.loop = s.loop)
  | control (hop : t.mainOp = s.mainOp) (hl : t.loop = s.loop.control)
  | goesOn {op : InFlight} {m : Micro} (hs : s.mainOp = some op)
      (e : microStep s.activeCfg.bitInvert op.micro s.block = .more m t.block)
      (hop : t.mainOp = some { op with micro := m }) (hl : t.loop = s.loop)
  | ends {op : InFlight} {resp : Response} {c : Option Condition} (hs : s.mainOp = some op)
      (e : microStep s.activeCfg.bitInvert op.micro s.block = .done resp c t.block)
      (hop : t.mainOp = none)
      (hl : t.loop = s.loop ∨ t.loop = s.loop.advance s.params resp)

theorem TurnResult.mainMove {s t : State} {a : Agent} (h : TurnResult s a t) : MainMove s t := by
  cases h with
  | illegal u f hu =>
    obtain ⟨l, rfl⟩ := hu.exists_agenda
    exact .still rfl rfl
  | perform u t a i hu hm hsys hword e =>
    obtain ⟨l, rfl⟩ := hu.exists_agenda
    obtain ⟨hop, -, hl, -, -⟩ := performAs_sameUser e
    exact .still hop hl
  | issue u o i hu =>
    obtain ⟨l, rfl⟩ := hu.exists_agenda
    rcases issueOp_cases o i { s with agenda := l } with ⟨m, hf, -, h⟩ | ⟨-, h⟩ <;> rw [h]
    · exact .begins hf rfl rfl
    · exact .still (State.deliver_mainOp ..) (State.deliver_refused_loop ..)
  | control u hu =>
    obtain ⟨l, rfl⟩ := hu.exists_agenda
    exact .control rfl rfl
  | micro u t op hu hm e =>
    obtain ⟨l, rfl⟩ := hu.exists_agenda
    rcases continueOp_cases e with ⟨m, k, h, rfl⟩ | ⟨resp, c, k, h, -, rfl⟩
    · exact .goesOn hm h rfl rfl
    · exact .ends hm (by rw [finishOp_block]; exact h) (finishOp_mainOp ..)
        (State.deliver_loop_cases _ op.owner resp)
  | begin u x i hu =>
    obtain ⟨l, rfl⟩ := hu.exists_agenda
    rcases beginOp_cases x i { s with agenda := l } with ⟨m, -, -, h⟩ | h <;> rw [h] <;>
      exact .still rfl rfl
  | harnessMicro u t x m hu hm hsys hword e =>
    obtain ⟨l, rfl⟩ := hu.exists_agenda
    rcases continueHarness_cases e with ⟨m', k, -, rfl⟩ | ⟨resp, c, k, -, rfl⟩ <;>
      exact .still rfl rfl
  | harnessIdle u x hu =>
    obtain ⟨l, rfl⟩ := hu.exists_agenda
    exact .still rfl rfl

end Sys2Proof.Machine
end

section
/-! PROOFS. A source ring that is full stays full and as it is: what arrives for it is dropped, and MAIN does
not get past L1 of a poll of it (43_environment_software.md rule R169). -/

namespace Sys2Proof.Machine

/-! ## MAIN's position in a poll of the source -/

/-- MAIN is not past L1 of a poll of `src`: at L1, or sending the error frame of L1. -/
def NotPastL1 (src : Source) (l : MainLoop) : Prop :=
  l.src = src → l.point = .l1 ∨ ∃ blk, l.point = .tx blk (.endPoll (.failure .ringBufferOverflow))

/-- At L1 only the answer that the ring is not full leads on to L2. -/
theorem NotPastL1.advance {src : Source} {l : MainLoop} (h : NotPastL1 src l) (q : Params)
    {resp : Response} (hfull : l.src = src → l.point = .l1 → resp ≠ .isFull false) :
    NotPastL1 src (l.advance q resp) := by
  rcases l.advance_src q resp with hsrc | ⟨res, -, hpoint, -⟩
  · intro hs
    rcases h (hsrc ▸ hs) with hp | ⟨blk, hp⟩
    · cases resp with
      | isFull full =>
        cases full with
        | false => exact absurd rfl (hfull (hsrc ▸ hs) hp)
        | true => exact .inr ⟨_, by simp only [MainLoop.advance, hp, errSend]; rfl⟩
      | _ => exact .inl (by simp [MainLoop.advance, hp])
    · cases resp with
      | ok accepted => cases accepted <;> exact .inr ⟨_, by simp only [MainLoop.advance, hp]; rfl⟩
      | _ => exact .inr ⟨blk, by simp [MainLoop.advance, hp]⟩
  · exact fun _ => .inl hpoint

/-- A local step in such a poll ends it. -/
theorem NotPastL1.control {src : Source} {l : MainLoop} (h : NotPastL1 src l) :
    NotPastL1 src l.control := by
  unfold MainLoop.control
  split
  · exact fun _ => .inl rfl
  · exact fun _ => .inl rfl
  · next hp => intro hs; simpa [hp] using h hs
  · exact h
  · exact h
  · exact h

/-- MAIN's loop writes to transmit rings, and reads a source ring only at L4 of a poll of it. -/
theorem NotPastL1.nextOp_ne {src : Source} {l : MainLoop} (h : NotPastL1 src l) {i : Instr}
    (hi : l.nextOp = some i) :
    (∀ b, i ≠ .rbWrite (rxRing (sourcePort src)) b) ∧
      ∀ n, i ≠ .rbRead (rxRing (sourcePort src)) n := by
  rcases MainLoop.nextOp_cases hi with ⟨-, rfl⟩ | ⟨-, rfl⟩ | ⟨hp, rfl⟩ | ⟨j, b, -, rfl⟩ |
    ⟨blk, a, b, -, rfl⟩
  · exact ⟨nofun, nofun⟩
  · exact ⟨nofun, nofun⟩
  · refine ⟨nofun, fun n hn => ?_⟩
    have hsrc : l.src = src := by
      cases hl : l.src <;> cases src <;> simp_all [MainLoop.srcRing, sourcePort]
    simpa [hp] using h hsrc
  · exact ⟨nofun, nofun⟩
  · exact ⟨by simp, nofun⟩

/-! ## The micro-steps of RB.ISFULL (rule R106) -/

/-- F1 reads `tail`. -/
theorem microStep_more_f2 {inv : Bool} {m : Micro} {r : RingId} {t : Index} {k k' : Block}
    (e : microStep inv m k = .more (.f2 r t) k') : t = k.tail r := by
  obtain ⟨hi, -⟩ := microStep_more_keeps e
  cases m with
  | f1 => cases e; rfl
  | f2 => cases e
  | _ => cases hi

/-- The answer of RB.ISFULL is that of F2. -/
theorem microStep_done_isFull {inv : Bool} {m : Micro} {b : Bool} {c : Option Condition}
    {k k' : Block} (e : microStep inv m k = .done (.isFull b) c k') :
    ∃ r t, m = .f2 r t ∧ b = indexFull t (k.head r) := by
  cases m with
  | f2 r t => cases e; exact ⟨r, t, rfl, rfl⟩
  | w3 => simp only [microStep] at e; split at e <;> cases e
  | r4 => simp only [microStep, readOne] at e; split at e <;> cases e
  | feed =>
    simp only [microStep, feedMicro] at e
    split at e
    · cases e
    · next o _ => cases o <;> cases e
  | w1 | w2 | w4 | w5 | r1 | r2 | r3 | r5 | c1 | c2 | f1 => cases e

/-! ## The ring -/

/-- An event stores nothing in a full receive ring and reads none (rules R101 (a), R121 (a)). -/
theorem performAs_event_rxRing {p q : Port} {i : Instr} {s t : State} (hi : homeIface i = .event q)
    (hfull : s.block.cnt (rxRing p) = Config.capacity) (e : performAs (.irq q) i s = .next t) :
    t.block.ring (rxRing p) = s.block.ring (rxRing p) := by
  rcases homeIface_event hi with ⟨b, rfl⟩ | rfl | rfl
  · rcases performAs_irqRx_block e with hk | hk <;> rw [hk]
    by_cases hq : p = q
    · subst hq; rw [rbWrite_full hfull]
    · exact rbWrite_ring_ne b s.block (by simp [hq])
  · obtain ⟨v, bs, hk⟩ := performAs_irqTx_block e
    rw [hk, sendByte_ring, Block.ring_setHead_ne _ v (by simp)]
  · rcases performAs_irqTxc_block e with hk | hk <;> rw [hk]
    exact releaseDriver_ring ..

theorem TurnResult.keeps_fullRing {src : Source} {s t : State} {a : Agent} (h : TurnResult s a t)
    (hs : FullInv src s) :
    t.block.ring (rxRing (sourcePort src)) = s.block.ring (rxRing (sourcePort src)) := by
  obtain ⟨hsystem, hown, hfull, hl, -⟩ := hs
  cases h with
  | illegal u f hu => rw [State.answerIllegal_block, hu.block]
  | perform u t a i hu hm hsys hword e =>
    obtain ⟨q, rfl, hi⟩ := hsys hsystem
    rw [← hu.block] at hfull ⊢
    exact performAs_event_rxRing hi hfull e
  | issue u o i hu => rw [(issueOp_frame o i u).1, hu.block]
  | control u hu => exact congrArg (Block.ring · _) hu.block
  | micro u t op hu hm e =>
    obtain ⟨l, rfl⟩ := hu.exists_agenda
    obtain ⟨-, hnext⟩ := hown op hm
    obtain ⟨hwrite, hread⟩ := NotPastL1.nextOp_ne hl hnext
    rcases continueOp_cases e with ⟨m, k, h, rfl⟩ | ⟨resp, c, k, h, -, rfl⟩
    · exact MicroLeads.ring_eq (.inl ⟨m, h⟩) hwrite hread
    · rw [finishOp_block]
      exact MicroLeads.ring_eq (.inr ⟨resp, c, h⟩) hwrite hread
  | begin u x i hu hm hsys => exact absurd hsystem hsys
  | harnessMicro u t x m hu hm hsys => exact absurd hsystem hsys
  | harnessIdle u x hu => rw [hu.block]

/-! ## MAIN -/

theorem MainMove.keeps_notPastL1 {src : Source} {s t : State} (h : MainMove s t)
    (hs : FullInv src s) : NotPastL1 src t.loop := by
  obtain ⟨-, hown, -, hl, hF2⟩ := hs
  cases h with
  | still hop hloop => rw [hloop]; exact hl
  | begins hf hop hloop => rw [hloop]; exact hl
  | control hop hloop => rw [hloop]; exact NotPastL1.control hl
  | goesOn hop e hop' hloop => rw [hloop]; exact hl
  | @ends op resp c hop e hop' hloop =>
    obtain hloop | hloop := hloop <;> rw [hloop]
    · exact hl
    refine NotPastL1.advance hl s.params ?_
    rintro hsrc hpoint rfl
    obtain ⟨r, x, hm, hx⟩ := microStep_done_isFull e
    obtain ⟨-, hnext⟩ := hown op hop
    have hr : r = rxRing (sourcePort src) := by
      simpa [MainLoop.nextOp, hpoint, hm, microInstr, MainLoop.srcRing, hsrc, eq_comm] using hnext
    subst hr
    exact nomatch hx.trans (hF2 op x hop hm)

/-- F2 of MAIN compares a `tail` that says full: it was read by F1 while the ring was full. -/
theorem MainMove.keeps_f2 {r : RingId} {s t : State} (h : MainMove s t)
    (hfull : s.block.cnt r = Config.capacity) (hring : t.block.ring r = s.block.ring r)
    (hs : ∀ op x, s.mainOp = some op → op.micro = .f2 r x →
      indexFull x (s.block.head r) = true) :
    ∀ op x, t.mainOp = some op → op.micro = .f2 r x → indexFull x (t.block.head r) = true := by
  intro op x hop hm
  rw [Block.head, hring]
  cases h with
  | still hsame => exact hs op x (hsame ▸ hop) hm
  | control hsame => exact hs op x (hsame ▸ hop) hm
  | @begins i m o hf hop' =>
    cases hop.symm.trans hop'
    cases hm
    cases i <;> cases hf
  | @goesOn op' m hs' e hop' =>
    cases hop.symm.trans hop'
    cases hm
    rw [microStep_more_f2 e]
    exact indexFull_iff.2 hfull
  | ends hs' e hop' => cases hop.symm.trans hop'

/-- Settles O48: what arrives for a full ring is dropped, F1 and F2 see it full, and so MAIN does not come
to the read of L4. -/
theorem fullSourceRingStaysFull : Obligations.FullSourceRingStaysFull := by
  intro src s t hs e
  have ⟨hsystem, hown, hfull, hl, hF2⟩ := hs
  rcases step_cases e with ⟨-, -, rfl⟩ | ⟨_, a, -, -, h⟩
  · exact ⟨hs, rfl⟩
  · have hring := h.keeps_fullRing hs
    exact ⟨⟨step_systemOnly e hsystem, h.keeps_ownOp hown hsystem,
      by rw [Block.cnt, hring]; exact hfull, h.mainMove.keeps_notPastL1 hs,
      h.mainMove.keeps_f2 hfull hring hF2⟩, hring⟩

end Sys2Proof.Machine
end

section
/-! PROOFS. A MAIN held in a TX.BLOCK with no event to come: its write is rejected and issued again, for ever
(43_environment_software.md rule R159, 60_exceptions.md rule R187). -/

namespace Sys2Proof.Machine

theorem MainLoop.nextOp_tx {l : MainLoop} {blk : TxBlock} {a : AfterTx} {b : Byte}
    (hp : l.point = .tx blk a) (hb : blk.bytes[blk.i]? = some b) :
    l.nextOp = some (.rbWrite (txRing blk.dest) b) := by simp [nextOp, hp, hb]

/-- B2: a rejected write leaves MAIN at its byte (rule R158). -/
theorem MainLoop.advance_tx_rejected {l : MainLoop} {blk : TxBlock} {a : AfterTx}
    (hp : l.point = .tx blk a) (q : Params) : l.advance q (.ok false) = l := by
  simp only [advance, hp]

/-- With nothing on the agenda and no operation in progress, MAIN begins the operation of its position. -/
theorem step_issueOp {s : State} {c : Config.Entry} {i : Instr} (hc : s.block.cfg = some c)
    (ha : s.agenda = []) (hn : s.mainOp = none) (hi : s.loop.nextOp = some i) :
    step s = .next (issueOp .loop i s) := by
  simp only [step, machineStep, hc, nextTurn, ha, mainTurn, hn, loopTurn, hi]

/-- W1 and W2 read indices that say full, and W3 rejects the write (rule R101). -/
theorem heldMicro.microStep {k : Block} {r : RingId} {b : Byte} {m : Micro}
    (h : heldMicro k r b m) (hfull : k.cnt r = Config.capacity) (inv : Bool) :
    (∃ m', microStep inv m k = .more m' k ∧ heldMicro k r b m') ∨
    microStep inv m k = .done (.ok false) (writeCondition false) k := by
  cases m with
  | w1 => obtain ⟨rfl, rfl⟩ := h; exact .inl ⟨_, rfl, rfl, rfl, rfl⟩
  | w2 => obtain ⟨rfl, rfl, rfl⟩ := h; exact .inl ⟨_, rfl, rfl, rfl, rfl, rfl⟩
  | w3 =>
    obtain ⟨rfl, rfl, rfl, rfl⟩ := h
    exact .inr (if_pos (indexFull_iff.2 hfull))
  | _ => exact h.elim

/-- Held MAIN with its write behind it, refused or rejected, stands before it again. -/
theorem HangInv.of_idle {s t : State} (h : HangInv s) (ha : t.agenda = s.agenda)
    (hk : t.block = s.block) (hl : t.loop = s.loop) (hm : t.mainOp = none) : HangInv t := by
  obtain ⟨hs, blk, a, b, hp, hb, hfull, -⟩ := h
  exact ⟨ha.trans hs, blk, a, b, hl ▸ hp, hb, hk ▸ hfull, .inl hm⟩

/-- The step of a held MAIN: it begins its write or is refused it, goes on with it, or is rejected. -/
theorem HangInv.step {s : State} {c : Config.Entry} (hc : s.block.cfg = some c) (h : HangInv s) :
    ∃ t, step s = .next t ∧ HangInv t ∧ t.block = s.block ∧ t.loop = s.loop := by
  obtain ⟨ha, blk, a, b, hp, hb, hfull, hm | ⟨m, hm, hheld⟩⟩ := id h
  · have hstep := step_issueOp hc ha hm (MainLoop.nextOp_tx hp hb)
    rcases issueOp_cases .loop (.rbWrite (txRing blk.dest) b) s with ⟨m, hf, -, hi⟩ | ⟨-, hi⟩ <;>
      rw [hi] at hstep
    · cases hf
      exact ⟨_, hstep, ⟨ha, blk, a, b, hp, hb, hfull, .inr ⟨_, rfl, rfl, rfl⟩⟩, rfl, rfl⟩
    · have hloop := (s.refuse .main (.rbWrite (txRing blk.dest) b)).deliver_refused_loop .loop
      exact ⟨_, hstep, h.of_idle rfl rfl hloop hm, rfl, hloop⟩
  · rcases hheld.microStep hfull s.activeCfg.bitInvert with ⟨m', e, hheld'⟩ | e
    · exact ⟨_, step_more hc ha hm e, ⟨ha, blk, a, b, hp, hb, hfull, .inr ⟨m', rfl, hheld'⟩⟩,
        rfl, rfl⟩
    · have hloop : (finishOp ⟨m, .loop⟩ (.ok false) (writeCondition false) s.block s).loop = s.loop :=
        MainLoop.advance_tx_rejected hp s.params
      exact ⟨_, step_done hc ha hm e rfl, h.of_idle rfl rfl hloop rfl, rfl, hloop⟩

theorem Hangs.hangInv {s : State} (h : Hangs s) : HangInv s := by
  obtain ⟨⟨blk, a, hp, hi, hfull⟩, hm, ha⟩ := h
  exact ⟨ha, blk, a, blk.bytes[blk.i], hp, List.getElem?_eq_getElem hi, hfull, .inl hm⟩

/-- Any number of steps of a held MAIN. -/
theorem HangInv.runSteps {c : Config.Entry} (n : Nat) : ∀ {s : State}, s.block.cfg = some c →
    HangInv s → ∃ t, runSteps n s = .next t ∧ t.block = s.block ∧ t.loop = s.loop := by
  induction n with
  | zero => exact fun _ _ => ⟨_, rfl, rfl, rfl⟩
  | succ n ih =>
    intro s hc h
    obtain ⟨t, hstep, ht, hblock, hloop⟩ := h.step hc
    obtain ⟨u, hrun, hblock', hloop'⟩ := ih (by rw [hblock]; exact hc) ht
    exact ⟨u, runSteps_succ hstep hrun, hblock'.trans hblock, hloop'.trans hloop⟩

/-- Settles O55: `HangInv.step`, along a run of any length. -/
theorem heldMainHangsForEver : Obligations.HeldMainHangsForEver :=
  ⟨fun _ _ hc h => h.step hc, fun _ h => h.hangInv, fun _ _ hc h n => h.hangInv.runSteps n hc⟩

end Sys2Proof.Machine
end

section
/-! PROOFS. MAIN alone on the machine: each operation of its loop taken from the operation run whole, and a
TX.BLOCK with room for its bytes (43_environment_software.md rule R158). -/

namespace Sys2Proof.Machine

/-! ## MAIN alone -/

/-- MAIN is between two operations of its loop, no turn is to come, and the booted block meets its
invariant; `q` are the arguments. -/
structure Alone (c : Config.Entry) (q : Params) (s : State) : Prop where
  cfg : s.block.cfg = some c
  params : s.params = q
  agenda : s.agenda = []
  idle : s.mainOp = none
  inv : s.block.Inv

section MainAlone

variable {c : Config.Entry} {q : Params} {s : State}

/-- The operation of MAIN's position, run whole, and its response taken by the loop. -/
theorem Alone.operation {i : Instr} {k : Block} {resp : Response} {x : Option Condition}
    (h : Alone c q s) (hi : s.loop.nextOp = some i) (hmay : s.mayIssue .main i = true)
    (hhome : homeIface i = .mainLoop)
    (e : performAs .main i s = .next ((s.withBlock k).answer .main (some i) resp x)) :
    ∃ t, Reaches s t ∧ Alone c q t ∧ t.block = k ∧ t.loop = s.loop.advance q resp := by
  obtain ⟨hc, hq, ha, hn, hk⟩ := h
  obtain ⟨resp', x', hans, hreach⟩ :=
    reaches_loopOp hc ha hn hmay hk.cnt_le hi ((performAs_and_exec hhome e).2 rfl)
  obtain ⟨rfl, -⟩ : resp = resp' ∧ x = x' := by simpa using hans
  have hk' := performAs_blockInv hk e
  have hc' := (Keeps.of_performAs e).cfg.trans hc
  subst hq
  exact ⟨_, hreach, ⟨hc', rfl, ha, hn, hk'⟩, rfl, rfl⟩

/-- The local step of MAIN's position. -/
theorem Alone.control (h : Alone c q s) (hi : s.loop.nextOp = none) :
    ∃ t, Reaches s t ∧ Alone c q t ∧ t.block = s.block ∧ t.loop = s.loop.control := by
  obtain ⟨hc, hq, ha, hn, hk⟩ := h
  exact ⟨_, .head (step_control hc ha hn hi) (.refl _), ⟨hc, hq, ha, hn, hk⟩, rfl, rfl⟩

end MainAlone

/-! ## Bytes appended to a ring -/

/-- From block `k` to block `k'` the bytes are appended to ring `r`; the other rings and the parsers are the
same. -/
structure Appends (r : RingId) (bytes : List Byte) (k k' : Block) : Prop where
  content : k'.content r = k.content r ++ bytes
  ring : ∀ r', r' ≠ r → k'.ring r' = k.ring r'
  parser : ∀ p, k'.parser p = k.parser p

theorem Appends.refl (r : RingId) (k : Block) : Appends r [] k k :=
  ⟨(List.append_nil _).symm, fun _ _ => rfl, fun _ => rfl⟩

theorem Appends.trans {r : RingId} {xs ys : List Byte} {k k' k'' : Block} (h : Appends r xs k k')
    (h' : Appends r ys k' k'') : Appends r (xs ++ ys) k k'' :=
  ⟨by rw [h'.content, h.content, List.append_assoc],
    fun r' n => (h'.ring r' n).trans (h.ring r' n), fun p => (h'.parser p).trans (h.parser p)⟩

theorem Appends.rbWrite {r : RingId} {k : Block} (hk : k.Inv) (b : Byte)
    (h : k.cnt r ≠ Config.capacity) : Appends r [b] k (rbWrite r b k).1 := by
  obtain ⟨hring, -, -, hport, -⟩ := rbWrite_frame r b k
  exact ⟨rbWrite_room_content (hk.1 r) h, hring, fun p => (hport p).1⟩

/-- Under the invariant the count grows by the bytes appended. -/
theorem Appends.cnt {r : RingId} {bytes : List Byte} {k k' : Block} (h : Appends r bytes k k')
    (hk : k.Inv) (hk' : k'.Inv) : k'.cnt r = k.cnt r + bytes.length := by
  rw [← hk'.content_length, h.content, List.length_append, hk.content_length]

/-! ## TX.BLOCK (rule R158) -/

/-- B2: an accepted write moves MAIN on to the next byte. -/
theorem MainLoop.advance_tx_accepted {l : MainLoop} {blk : TxBlock} {a : AfterTx}
    (hp : l.point = .tx blk a) (q : Params) :
    l.advance q (.ok true) = { l with point := .tx { blk with i := blk.i + 1 } a } := by
  simp only [advance, hp]

theorem MainLoop.nextOp_tx_end {l : MainLoop} {blk : TxBlock} {a : AfterTx}
    (hp : l.point = .tx blk a) (hi : blk.bytes.length ≤ blk.i) : l.nextOp = none := by
  simp [nextOp, hp, hi]

section Block

variable {c : Config.Entry} {q : Params} {d : Port} {a : AfterTx}

/-- One byte of a TX.BLOCK, with room for it. -/
theorem Alone.writeByte {s : State} {blk : TxBlock} {b : Byte} (h : Alone c q s)
    (hprod : producer q.harness (txRing blk.dest) = .main) (hp : s.loop.point = .tx blk a)
    (hb : blk.bytes[blk.i]? = some b) (hroom : s.block.cnt (txRing blk.dest) ≠ Config.capacity) :
    ∃ t, Reaches s t ∧ Alone c q t ∧ Appends (txRing blk.dest) [b] s.block t.block ∧
      t.loop = { s.loop with point := .tx { blk with i := blk.i + 1 } a } := by
  have hprod' : Agent.main = s.producer (txRing blk.dest) := by
    rw [State.producer, h.params, hprod]
  obtain ⟨t, hreach, ht, hblock, hloop⟩ := h.operation (MainLoop.nextOp_tx hp hb)
    (by simpa using hprod') rfl (performAs_rbWrite_room hprod' hroom)
  exact ⟨t, hreach, ht, hblock ▸ .rbWrite h.inv b hroom,
    hloop.trans (MainLoop.advance_tx_accepted hp q)⟩

/-- The bytes of a TX.BLOCK that are still to be written, with room for them. -/
theorem Alone.writeRest (hprod : producer q.harness (txRing d) = .main) (rest : List Byte) :
    ∀ {s : State} {sent : List Byte}, Alone c q s →
      s.loop.point = .tx ⟨d, sent ++ rest, sent.length⟩ a →
      s.block.cnt (txRing d) + rest.length ≤ Config.capacity →
      ∃ t, Reaches s t ∧ Alone c q t ∧ Appends (txRing d) rest s.block t.block ∧
        t.loop = { s.loop with point := .tx ⟨d, sent ++ rest, (sent ++ rest).length⟩ a } := by
  induction rest with
  | nil =>
    intro s sent h hp _
    refine ⟨s, .refl s, h, .refl _ _, ?_⟩
    rw [List.append_nil] at hp ⊢
    rw [← hp]
  | cons b rest ih =>
    intro s sent h hp hroom
    rw [List.length_cons] at hroom
    obtain ⟨t, hst, ht, happ, hloop⟩ := h.writeByte (b := b) hprod hp (by simp)
      (Nat.ne_of_lt (by omega : s.block.cnt (txRing d) < Config.capacity))
    have hcnt := happ.cnt h.inv ht.inv
    obtain ⟨u, htu, hu, happ', hloop'⟩ := ih (sent := sent ++ [b]) ht (by simp [hloop])
      (by rw [hcnt]; simp only [List.length_singleton]; omega)
    refine ⟨u, hst.trans htu, hu, happ.trans happ', ?_⟩
    simp [hloop', hloop]

/-- A whole TX.BLOCK, with room for its bytes. -/
theorem Alone.txBlock {s : State} {bytes : List Byte} (h : Alone c q s)
    (hprod : producer q.harness (txRing d) = .main) (hp : s.loop.point = .tx ⟨d, bytes, 0⟩ a)
    (hroom : s.block.cnt (txRing d) + bytes.length ≤ Config.capacity) :
    ∃ t, Reaches s t ∧ Alone c q t ∧ Appends (txRing d) bytes s.block t.block ∧
      t.loop = { s.loop with point := .tx ⟨d, bytes, bytes.length⟩ a } :=
  Alone.writeRest hprod bytes (sent := []) h hp hroom

/-- A whole TX.BLOCK and its return. -/
theorem Alone.txBlock_return {s : State} {bytes : List Byte} (h : Alone c q s)
    (hprod : producer q.harness (txRing d) = .main) (hp : s.loop.point = .tx ⟨d, bytes, 0⟩ a)
    (hroom : s.block.cnt (txRing d) + bytes.length ≤ Config.capacity) :
    ∃ t, Reaches s t ∧ Alone c q t ∧ Appends (txRing d) bytes s.block t.block ∧
      t.loop = { s.loop with point := .tx ⟨d, bytes, bytes.length⟩ a }.control := by
  obtain ⟨t, hst, ht, happ, hloop⟩ := h.txBlock hprod hp hroom
  obtain ⟨u, htu, hu, hblock, hloop'⟩ := ht.control
    (MainLoop.nextOp_tx_end (congrArg MainLoop.point hloop) le_rfl)
  exact ⟨u, hst.trans htu, hu, hblock ▸ happ, hloop'.trans (congrArg _ hloop)⟩

end Block

/-- Settles O54: `Alone.txBlock`, from the block's first byte. -/
theorem txBlockFillsRingInOrder : Obligations.TxBlockFillsRingInOrder := by
  rintro s c ⟨d, bytes, i⟩ a hc ⟨hk, -⟩ hn ha hp hprod rfl hroom
  obtain ⟨t, hst, ht, happ, hloop⟩ :=
    Alone.txBlock (c := c) (q := s.params) ⟨hc, rfl, ha, hn, hk⟩ hprod hp hroom
  exact ⟨t, hst, ht.idle, hloop, happ.content, happ.ring⟩

end Sys2Proof.Machine
end

section
/-! PROOFS. A whole RELAY.POLL of MAIN alone on the machine: of a full source ring, and of one that is not, in
either mode (43_environment_software.md rules R164, R165). -/

namespace Sys2Proof.Machine

/-! ## L1, L2 and L4 (rule R164) -/

/-- From block `k` to block `k'` ring `r` is read empty; the other rings and the parsers are the same. -/
structure Drains (r : RingId) (k k' : Block) : Prop where
  content : k'.content r = []
  ring : ∀ r', r' ≠ r → k'.ring r' = k.ring r'
  parser : ∀ p, k'.parser p = k.parser p

theorem Drains.of_empty {r : RingId} {k : Block} (h : k.content r = []) : Drains r k k :=
  ⟨h, fun _ _ => rfl, fun _ => rfl⟩

/-- A read of as many bytes as are queued returns the content and leaves the ring empty. -/
theorem Drains.exists_rbRead {r : RingId} {k : Block} (hk : k.Inv) :
    ∃ k', rbRead r (k.cnt r) k = .ok (k', k.content r) ∧ Drains r k k' := by
  have hlen := hk.content_length r
  have e := rbRead_eq (k.cnt r) (hk.1 r).2.1
  obtain ⟨-, hcontent⟩ := rbRead_content hk e
  rw [List.take_of_length_le hlen.le] at e
  exact ⟨_, e, hcontent.trans (List.drop_of_length_le hlen.le),
    fun _ => Block.ring_setHead_ne k _, Block.setHead_parser k r _⟩

theorem Drains.content_ne {r r' : RingId} {k k' : Block} (h : Drains r k k') (n : r' ≠ r) :
    k'.content r' = k.content r' := Block.content_congr (h.ring r' n)

theorem Drains.cnt_ne {r r' : RingId} {k k' : Block} (h : Drains r k k') (n : r' ≠ r) :
    k'.cnt r' = k.cnt r' := congrArg Ring.cnt (h.ring r' n)

section Poll

variable {c : Config.Entry} {q : Params} {s : State}

/-- L1: RB.ISFULL of the source ring. -/
theorem Alone.isFull (h : Alone c q s) (hcons : consumer q.harness s.loop.srcRing = .main)
    (hp : s.loop.point = .l1) :
    ∃ t, Reaches s t ∧ Alone c q t ∧ t.block = s.block ∧
      t.loop = s.loop.advance q (.isFull (rbIsfull s.loop.srcRing s.block)) := by
  have hcons' : Agent.main = s.consumer s.loop.srcRing := by rw [State.consumer, h.params, hcons]
  exact h.operation (by simp [MainLoop.nextOp, hp]) (by simp [← hcons']) rfl
    (performAs_rbIsfull (.inr hcons'))

/-- L2: RB.COUNT of the source ring. -/
theorem Alone.count (h : Alone c q s) (hcons : consumer q.harness s.loop.srcRing = .main)
    (hp : s.loop.point = .l2) :
    ∃ t, Reaches s t ∧ Alone c q t ∧ t.block = s.block ∧
      t.loop = s.loop.advance q (.count (s.block.cnt s.loop.srcRing)) := by
  have hcons' : Agent.main = s.consumer s.loop.srcRing := by rw [State.consumer, h.params, hcons]
  exact h.operation (by simp [MainLoop.nextOp, hp]) (by simp [← hcons']) rfl
    (performAs_rbCount (.inr hcons'))

/-- L4: RB.READ of the bytes counted, with none come since. -/
theorem Alone.readAll (h : Alone c q s) (hcons : consumer q.harness s.loop.srcRing = .main)
    (hp : s.loop.point = .l4) (hn : s.loop.snapshot = s.block.cnt s.loop.srcRing) :
    ∃ t, Reaches s t ∧ Alone c q t ∧ Drains s.loop.srcRing s.block t.block ∧
      t.loop = s.loop.afterRead q s.loop.snapshot (s.block.content s.loop.srcRing) := by
  have hcons' : Agent.main = s.consumer s.loop.srcRing := by rw [State.consumer, h.params, hcons]
  obtain ⟨k, e, hdrains⟩ := Drains.exists_rbRead (r := s.loop.srcRing) h.inv
  obtain ⟨t, hst, ht, rfl, hloop⟩ := h.operation
    (by rw [MainLoop.nextOp, hp, hn]) (by simpa using hcons') rfl (performAs_rbRead hcons' e)
  refine ⟨t, hst, ht, hdrains, hloop.trans ?_⟩
  rw [h.inv.content_length, ← hn]
  simp only [MainLoop.advance, hp]

/-- L1 to L4 of a poll of a ring that is not full: the ring is read empty, and the poll has returned, if
there was nothing to read, or stands behind L4. -/
theorem Alone.drain (h : Alone c q s) (hcons : consumer q.harness s.loop.srcRing = .main)
    (hp : s.loop.point = .l1) (hfull : s.block.cnt s.loop.srcRing ≠ Config.capacity) :
    ∃ t, Reaches s t ∧ Alone c q t ∧ Drains s.loop.srcRing s.block t.block ∧
      (s.block.content s.loop.srcRing = [] ∧ PollReturns s.loop .success t.loop ∨
        t.loop = MainLoop.afterRead
          { s.loop with snapshot := s.block.cnt s.loop.srcRing, point := .l4 } q
          (s.block.cnt s.loop.srcRing) (s.block.content s.loop.srcRing)) := by
  have hl1 : rbIsfull s.loop.srcRing s.block = false :=
    Bool.eq_false_iff.2 fun e => hfull (indexFull_iff.1 e)
  obtain ⟨t, hst, ht, htk, htl⟩ := h.isFull hcons hp
  have htl2 : t.loop = { s.loop with point := .l2 } := by
    simp only [htl, hl1, MainLoop.advance, hp]
  have hring : t.loop.srcRing = s.loop.srcRing := by rw [htl2]; rfl
  obtain ⟨u, htu, hu, huk, hul⟩ := ht.count (hring ▸ hcons) (congrArg MainLoop.point htl2)
  rw [hring, htk, htl2] at hul
  rw [htk] at huk
  by_cases hempty : s.block.cnt s.loop.srcRing = 0
  · have hnil : s.block.content s.loop.srcRing = [] :=
      List.eq_nil_of_length_eq_zero ((h.inv.content_length _).trans hempty)
    refine ⟨u, hst.trans htu, hu, huk.symm ▸ .of_empty hnil, .inl ⟨hnil, ?_⟩⟩
    simp only [hul, MainLoop.advance, hempty, if_true]
    exact MainLoop.endPoll_returns ..
  · have hul4 : u.loop =
        { s.loop with snapshot := s.block.cnt s.loop.srcRing, point := .l4 } := by
      simp only [hul, MainLoop.advance, hempty, if_false]
    have hring' : u.loop.srcRing = s.loop.srcRing := by rw [hul4]; rfl
    obtain ⟨v, huv, hv, hdrains, hvl⟩ := hu.readAll (hring' ▸ hcons) (congrArg MainLoop.point hul4)
      (by rw [hring', huk, hul4])
    rw [hring', huk] at hdrains hvl
    exact ⟨v, hst.trans (htu.trans huv), hv, hdrains, .inr (by rw [hvl, hul4])⟩

end Poll

/-! ## A full source ring (rules R164 L1, R165) -/

theorem errorFrame_length (n : Config.EtxCount) (text : List Byte) :
    (errorFrame n text).length ≤ text.length + 3 := by
  cases n <;> simp [errorFrame, etxBytes]

theorem srcRing_ne_txRing (l : MainLoop) (p : Port) : l.srcRing ≠ txRing p := by
  simp [MainLoop.srcRing]

/-- Settles O56: L1's answer leads to ERR.SEND, whose TX.BLOCK has room. -/
theorem pollOfFullRingReportsOnce : Obligations.PollOfFullRingReportsOnce := by
  intro s c hc ⟨hk, _⟩ hn ha hp hcons hprod hfull hroom
  obtain ⟨t, hst, ht, htk, htl⟩ :=
    Alone.isFull (c := c) (q := s.params) ⟨hc, rfl, ha, hn, hk⟩ hcons hp
  have hl1 : rbIsfull s.loop.srcRing s.block = true := indexFull_iff.2 hfull
  replace htl : t.loop = { s.loop with
      point := errSend s.params fullErrorText .ringBufferOverflow } := by
    simp only [htl, hl1, MainLoop.advance, hp]
  have hlen : (errorFrame s.params.errEtxCount fullErrorText).length ≤ 24 := errorFrame_length ..
  obtain ⟨u, htu, hu, happ, hul⟩ := ht.txBlock_return hprod (congrArg MainLoop.point htl)
    (by rw [htk]; simp only [Config.capacity]; omega)
  rw [htk] at happ
  obtain ⟨hsrc, hpoint, hlast⟩ : PollReturns s.loop (.failure .ringBufferOverflow) u.loop := by
    rw [hul, htl]
    exact MainLoop.endPoll_returns ..
  exact ⟨u, hst.trans htu, hu.idle, hpoint, hsrc, hlast, happ.ring _ (srcRing_ne_txRing _ _),
    happ.content⟩

/-! ## Passthrough mode (rules R164 L6, R170) -/

theorem MainLoop.afterRead_passthrough {l : MainLoop} {q : Params} {n : Nat}
    (hmode : q.relayMode = .passthrough) (hn : n = l.snapshot) (bytes : List Byte) :
    l.afterRead q n bytes =
      { l with scratch := bytes, point := .tx ⟨.pc, bytes, 0⟩ (.endPoll .success) } := by
  simp only [afterRead, if_pos hn, hmode]

/-- Settles O57: the bytes read are the TX.BLOCK of L6. -/
theorem passthroughPollRelaysAllBytes : Obligations.PassthroughPollRelaysAllBytes := by
  intro s c hc ⟨hk, _⟩ hn ha hp hcons hprod hmode hfull hroom
  have hne := srcRing_ne_txRing s.loop .pc
  obtain ⟨t, hst, ht, hdrains, ⟨hnil, hsrc, hpoint, hlast⟩ | htl⟩ :=
    Alone.drain (c := c) (q := s.params) ⟨hc, rfl, ha, hn, hk⟩ hcons hp hfull
  · exact ⟨t, hst, ht.idle, hpoint, hsrc, hlast, hdrains.content,
      by rw [hdrains.content_ne hne.symm, hnil, List.append_nil], hdrains.parser⟩
  · rw [MainLoop.afterRead_passthrough hmode rfl] at htl
    obtain ⟨u, htu, hu, happ, hul⟩ := ht.txBlock_return hprod (congrArg MainLoop.point htl)
      (by rw [hdrains.cnt_ne hne.symm, hk.content_length]; exact hroom)
    obtain ⟨hsrc, hpoint, hlast⟩ : PollReturns s.loop .success u.loop := by
      rw [hul, htl]
      exact MainLoop.endPoll_returns ..
    refine ⟨u, hst.trans htu, hu.idle, hpoint, hsrc, hlast, ?_, ?_,
      fun p => (happ.parser p).trans (hdrains.parser p)⟩
    · rw [Block.content_congr (happ.ring _ hne), hdrains.content]
    · rw [happ.content, hdrains.content_ne hne.symm]

/-! ## Framed mode (rules R164 L7, R148) -/

theorem MainLoop.afterRead_framed {l : MainLoop} {q : Params} {n : Nat}
    (hmode : q.relayMode = .framed) (hn : n = l.snapshot) (bytes : List Byte) :
    l.afterRead q n bytes = { l with scratch := bytes, point := .l7 0 } := by
  simp only [afterRead, if_pos hn, hmode]

/-- From block `k` to block `k'` the parser of port `p` becomes `pr` and the frames are appended to the PC
ring; the other rings are the same. -/
structure Relays (p : Port) (pr : Parser) (frames : List (List Byte)) (k k' : Block) : Prop where
  parser : k'.parser p = pr
  content : k'.content (txRing .pc) = k.content (txRing .pc) ++ frames.flatten
  ring : ∀ r, r ≠ txRing .pc → k'.ring r = k.ring r

theorem Relays.trans {p : Port} {pr pr' : Parser} {fs fs' : List (List Byte)} {k k' k'' : Block}
    (h : Relays p pr fs k k') (h' : Relays p pr' fs' k' k'') : Relays p pr' (fs ++ fs') k k'' :=
  ⟨h'.parser, by rw [h'.content, h.content, List.append_assoc, List.flatten_append],
    fun r n => (h'.ring r n).trans (h.ring r n)⟩

theorem Relays.setParser (p : Port) (pr : Parser) (k : Block) :
    Relays p pr [] k (k.setParser p pr) :=
  ⟨Block.parser_setParser_same .., (List.append_nil _).symm, fun _ _ => rfl⟩

theorem Relays.send {p : Port} {frame : List Byte} {k k' : Block}
    (h : Appends (txRing .pc) frame k k') : Relays p (k.parser p) [frame] k k' :=
  ⟨h.parser p, by rw [h.content, List.flatten_singleton], h.ring⟩

theorem Relays.cnt {p : Port} {pr : Parser} {fs : List (List Byte)} {k k' : Block}
    (h : Relays p pr fs k k') (hk : k.Inv) (hk' : k'.Inv) :
    k'.cnt (txRing .pc) = k.cnt (txRing .pc) + fs.flatten.length := by
  rw [← hk'.content_length, h.content, List.length_append, hk.content_length]

section Framed

variable {c : Config.Entry} {q : Params}

/-- L7 for one byte: it is fed to the source's parser, and the frame emitted, if any, is sent. -/
theorem Alone.feedByte {s : State} {i : Nat} {raw : Byte} {pr : Parser} {o : Option (List Byte)}
    (h : Alone c q s) (hprod : producer q.harness (txRing .pc) = .main)
    (hp : s.loop.point = .l7 i) (hraw : s.loop.scratch[i]? = some raw)
    (e : feedParser (sourcePort s.loop.src) (Machine.feedByte c.bitInvert raw)
      (s.block.parser (sourcePort s.loop.src)) = .ok (pr, o))
    (hroom : s.block.cnt (txRing .pc) + o.toList.flatten.length ≤ Config.capacity) :
    ∃ t, Reaches s t ∧ Alone c q t ∧ Relays (sourcePort s.loop.src) pr o.toList s.block t.block ∧
      t.loop = { s.loop with point := .l7 (i + 1) } := by
  rw [← fedByte_of_cfg h.cfg] at e
  obtain ⟨t, hst, ht, htk, htl⟩ := h.operation (by simp [MainLoop.nextOp, hp, hraw]) rfl rfl
    (performAs_fpFeed e)
  have hfed := Relays.setParser (sourcePort s.loop.src) pr s.block
  rw [← htk] at hfed
  cases o with
  | none => exact ⟨t, hst, ht, hfed, by simp only [htl, frameResponse, MainLoop.advance, hp]⟩
  | some frame =>
    simp only [frameResponse, MainLoop.advance, hp] at htl
    obtain ⟨u, htu, hu, happ, hul⟩ := ht.txBlock_return hprod (congrArg MainLoop.point htl)
      (by rw [hfed.cnt h.inv ht.inv]; simpa using hroom)
    refine ⟨u, hst.trans htu, hu, ?_, by rw [hul, htl]; rfl⟩
    have hsent := hfed.trans (.send happ)
    rwa [hfed.parser] at hsent

/-- L7 for the bytes of the scratch buffer that are still to be fed. -/
theorem Alone.feedRest (hprod : producer q.harness (txRing .pc) = .main) (rest : List Byte) :
    ∀ {s : State} {fed : List Byte} {pr : Parser} {frames : List (List Byte)}, Alone c q s →
      s.loop.scratch = fed ++ rest → s.loop.point = .l7 fed.length →
      feedAll (sourcePort s.loop.src) c.bitInvert rest (s.block.parser (sourcePort s.loop.src)) =
        .ok (pr, frames) →
      s.block.cnt (txRing .pc) + frames.flatten.length ≤ Config.capacity →
      ∃ t, Reaches s t ∧ Alone c q t ∧ Relays (sourcePort s.loop.src) pr frames s.block t.block ∧
        t.loop = { s.loop with point := .l7 s.loop.scratch.length } := by
  induction rest with
  | nil =>
    intro s fed pr frames h hscratch hp e _
    cases e
    refine ⟨s, .refl s, h, ⟨rfl, (List.append_nil _).symm, fun _ _ => rfl⟩, ?_⟩
    rw [hscratch, List.append_nil, ← hp]
  | cons raw rest ih =>
    intro s fed pr frames h hscratch hp e hroom
    obtain ⟨pr', o, frames', e', erest, rfl⟩ := feedAll_cons_ok e
    rw [List.flatten_append, List.length_append] at hroom
    obtain ⟨t, hst, ht, hrel, htl⟩ := h.feedByte hprod hp (by simp [hscratch]) e' (by omega)
    have hsrc : t.loop.src = s.loop.src := by rw [htl]
    obtain ⟨u, htu, hu, hrel', hul⟩ := ih (fed := fed ++ [raw]) ht (by simp [htl, hscratch])
      (by simp [htl]) (by rw [hsrc, hrel.parser]; exact erest)
      (by rw [hrel.cnt h.inv ht.inv]; omega)
    rw [hsrc] at hrel'
    exact ⟨u, hst.trans htu, hu, hrel.trans hrel', by rw [hul, htl]⟩

/-- L7 and L8: the whole scratch buffer is fed, and the poll returns. -/
theorem Alone.feedScratch {s : State} {pr : Parser} {frames : List (List Byte)} (h : Alone c q s)
    (hprod : producer q.harness (txRing .pc) = .main) (hp : s.loop.point = .l7 0)
    (e : feedAll (sourcePort s.loop.src) c.bitInvert s.loop.scratch
      (s.block.parser (sourcePort s.loop.src)) = .ok (pr, frames))
    (hroom : s.block.cnt (txRing .pc) + frames.flatten.length ≤ Config.capacity) :
    ∃ t, Reaches s t ∧ Alone c q t ∧ Relays (sourcePort s.loop.src) pr frames s.block t.block ∧
      PollReturns s.loop .success t.loop := by
  obtain ⟨t, hst, ht, hrel, htl⟩ := Alone.feedRest hprod s.loop.scratch (fed := []) h rfl hp e hroom
  obtain ⟨u, htu, hu, huk, hul⟩ := ht.control (by simp [MainLoop.nextOp, htl])
  rw [htl] at hul
  exact ⟨u, hst.trans htu, hu, huk.symm ▸ hrel, by rw [hul]; exact MainLoop.endPoll_returns ..⟩

end Framed

/-- Settles O58: the bytes read are fed one by one, each frame emitted being sent before the next byte. -/
theorem framedPollRelaysFrames : Obligations.FramedPollRelaysFrames := by
  intro s c pr frames hc ⟨hk, _⟩ hn ha hp hcons hprod hmode hfull e hroom
  have hne := srcRing_ne_txRing s.loop .pc
  obtain ⟨t, hst, ht, hdrains, ⟨hnil, hsrc, hpoint, hlast⟩ | htl⟩ :=
    Alone.drain (c := c) (q := s.params) ⟨hc, rfl, ha, hn, hk⟩ hcons hp hfull
  · rw [hnil] at e
    cases e
    exact ⟨t, hst, ht.idle, hpoint, hsrc, hlast, hdrains.content, hdrains.parser _,
      by rw [hdrains.content_ne hne.symm, List.flatten_nil, List.append_nil]⟩
  · rw [MainLoop.afterRead_framed hmode rfl] at htl
    have hsrc : t.loop.src = s.loop.src := by rw [htl]
    have hscratch : t.loop.scratch = s.block.content s.loop.srcRing := by rw [htl]
    obtain ⟨u, htu, hu, hrel, hreturn⟩ := ht.feedScratch hprod (congrArg MainLoop.point htl)
      (by rw [hsrc, hscratch, hdrains.parser]; exact e)
      (by rw [hdrains.cnt_ne hne.symm]; exact hroom)
    rw [hsrc] at hrel
    obtain ⟨hnext, hpoint, hlast⟩ := hreturn
    rw [hsrc] at hnext hlast
    refine ⟨u, hst.trans htu, hu.idle, hpoint, hnext, hlast, ?_, hrel.parser, ?_⟩
    · rw [Block.content_congr (hrel.ring _ hne), hdrains.content]
    · rw [hrel.content, hdrains.content_ne hne.symm]

end Sys2Proof.Machine
end

section
/-! PROOFS. While MAIN runs only its loop, a poll reads all that it counted: what arrives only adds to the
ring it drains, and MAIN alone takes from it (60_exceptions.md rule R184, 40_ringbuffer.md rule
R112 (d)). -/

namespace Sys2Proof.Machine

/-- The part of `RelayInv` that is about the poll: its snapshot is queued at L4, MAIN's read is served, and no
mismatch is reported. -/
def PollServed (s : State) : Prop :=
  (s.loop.point = .l4 → s.loop.snapshot ≤ s.block.cnt s.loop.srcRing) ∧
  (∀ op, s.mainOp = some op → readServed s.block op.micro) ∧ noMismatch s.loop

theorem relayInv_iff {s : State} :
    RelayInv s ↔ s.Inv ∧ s.systemOnly ∧ ownOp s ∧ PollServed s := Iff.rfl

/-! ## No mismatch is reported -/

/-- MAIN moves to a point that reports no mismatch, without a result. -/
theorem noMismatch.moves {l l' : MainLoop} (h : noMismatch l) (hlast : l'.lastPoll = l.lastPoll)
    (hpoint : ∀ blk, l'.point ≠ .tx blk (.endPoll (.failure .readSizeMismatch))) : noMismatch l' :=
  let ⟨_, hlast'⟩ := h
  ⟨hpoint, hlast ▸ hlast'⟩

theorem noMismatch.endPoll {l : MainLoop} {res : PollResult} (h : res ≠ .failure .readSizeMismatch) :
    noMismatch (l.endPoll res) := by
  refine ⟨nofun, fun src hlast => h ?_⟩
  cases hlast
  rfl

/-- L5 reports none when the read of L4 returns the whole snapshot (rule R164). -/
theorem noMismatch.advance {l : MainLoop} (h : noMismatch l) (q : Params) {resp : Response}
    (hread : ∀ n bs, l.point = .l4 → resp = .read n bs → n = l.snapshot) :
    noMismatch (l.advance q resp) := by
  unfold MainLoop.advance
  split
  · exact h.moves rfl nofun
  · exact h.moves rfl nofun
  · split
    · exact .endPoll nofun
    · exact h.moves rfl nofun
  · next n bs hp =>
    rw [MainLoop.afterRead, if_pos (hread n bs hp rfl)]
    split <;> exact h.moves rfl nofun
  · exact h.moves rfl nofun
  · exact h.moves rfl nofun
  · next blk a hp =>
    have ⟨hpoint, _⟩ := h
    refine h.moves rfl fun blk' h' => hpoint blk ?_
    cases h'
    exact hp
  · exact h
  · exact h

theorem noMismatch.control {l : MainLoop} (h : noMismatch l) : noMismatch l.control := by
  unfold MainLoop.control
  split
  · exact .endPoll nofun
  · next blk res hp =>
    obtain ⟨hpoint, -⟩ := h
    exact .endPoll fun hres => hpoint blk (hres ▸ hp)
  · exact h.moves rfl nofun
  · exact h
  · exact h
  · exact h

/-! ## Coming to L4 -/

/-- MAIN reads at L4 only, and there its whole snapshot of the ring it drains (rule R164). -/
theorem MainLoop.nextOp_rbRead_iff {l : MainLoop} {r : RingId} {n : Nat} :
    l.nextOp = some (.rbRead r n) ↔ l.point = .l4 ∧ r = l.srcRing ∧ n = l.snapshot := by
  constructor
  · intro h
    rcases nextOp_cases h with ⟨-, hi⟩ | ⟨-, hi⟩ | ⟨hp, hi⟩ | ⟨j, b, -, hi⟩ | ⟨blk, a, b, -, hi⟩ <;>
      cases hi
    exact ⟨hp, rfl, rfl⟩
  · rintro ⟨hp, rfl, rfl⟩
    simp only [nextOp, hp]

theorem MainLoop.nextOp_l2 {l : MainLoop} (hp : l.point = .l2) :
    l.nextOp = some (.rbCount l.srcRing) := by
  simp only [nextOp, hp]

/-- MAIN is at L4 after a response when it was there and got no bytes, or the count of L2 led it there. -/
theorem MainLoop.advance_l4 {l : MainLoop} {q : Params} {resp : Response}
    (h : (l.advance q resp).point = .l4) :
    (l.point = .l4 ∧ ∀ n bs, resp ≠ .read n bs) ∨
      (l.point = .l2 ∧ ∃ c, resp = .count c ∧
        l.advance q resp = { l with snapshot := c, point := .l4 }) := by
  unfold MainLoop.advance at h ⊢
  split at h
  · cases h
  · cases h
  · next c hp =>
    split at h
    · cases h
    · next hc => exact .inr ⟨hp, c, rfl, by simp only [hp, hc, if_false]⟩
  · unfold MainLoop.afterRead at h
    split at h
    · split at h <;> cases h
    · cases h
  · cases h
  · cases h
  · cases h
  · next hp => cases hp.symm.trans h
  · next hread _ _ _ _ => exact .inl ⟨h, fun n bs => hread n bs h⟩

/-- L4 issues an operation, and no local step leads there. -/
theorem MainLoop.control_ne_l4 {l : MainLoop} (hn : l.nextOp = none) : l.control.point ≠ .l4 := by
  unfold MainLoop.control
  split
  · nofun
  · nofun
  · nofun
  · next hp => simp [hp]
  · next hp => simp [hp]
  · next hp => simp [MainLoop.nextOp, hp] at hn

/-! ## The micro-steps of RB.READ and RB.COUNT (rules R103, R105) -/

section Micro

variable {inv : Bool} {m m' : Micro} {r : RingId} {n : Nat} {resp : Response} {c : Option Condition}
  {k k' : Block}

/-- Of the block, a read in progress is concerned with its ring's `head` only. -/
theorem readServed.of_head (h : readServed k m)
    (hhead : ∀ r n, microInstr m = .rbRead r n → k'.head r = k.head r) : readServed k' m := by
  cases m with
  | r2 r n t => rw [readServed, hhead r n rfl]; exact h
  | r3 | r4 | r5 => exact h
  | _ => trivial

/-- An operation just begun has read nothing. -/
theorem readServed.first {i : Instr} (e : firstMicro i = some m) : readServed k m := by
  cases i <;> cases e <;> trivial

/-- A read of no more than is queued is served: R1 and R2 see all that is queued, R3 takes all it asks for. -/
theorem readServed.more (h : readServed k m)
    (hqueued : ∀ r n, microInstr m = .rbRead r n → n ≤ k.cnt r)
    (e : microStep inv m k = .more m' k') : readServed k' m' := by
  cases m with
  | r1 r n => cases e; exact hqueued r n rfl
  | r2 r n t => cases e; exact h
  | r3 r n t i =>
    cases e
    rw [afterRead, readCount, Nat.min_eq_left h]
    split <;> rfl
  | r4 r n i j bs =>
    simp only [microStep, readOne] at e
    split at e <;> cases e
    rw [afterRead]
    split <;> exact h
  | w3 => simp only [microStep] at e; split at e <;> cases e; trivial
  | feed => simp only [microStep, feedMicro] at e; split at e <;> cases e
  | w1 | w2 | w4 | c1 | f1 => cases e; trivial
  | w5 | r5 | c2 | f2 => cases e

/-- Before R5 a read changes nothing. -/
theorem microStep_more_rbRead (hi : microInstr m = .rbRead r n) (e : microStep inv m k = .more m' k') :
    k' = k := by
  rcases MicroLeads.cases (.inl ⟨m', e⟩) with h | ⟨r', b, i, t, rfl, -⟩ | ⟨r', b, i, t, rfl, -⟩ |
    ⟨r', j, i, n', bs, rfl, -⟩ | ⟨p, raw, q, rfl, -⟩
  · exact h
  · cases hi
  · cases hi
  · cases e
  · cases hi

/-- R5 ends a read and answers the bytes read. -/
theorem microStep_done_rbRead (hi : microInstr m = .rbRead r n)
    (e : microStep inv m k = .done resp c k') :
    ∃ i j bs, m = .r5 r n i j bs ∧ resp = .read j bs := by
  cases m with
  | r5 r n i j bs => cases hi; cases e; exact ⟨i, j, bs, rfl, rfl⟩
  | r4 => simp only [microStep, readOne] at e; split at e <;> cases e
  | r1 | r2 | r3 => cases e
  | _ => cases hi

/-- C2 ends a count and answers it. -/
theorem microStep_done_rbCount (hi : microInstr m = .rbCount r)
    (e : microStep inv m k = .done resp c k') :
    ∃ t, m = .c2 r t ∧ resp = .count (indexDiff t (k.head r)) ∧ k' = k := by
  cases m with
  | c2 r t => cases hi; cases e; exact ⟨t, rfl, rfl, rfl⟩
  | c1 => cases e
  | _ => cases hi

/-- MAIN counts a receive ring as its consumer, so the count is of bytes that only MAIN takes out (rule
R112 (d)). -/
theorem microStep_done_count_le {h : Option RingId} {inv : Bool} {r : RingId} {n : Nat} {k' : Block}
    (hm : MicroInv h .main k m) (hr : r.dir = .rx) (hi : microInstr m = .rbCount r)
    (e : microStep inv m k = .done (.count n) c k') : n ≤ k'.cnt r := by
  obtain ⟨t, rfl, hn, rfl⟩ := microStep_done_rbCount hi e
  cases hn
  obtain ⟨hmay, hcnt, -⟩ := hm
  have hrole : Agent.main = producer h r ∨ Agent.main = consumer h r := by
    simpa [microInstr, mayIssue] using hmay
  refine hcnt (hrole.resolve_left fun hp => ?_)
  obtain ⟨htx, -⟩ := producer_main hp
  cases hr.symm.trans htx

end Micro

/-! ## What arrives while MAIN is inside a poll -/

/-- An event takes nothing from a receive ring, whoever is its consumer. -/
theorem performAs_event_cnt {p q : Port} {i : Instr} {s t : State} (hk : s.block.Inv)
    (e : performAs (.irq q) i s = .next t) : s.block.cnt (rxRing p) ≤ t.block.cnt (rxRing p) := by
  have hne : consumer s.params.harness (rxRing p) ≠ .irq q := fun h => nomatch consumer_irq h.symm
  obtain ⟨-, hcnt, -⟩ := (Drift.of_performAs hk hne e).consumer (rxRing p) rfl
  exact hcnt

theorem PollServed.event {q : Port} {i : Instr} {s t : State} (hs : s.Inv) (h : PollServed s)
    (e : performAs (.irq q) i s = .next t) : PollServed t := by
  obtain ⟨hk, hops, -⟩ := hs
  obtain ⟨hqueued, hserved, hno⟩ := h
  obtain ⟨hmain, -, hl, -, -⟩ := performAs_sameUser e
  refine ⟨fun hp => ?_, fun op hop => ?_, hl ▸ hno⟩
  · rw [hl] at hp ⊢
    exact (hqueued hp).trans (performAs_event_cnt hk e)
  · rw [hmain] at hop
    refine (hserved op hop).of_head fun r n hi => ?_
    have hcons := (hops .main op.micro (by simp [hop])).consumer_of_read hi
    have hne : Agent.main ≠ .irq q := nofun
    obtain ⟨hhead, -⟩ := (Drift.of_performAs hk hne e).consumer r hcons
    exact hhead

/-! ## MAIN's own moves -/

theorem PollServed.issue {s : State} (h : PollServed s) (o : Owner) (i : Instr) :
    PollServed (issueOp o i s) := by
  obtain ⟨hqueued, hserved, hno⟩ := h
  rcases issueOp_cases o i s with ⟨m, hf, -, e⟩ | ⟨-, e⟩ <;> rw [e]
  · refine ⟨hqueued, ?_, hno⟩
    rintro op ⟨⟩
    exact .first hf
  · rw [PollServed, State.deliver_refused_loop, State.deliver_block, State.deliver_mainOp]
    exact ⟨hqueued, hserved, hno⟩

theorem PollServed.control {s : State} (h : PollServed s) (hn : s.loop.nextOp = none) :
    PollServed { s with loop := s.loop.control } := by
  obtain ⟨-, hserved, hno⟩ := h
  exact ⟨fun hp => absurd hp (MainLoop.control_ne_l4 hn), hserved, hno.control⟩

section Continue

variable {s : State} {op : InFlight} {m : Micro} {resp : Response} {c : Option Condition} {k : Block}

theorem ownOp.microInstr_eq (hown : ownOp s) (hm : s.mainOp = some op) {i : Instr}
    (hi : s.loop.nextOp = some i) : microInstr op.micro = i := by
  obtain ⟨-, hnext⟩ := hown op hm
  exact Option.some.inj (hnext.symm.trans hi)

/-- At L4 MAIN's loop is inside the read of its snapshot. -/
theorem ownOp.rbRead_of_l4 (hown : ownOp s) (hm : s.mainOp = some op) (hp : s.loop.point = .l4) :
    microInstr op.micro = .rbRead s.loop.srcRing s.loop.snapshot :=
  hown.microInstr_eq hm (MainLoop.nextOp_rbRead_iff.2 ⟨hp, rfl, rfl⟩)

theorem ownOp.finishOp_loop (hown : ownOp s) (hm : s.mainOp = some op) :
    (finishOp op resp c k s).loop = s.loop.advance s.params resp := by
  obtain ⟨howner, -⟩ := hown op hm
  rw [finishOp, howner]
  rfl

/-- MAIN's read asks for its snapshot, which is queued. -/
theorem PollServed.read_le_cnt (h : PollServed s) (hown : ownOp s) (hm : s.mainOp = some op)
    {r : RingId} {n : Nat} (hi : microInstr op.micro = .rbRead r n) : n ≤ s.block.cnt r := by
  obtain ⟨hqueued, -, -⟩ := h
  obtain ⟨-, hnext⟩ := hown op hm
  obtain ⟨hp, rfl, rfl⟩ := MainLoop.nextOp_rbRead_iff.1 (hi ▸ hnext)
  exact hqueued hp

/-- The read of L4 returns the whole snapshot (rule R184). -/
theorem PollServed.read_eq_snapshot (h : PollServed s) (hown : ownOp s) (hm : s.mainOp = some op)
    (hp : s.loop.point = .l4) {inv : Bool} (e : microStep inv op.micro s.block = .done resp c k) :
    ∃ bs, resp = .read s.loop.snapshot bs := by
  obtain ⟨-, hserved, -⟩ := h
  obtain ⟨i, n, bs, hr5, rfl⟩ := microStep_done_rbRead (hown.rbRead_of_l4 hm hp) e
  have hn : n = s.loop.snapshot := by
    have hop := hserved op hm
    rwa [hr5] at hop
  exact ⟨bs, by rw [hn]⟩

theorem PollServed.goesOn (h : PollServed s) (hown : ownOp s) (hm : s.mainOp = some op)
    (e : microStep s.activeCfg.bitInvert op.micro s.block = .more m k) :
    PollServed { s with block := k, mainOp := some { op with micro := m } } := by
  have ⟨hqueued, hserved, hno⟩ := h
  refine ⟨fun hp => ?_, ?_, hno⟩
  · rw [microStep_more_rbRead (hown.rbRead_of_l4 hm hp) e]
    exact hqueued hp
  · rintro op' ⟨⟩
    exact (hserved op hm).more (fun r n => h.read_le_cnt hown hm) e

theorem PollServed.ends (hs : s.Inv) (h : PollServed s) (hown : ownOp s) (hm : s.mainOp = some op)
    (e : microStep s.activeCfg.bitInvert op.micro s.block = .done resp c k) :
    PollServed (finishOp op resp c k s) := by
  have ⟨_, _, hno⟩ := h
  obtain ⟨-, hops, -⟩ := hs
  rw [PollServed, hown.finishOp_loop hm, finishOp_block, finishOp_mainOp]
  refine ⟨fun hp => ?_, nofun, hno.advance _ fun n bs hp hresp => ?_⟩
  · rcases MainLoop.advance_l4 hp with ⟨hp4, hresp⟩ | ⟨hp2, n, rfl, hl⟩
    · obtain ⟨bs, hread⟩ := h.read_eq_snapshot hown hm hp4 e
      exact absurd hread (hresp _ bs)
    · rw [hl]
      exact microStep_done_count_le (hops .main op.micro (by simp [hm])) rfl
        (hown.microInstr_eq hm (MainLoop.nextOp_l2 hp2)) e
  · obtain ⟨bs', rfl⟩ := h.read_eq_snapshot hown hm hp e
    cases hresp
    rfl

end Continue

/-! ## Every turn -/

theorem TurnResult.keeps_pollServed {s t : State} {a : Agent} (h : TurnResult s a t) (hs : s.Inv)
    (hsystem : s.systemOnly) (hown : ownOp s) (hpoll : PollServed s) : PollServed t := by
  cases h with
  | illegal u f hu =>
    obtain ⟨l, rfl⟩ := hu.exists_agenda
    exact hpoll
  | perform u t a i hu hm hsys hword e =>
    obtain ⟨l, rfl⟩ := hu.exists_agenda
    obtain ⟨q, rfl, -⟩ := hsys hsystem
    exact PollServed.event (s := { s with agenda := l }) hs hpoll e
  | issue u o i hu =>
    obtain ⟨l, rfl⟩ := hu.exists_agenda
    exact PollServed.issue (s := { s with agenda := l }) hpoll o i
  | control u hu hm hn =>
    obtain ⟨l, rfl⟩ := hu.exists_agenda
    exact PollServed.control (s := { s with agenda := l }) hpoll hn
  | micro u t op hu hm e =>
    obtain ⟨l, rfl⟩ := hu.exists_agenda
    rcases continueOp_cases e with ⟨m, k, h, rfl⟩ | ⟨resp, c, k, h, -, rfl⟩
    · exact PollServed.goesOn (s := { s with agenda := l }) hpoll hown hm h
    · exact PollServed.ends (s := { s with agenda := l }) hs hpoll hown hm h
  | begin u x i hu hm hsys => exact absurd hsystem hsys
  | harnessMicro u t x m hu hm hsys => exact absurd hsystem hsys
  | harnessIdle u x hu =>
    obtain ⟨l, rfl⟩ := hu.exists_agenda
    exact hpoll

/-- Settles O47: what L2 counted is still queued at L4, so the read of L4 returns all of it. -/
theorem readSizeMismatchNeverOccurs : Obligations.ReadSizeMismatchNeverOccurs := by
  intro s t h e
  obtain ⟨hs, hsystem, hown, hpoll⟩ := relayInv_iff.1 h
  refine relayInv_iff.2 ⟨stepKeepsInvariant s t hs e, step_systemOnly e hsystem, ?_⟩
  rcases step_cases e with ⟨-, -, rfl⟩ | ⟨_, a, -, -, h⟩
  · obtain ⟨hqueued, hserved, hno⟩ := hpoll
    exact ⟨hown, hqueued, fun op hm => (hserved op hm).of_head fun _ _ _ => rfl, hno⟩
  · exact ⟨h.keeps_ownOp hown hsystem, h.keeps_pollServed hs hsystem hown hpoll⟩

end Sys2Proof.Machine
end

section
/-! PROOFS. Taking an event: an illegal word or an operation of its port's handler, which leaves MAIN, the
configuration, the parsers and the other ports alone (60_exceptions.md rules R192, R193). -/

namespace Sys2Proof.Machine

/-- A word on an event interface is illegal there, or an event that the port's handler performs. -/
theorem serve_event_cases {p : Port} {w : Word} {s t : State} (e : serve (.event p) w s = .next t) :
    t = s.answerIllegal (.event p) ∨ ∃ i, homeIface i = .event p ∧ exec i s = .next t := by
  unfold serve at e
  split at e
  · cases e
    exact .inl rfl
  · next i hi =>
    obtain ⟨-, hf⟩ := accepted_some hi
    exact .inr ⟨i, hf, e⟩

/-- Whatever the word, the step changes the part of its own port only, and there only what is the
handler's. -/
theorem serve_event_frame {p : Port} {w : Word} {s t : State} (e : serve (.event p) w s = .next t) :
    sameUser s t ∧ OnlyPart p s.block t.block ∧
      WritesOwn s.params.harness (.irq p) s.block t.block := by
  rcases serve_event_cases e with rfl | ⟨i, hi, e⟩
  · exact ⟨⟨rfl, rfl, rfl, rfl, rfl⟩, ⟨fun _ _ => rfl, fun _ => rfl, rfl⟩, .refl _⟩
  · have e' := exec_event hi s ▸ e
    exact ⟨performAs_sameUser e', exec_event_onlyPart hi e, .of_performAs e'⟩

/-- A handler leaves the registers of its port that are MAIN's. -/
theorem WritesOwn.irq {h : Option RingId} {p : Port} {k k' : Block} (w : WritesOwn h (.irq p) k k') :
    k'.head (rxRing p) = k.head (rxRing p) ∧ k'.tail (txRing p) = k.tail (txRing p) ∧
      (k'.ring (txRing p)).slots = (k.ring (txRing p)).slots := by
  have hc : Agent.irq p ≠ consumer h (rxRing p) := fun e => nomatch consumer_irq e
  have hp : Agent.irq p ≠ producer h (txRing p) := fun e => nomatch producer_irq e
  exact ⟨w.head _ hc, w.tail _ hp, w.slots _ hp⟩

/-- Settles O31: an event's word waits for nobody, so the step is that of its interface. -/
theorem eventsLeaveMainAndOtherPortsAlone : Obligations.EventsLeaveMainAndOtherPortsAlone := by
  intro s t c p w rest hc ha e
  rw [step_request hc ha nofun] at e
  obtain ⟨⟨hmain, hharness, hloop, hparams, hagenda⟩, honly, howns⟩ := serve_event_frame e
  refine ⟨hmain, hharness, hloop, hparams, hagenda, honly.cfg, honly.parser, fun r hr => ?_,
    fun q hq => ?_, howns.irq⟩
  · exact Block.ring_of_part (honly.part r.port hr) r.dir
  · obtain ⟨-, -, hport⟩ := Block.part_eq_iff.1 (honly.part q hq)
    exact hport

end Sys2Proof.Machine
end

section
/-! PROOFS. Boot as a step: reset's missing `cfg` is filled from `SEL_CODE`
(70_reset_and_hazards.md section 2). -/

namespace Sys2Proof.Machine

/-- Boot comes before the schedule (rule R207): no turn is taken while `cfg` is not selected. -/
theorem step_boot {s : State} (hc : s.block.cfg = none) : step s = .next (bootStep s) := by
  simp only [step, machineStep, hc]

/-- Settles O2: the step is boot, which writes CFG.SELECT's entry into `cfg` and nothing else. -/
theorem bootStepSelectsConfig : Obligations.BootStepSelectsConfig := by
  intro s hc
  rw [step_boot hc, bootStep]

end Sys2Proof.Machine
end
